-- ==== Sys2Proof/Word.lean ====
section
/-! DEFINITION. The words of HTD-1 (spec/00_scope.md R5, R7): every value is an unsigned bit vector of a fixed width. -/

namespace Sys2Proof

/-- A symbol, a serialized-tree byte or an operand: W = 8 bits, unsigned (R5, R7). -/
abbrev Byte := BitVec 8

/-- A command word: CMD_W = 16 bits, OP in [15:8], ARG in [7:0] (R5, R80). -/
abbrev CmdWord := BitVec 16

/-- A node index: IDX_W = 9 bits (R5). -/
abbrev NodeIdx := BitVec 9

/-- A register value or an event counter: CNT_W = 32 bits (R5, R40). -/
abbrev Word32 := BitVec 32

/-- A bit of a code, a payload or a side: `false` is 0 (left) and `true` is 1 (right) (R7, R11). -/
abbrev Bit := Bool

end Sys2Proof
end

