-- ==== Sys2Proof/Syntax.lean ====
section
/-! DEFINITION. The twelve commands of HTD-1 (spec/30_encoding.md R85, spec/opcode_table.json). -/

namespace Sys2Proof

/-- A command of the block, one constructor per row of the opcode table (R85). Operands are taken from ARG as it
stands (R88): a byte in formats B and R, the one bit ARG[0] in format T, nothing in format N. -/
inductive Instr where
  /-- NOP, format N, 0x0000 (R190). -/
  | nop
  /-- RESET, format N, 0x0100 (R191). -/
  | reset
  /-- CLR_ERR, format N, 0x0200 (R192). -/
  | clrErr
  /-- READ_REG r, format R, 0x03rr (R193). -/
  | readReg (r : Byte)
  /-- TREE_START, format N, 0x1000 (R110). -/
  | treeStart
  /-- TREE_BYTE b, format B, 0x11bb (R111). -/
  | treeByte (b : Byte)
  /-- TREE_END, format N, 0x1200 (R120). -/
  | treeEnd
  /-- DEC_START, format N, 0x2000 (R160). -/
  | decStart
  /-- DEC_BIT t, format T, 0x2100 or 0x2101 (R163). -/
  | decBit (t : Bit)
  /-- DEC_CHAR c, format B, 0x22cc (R164). -/
  | decChar (c : Byte)
  /-- DEC_END, format N, 0x2300 (R165). -/
  | decEnd
  /-- ENC_SYM s, format B, 0x30ss, only when HAS_ENCODER (R140, R87). -/
  | encSym (s : Byte)
  deriving DecidableEq, Repr

end Sys2Proof
end

