-- ==== Sys2Proof/WellFormed.lean ====
section
/-! DEFINITION. Which commands a build of HTD-1 has (spec/30_encoding.md R86, R87). Reserved operand bits cannot be
written in `Instr`, so the one check left is the build option. -/

namespace Sys2Proof

/-- `i` is a command of the build: ENC_SYM exists only when HAS_ENCODER, and the other eleven always do (R87). -/
def Instr.wf (hasEncoder : Bool) : Instr → Bool
  | .nop => true
  | .reset => true
  | .clrErr => true
  | .readReg _ => true
  | .treeStart => true
  | .treeByte _ => true
  | .treeEnd => true
  | .decStart => true
  | .decBit _ => true
  | .decChar _ => true
  | .decEnd => true
  | .encSym _ => hasEncoder

end Sys2Proof
end

