-- ==== Sys2Proof/Decode.lean ====
section
/-! DEFINITION. Decoding a command word (spec/30_encoding.md R80 to R88), and the encoder written from the same
tables. A word that no rule assigns is answered `none`: the block raises ILLEGAL_COMMAND for it (R86). -/

namespace Sys2Proof

/-- OP = C[15:8] (R80). -/
def opField (w : CmdWord) : Byte := w.extractLsb' 8 8

/-- ARG = C[7:0] (R80). -/
def argField (w : CmdWord) : Byte := w.extractLsb' 0 8

/-- Format N: ARG must be 0x00 (R81). -/
def decodeN (i : Instr) (arg : Byte) : Option Instr :=
  if arg = 0x00 then some i else none

/-- Format T: ARG[7:1] must be 0, and ARG[0] is the bit (R83). -/
def decodeT (f : Bit → Instr) (arg : Byte) : Option Instr :=
  if arg.extractLsb' 1 7 = 0 then some (f (arg.getLsbD 0)) else none

/-- Formats B and R: every ARG is legal at the encoding level (R82, R84). -/
def decodeB (f : Byte → Instr) (arg : Byte) : Option Instr :=
  some (f arg)

/-- Decoding, total in the word and the build option (R86); `none` is ILLEGAL_COMMAND. -/
def decode (hasEncoder : Bool) (w : CmdWord) : Option Instr :=
  let op := opField w
  let arg := argField w
  if op = 0x00 then decodeN .nop arg
  else if op = 0x01 then decodeN .reset arg
  else if op = 0x02 then decodeN .clrErr arg
  else if op = 0x03 then decodeB .readReg arg
  else if op = 0x10 then decodeN .treeStart arg
  else if op = 0x11 then decodeB .treeByte arg
  else if op = 0x12 then decodeN .treeEnd arg
  else if op = 0x20 then decodeN .decStart arg
  else if op = 0x21 then decodeT .decBit arg
  else if op = 0x22 then decodeB .decChar arg
  else if op = 0x23 then decodeN .decEnd arg
  else if op = 0x30 then (if hasEncoder then decodeB .encSym arg else none)
  else none

/-- A command word from its two fields (R80). -/
def mkWord (op arg : Byte) : CmdWord := op ++ arg

/-- The word of a command (R85). -/
def encode : Instr → CmdWord
  | .nop => mkWord 0x00 0x00
  | .reset => mkWord 0x01 0x00
  | .clrErr => mkWord 0x02 0x00
  | .readReg r => mkWord 0x03 r
  | .treeStart => mkWord 0x10 0x00
  | .treeByte b => mkWord 0x11 b
  | .treeEnd => mkWord 0x12 0x00
  | .decStart => mkWord 0x20 0x00
  | .decBit t => mkWord 0x21 (if t then 0x01 else 0x00)
  | .decChar c => mkWord 0x22 c
  | .decEnd => mkWord 0x23 0x00
  | .encSym s => mkWord 0x30 s

/-- The command word whose bits 0 to `nbits - 1` are those of `w`, every bit above 0; a word crosses the port whole,
so there is no byte order to settle (R64, R80). -/
def tableWord (nbits w : Nat) : CmdWord := BitVec.ofNat 16 (w % 2 ^ nbits)

/-- What the decoder reads from a row of the opcode table, in the build that has the encoder (D22's default). -/
def decodeTableWord (nbits w : Nat) : Option Instr :=
  decode true (tableWord nbits w)

end Sys2Proof
end

