-- ==== Sys2Proof/Config.lean ====
section
/-! DEFINITION. The implementation parameters of HTD-1 (spec/00_scope.md R5) and the free values that stand for the
storage cells the spec leaves unspecified. -/

namespace Sys2Proof.Config

/-- NODE_CAP: node memory entries (R5). -/
def nodeCap : Nat := 511

/-- STACK_CAP: loader slot-stack entries (R5); no command can pass it (R126). -/
def stackCap : Nat := 512

/-- NSYM: number of distinct symbol values (R5). -/
def nSym : Nat := 256

/-- MAX_CODE_LEN: longest code a loaded tree can give (R5, R146). -/
def maxCodeLen : Nat := 255

/-- The default of the build option HAS_ENCODER (92_eei_decisions.md D22). DESIGN CHOICE: log 3. -/
def hasEncoderDefault : Bool := true

/-- FREE VALUE (log 4): the 27 bits an unspecified entry NODE[i] happens to hold (R25, R47, R272). No body: nothing
can be proved of it. -/
opaque freeNodeWord : Nat → BitVec 27

/-- FREE VALUE (log 5): what an unspecified child field of NODE[i] happens to hold, `false` for LEFT and `true` for
RIGHT (R25, R115). -/
opaque freeChild : Nat → Bit → NodeIdx

/-- FREE VALUE (log 4): the bits an unspecified entry CODE[s] happens to hold, CLEN in the low 8 and CBITS in the
255 above (R31, R47, R272). -/
opaque freeCodeWord : Nat → BitVec 263

end Sys2Proof.Config
end

