-- ==== Sys2Proof/Machine/State.lean ====
section
/-! DEFINITION. The state of HTD-1 as plain data (spec/10_state.md R20), the response record (spec/30_encoding.md
R89), the host's side of the port, and the state after reset (R47). -/

namespace Sys2Proof.Machine

/-- TSTATE: whether a tree is held (R23). The value 3 is never held (R20). -/
inductive TState where
  | empty
  | loading
  | ready
  deriving DecidableEq, Repr

/-- DSTATE: the decoder's session state (R32). The value 3 is never held (R20). -/
inductive DState where
  | idle
  | run
  | halted
  deriving DecidableEq, Repr

/-- TAG of a node entry: 0 = INTERNAL, 1 = LEAF (R24). -/
inductive Tag where
  | internal
  | leaf
  deriving DecidableEq, Repr

/-- A node memory entry with the four fields of R24. A child field is `none` while it is unspecified: in a leaf, and
in an internal node whose child slot is still pending (R25, 93_implementation_defined.md U2). -/
structure Node where
  tag : Tag
  sym : Byte
  left : Option NodeIdx
  right : Option NodeIdx
  deriving DecidableEq, Repr

/-- An entry of SLOTS: an internal node and the side whose child is not yet allocated (R28). -/
structure Slot where
  parent : NodeIdx
  side : Bit
  deriving DecidableEq, Repr

/-- An entry of the CODE table: the length of a code and its bits in emission order (R31). -/
structure Code where
  clen : BitVec 8
  cbits : BitVec 255
  deriving DecidableEq, Repr

/-- The status codes, and no others (spec/60_exceptions.md R241). -/
inductive Status where
  | ok
  | treeTruncated
  | treeBadMarker
  | treeOverflow
  | treeDupSymbol
  | noTree
  | badState
  | invalidBit
  | undecodableBit
  | truncatedCode
  | decoderHalted
  | unknownSymbol
  | illegalCommand
  | badRegister
  deriving DecidableEq, Repr

/-- A response (R89). A field that is not set is 0 (R91). -/
structure Response where
  status : Status
  sv : Bool := false
  sym : Byte := 0
  clen : BitVec 8 := 0
  data : Word32 := 0
  cbits : BitVec 256 := 0
  deriving DecidableEq, Repr

/-- What the host may do at the port (spec/48_host_reference.md R222, spec/70_reset_and_hazards.md R271). -/
inductive Input where
  /-- Present a command word with RST released. -/
  | command (w : CmdWord)
  /-- Assert the reset input RST, with a command word presented meanwhile or none. -/
  | rst (presented : Option CmdWord)
  deriving DecidableEq, Repr

/-- The state of the block: the elements of R20 under their own names, the build option it was made with, and the
host's side of the command port. -/
structure State where
  /-- HAS_ENCODER: configuration, which no step changes (R5, R20; log 3). -/
  hasEncoder : Bool
  /-- TSTATE (R23). -/
  tstate : TState
  /-- NODE: the specified entries, by index; an unlisted entry is unspecified (R24, R25; log 4). -/
  nodes : List (Nat × Node)
  /-- NCNT (R26). -/
  ncnt : BitVec 10
  /-- NLEAF (R27). -/
  nleaf : BitVec 9
  /-- SLOTS, the top entry first; SDEPTH is its length (R28). -/
  slots : List Slot
  /-- LSYM (R29). -/
  lsym : Bool
  /-- PRESENT, bit s for symbol s (R30). -/
  present : BitVec 256
  /-- CODE: the specified entries, by symbol; an unlisted entry is unspecified (R31; log 4). -/
  code : List (Nat × Code)
  /-- DSTATE (R32). -/
  dstate : DState
  /-- CUR (R33). -/
  cur : NodeIdx
  /-- DEC_BITCNT (R36). -/
  decBitcnt : Word32
  /-- DEC_SYMCNT (R36). -/
  decSymcnt : Word32
  /-- ENC_SYMCNT (R37). -/
  encSymcnt : Word32
  /-- ENC_BITCNT (R37). -/
  encBitcnt : Word32
  /-- ERR_FIRST (R38). -/
  errFirst : BitVec 8
  /-- ERR_LAST (R38). -/
  errLast : BitVec 8
  /-- What the host will present at the port, oldest first (R12, R14). DESIGN CHOICE: log 1. -/
  inputs : List Input
  /-- The responses returned so far, oldest first (R14). DESIGN CHOICE: log 2. -/
  rsps : List Response
  deriving DecidableEq, Repr

/-- There is no fault: every command word in every state has a defined outcome (R240, R280). -/
inductive Fault where
  deriving DecidableEq, Repr

/-- A step the model refuses. -/
inductive Refusal where
  /-- Raised by an arm of `exec` whose instruction has no meaning yet, with its mnemonic; safe. No arm is left so. -/
  | notModelled (mnemonic : String)
  deriving DecidableEq, Repr

/-- The block right after reset, in the build with or without the encoder (R47). NODE and CODE are unspecified, so
nothing is listed (R272; log 4). -/
def State.resetOf (hasEncoder : Bool) : State where
  hasEncoder := hasEncoder
  tstate := .empty
  nodes := []
  ncnt := 0
  nleaf := 0
  slots := []
  lsym := false
  present := 0
  code := []
  dstate := .idle
  cur := 0
  decBitcnt := 0
  decSymcnt := 0
  encSymcnt := 0
  encBitcnt := 0
  errFirst := 0x00
  errLast := 0x00
  inputs := []
  rsps := []

/-- The block right after reset (R47, R271), in the default build (D22; log 3). -/
def State.reset : State := State.resetOf Config.hasEncoderDefault

end Sys2Proof.Machine
end

