-- ==== Sys2Proof/Machine/Operands.lean ====
section
/-! DEFINITION. The operand forms of HTD-1: register indices (spec/10_state.md R40), marker and payload bytes
(spec/41_tree_load.md R112, spec/43_decode.md R164), and code bits as a vector (spec/20_memory.md R65). -/

namespace Sys2Proof.Machine

/-- The twelve registers of the map (R40). -/
inductive Reg where
  | id
  | status
  | ncnt
  | nleaf
  | cur
  | sdepth
  | err
  | decBitcnt
  | decSymcnt
  | encSymcnt
  | encBitcnt
  | param
  deriving DecidableEq, Repr

/-- The register a register index names; 0x0C to 0xFF name none (R40). -/
def regOf (r : Byte) : Option Reg :=
  if r = 0x00 then some .id
  else if r = 0x01 then some .status
  else if r = 0x02 then some .ncnt
  else if r = 0x03 then some .nleaf
  else if r = 0x04 then some .cur
  else if r = 0x05 then some .sdepth
  else if r = 0x06 then some .err
  else if r = 0x07 then some .decBitcnt
  else if r = 0x08 then some .decSymcnt
  else if r = 0x09 then some .encSymcnt
  else if r = 0x0A then some .encBitcnt
  else if r = 0x0B then some .param
  else none

/-- The index of a register (R40). -/
def regIndex : Reg → Byte
  | .id => 0x00
  | .status => 0x01
  | .ncnt => 0x02
  | .nleaf => 0x03
  | .cur => 0x04
  | .sdepth => 0x05
  | .err => 0x06
  | .decBitcnt => 0x07
  | .decSymcnt => 0x08
  | .encSymcnt => 0x09
  | .encBitcnt => 0x0A
  | .param => 0x0B

/-- The marker of a serialized tree: '0' = 0x30 is an internal node, '1' = 0x31 a leaf, any other byte none (R112). -/
def markerOf (b : Byte) : Option Tag :=
  if b = 0x30 then some .internal
  else if b = 0x31 then some .leaf
  else none

/-- The payload bit of a text character: '0' = 0x30, '1' = 0x31, any other character none (R164). -/
def payloadBit (c : Byte) : Option Bit :=
  if c = 0x30 then some false
  else if c = 0x31 then some true
  else none

/-- The number whose bit k is element k of a list of bits. -/
def bitsToNat : List Bit → Nat
  | [] => 0
  | b :: bs => b.toNat + 2 * bitsToNat bs

/-- A list of bits as a vector: bit k is element k, and the bits above the list's length are 0 (R65). -/
def packBits (n : Nat) (bs : List Bit) : BitVec n := BitVec.ofNat n (bitsToNat bs)

/-- The first `len` bits of a vector as a list, bit 0 first (R65). -/
def unpackBits {n : Nat} (len : Nat) (v : BitVec n) : List Bit :=
  (List.range len).map v.getLsbD

/-- A path as a CODE entry: its length and its bits in emission order (R31, R118). -/
def codeOfPath (p : List Bit) : Code where
  clen := BitVec.ofNat 8 p.length
  cbits := packBits 255 p

/-- The bits CBITS[0 .. CLEN - 1] of a CODE entry (R140). -/
def codeBits (c : Code) : List Bit := unpackBits c.clen.toNat c.cbits

end Sys2Proof.Machine
end

