-- ==== Sys2Proof/Machine/Flags.lean ====
section
/-! DEFINITION. Status codes and their effect classes (spec/60_exceptions.md R241, R243), the derived predicates
DEGEN and MIDCODE, the register values (spec/10_state.md R34, R35, R40 to R46), and the packed response
(spec/30_encoding.md R90). -/

namespace Sys2Proof.Machine

/-- The numeric status codes (R241). -/
def statusCode : Status → BitVec 8
  | .ok => 0x00
  | .treeTruncated => 0x01
  | .treeBadMarker => 0x02
  | .treeOverflow => 0x03
  | .treeDupSymbol => 0x04
  | .noTree => 0x10
  | .badState => 0x11
  | .invalidBit => 0x20
  | .undecodableBit => 0x21
  | .truncatedCode => 0x22
  | .decoderHalted => 0x23
  | .unknownSymbol => 0x30
  | .illegalCommand => 0xF0
  | .badRegister => 0xF1

/-- The effect classes of R243. -/
inductive EffectClass where
  | none
  | discard
  | halt
  deriving DecidableEq, Repr

/-- The effect class of a status code (R241, R243). -/
def effectClass : Status → EffectClass
  | .ok => .none
  | .treeTruncated => .discard
  | .treeBadMarker => .discard
  | .treeOverflow => .discard
  | .treeDupSymbol => .discard
  | .noTree => .none
  | .badState => .none
  | .invalidBit => .halt
  | .undecodableBit => .halt
  | .truncatedCode => .halt
  | .decoderHalted => .none
  | .unknownSymbol => .none
  | .illegalCommand => .none
  | .badRegister => .none

/-- TSTATE as its two bits (R20). -/
def tstateCode : TState → BitVec 2
  | .empty => 0
  | .loading => 1
  | .ready => 2

/-- DSTATE as its two bits (R20). -/
def dstateCode : DState → BitVec 2
  | .idle => 0
  | .run => 1
  | .halted => 2

/-- TAG as its bit: 0 = INTERNAL, 1 = LEAF (R24). -/
def tagBit : Tag → Bool
  | .internal => false
  | .leaf => true

/-- DEGEN: the loaded tree is a single leaf (R34). -/
def degen (s : State) : Bool := s.tstate = .ready ∧ s.ncnt = 1

/-- MIDCODE: some bits of a code have been taken and its leaf is not yet reached (R35). -/
def midcode (s : State) : Bool := s.dstate = .run ∧ s.cur ≠ 0

/-- SDEPTH: the number of entries of SLOTS (R28). DESIGN CHOICE (log 17): more than 512 entries, as no run has (R126), are
counted uncut, past the 10 bits of the field. -/
def sdepth (s : State) : Nat := s.slots.length

/-- The STATUS register (R42). -/
def statusReg (s : State) : Word32 :=
  0#24 ++ BitVec.ofBool s.hasEncoder ++ BitVec.ofBool s.lsym ++ BitVec.ofBool (midcode s) ++
    BitVec.ofBool (degen s) ++ dstateCode s.dstate ++ tstateCode s.tstate

/-- The value of each register of the map (R40). -/
def regValue (s : State) : Reg → Word32
  | .id => 0x48544431
  | .status => statusReg s
  | .ncnt => s.ncnt.setWidth 32
  | .nleaf => s.nleaf.setWidth 32
  | .cur => s.cur.setWidth 32
  | .sdepth => BitVec.ofNat 32 (sdepth s)
  | .err => 0#16 ++ s.errLast ++ s.errFirst
  | .decBitcnt => s.decBitcnt
  | .decSymcnt => s.decSymcnt
  | .encSymcnt => if s.hasEncoder then s.encSymcnt else 0
  | .encBitcnt => if s.hasEncoder then s.encBitcnt else 0
  | .param => 0x0001FF08

/-- The packed response word RSP (R90). -/
def packResponse (r : Response) : BitVec 320 :=
  r.cbits ++ r.data ++ r.clen ++ r.sym ++ 0#7 ++ BitVec.ofBool r.sv ++ statusCode r.status

/-- One more event in a 32-bit counter, modulo 2^32 (R10, R36). -/
def countUp (v : Word32) : Word32 := v + 1

end Sys2Proof.Machine
end

