-- ==== Sys2Proof/Machine/Ops.lean ====
section
/-! DEFINITION. The named operations over the block's state: the indexed stores behind NODE and CODE, PRESENT, SLOTS,
responding and raising a status (spec/60_exceptions.md R242, R243), Discard (spec/41_tree_load.md R114) and the reset
procedure (spec/70_reset_and_hazards.md R270). -/

namespace Sys2Proof.Machine

/-! ## Indexed storage: a list of (index, entry) pairs, indices strictly rising (log 4) -/

/-- The entry at index `k`, if it is specified. -/
def storeRead {α : Type} : List (Nat × α) → Nat → Option α
  | [], _ => none
  | (a, v) :: rest, k => if k = a then some v else storeRead rest k

/-- Store `v` at index `k`, keeping the indices strictly rising. -/
def storeWrite {α : Type} : List (Nat × α) → Nat → α → List (Nat × α)
  | [], k, v => [(k, v)]
  | (a, u) :: rest, k, v =>
    if k < a then (k, v) :: (a, u) :: rest
    else if k = a then (k, v) :: rest
    else (a, u) :: storeWrite rest k v

/-- The canonical form: indices strictly rising. -/
def storeWf {α : Type} : List (Nat × α) → Bool
  | [] => true
  | (a, _) :: rest => rest.all (fun p => a < p.1) && storeWf rest

/-! ## Node memory (R24, R61) -/

/-- The four fields of a 27-bit entry (R24). -/
def nodeOfWord (w : BitVec 27) : Node where
  tag := if w.getLsbD 26 then .leaf else .internal
  sym := w.extractLsb' 18 8
  left := some (w.extractLsb' 9 9)
  right := some (w.extractLsb' 0 9)

/-- NodeRead(i) (R9). An entry that is not specified reads as a free value (log 4); no run reads one (R75). Index 511, which
names no entry (R24), is one more unspecified entry, in states no run reaches (log 7). -/
def nodeRead (s : State) (i : NodeIdx) : Node :=
  (storeRead s.nodes i.toNat).getD (nodeOfWord (Config.freeNodeWord i.toNat))

/-- NodeWrite(i, e) (R9). -/
def nodeWrite (i : NodeIdx) (e : Node) (s : State) : State :=
  { s with nodes := storeWrite s.nodes i.toNat e }

/-- NODE[i].LEFT for a 0 bit and NODE[i].RIGHT for a 1 bit (R161). A field that is not specified reads as a free
value (log 5); no run reads one (R75). -/
def nodeChild (s : State) (i : NodeIdx) (t : Bit) : NodeIdx :=
  let e := nodeRead s i
  (if t then e.right else e.left).getD (Config.freeChild i.toNat t)

/-- NODE[i] as its 27 bits (R24). -/
def nodeWord (s : State) (i : NodeIdx) : BitVec 27 :=
  BitVec.ofBool (tagBit (nodeRead s i).tag) ++ (nodeRead s i).sym ++ nodeChild s i false ++ nodeChild s i true

/-- An entry with one child field written: LEFT for side 0, RIGHT for side 1 (R115). -/
def setChild (t : Bit) (c : NodeIdx) (e : Node) : Node :=
  if t then { e with right := some c } else { e with left := some c }

/-- NODE[i].LEFT <- c for side 0, NODE[i].RIGHT <- c for side 1 (R115). -/
def linkChild (i : NodeIdx) (t : Bit) (c : NodeIdx) (s : State) : State :=
  nodeWrite i (setChild t c (nodeRead s i)) s

/-! ## PRESENT (R30) and CODE (R31) -/

/-- PRESENT[b]. -/
def isPresent (s : State) (b : Byte) : Bool := s.present.getLsbD b.toNat

/-- PRESENT[b] <- 1. -/
def markPresent (b : Byte) (s : State) : State :=
  { s with present := s.present ||| (1#256 <<< b.toNat) }

/-- The two fields of a CODE entry, CLEN in the low bits. -/
def codeOfWord (w : BitVec 263) : Code where
  clen := w.extractLsb' 0 8
  cbits := w.extractLsb' 8 255

/-- CODE[b]. An entry that is not specified reads as a free value (log 4); no run reads one (R75). -/
def codeRead (s : State) (b : Byte) : Code :=
  (storeRead s.code b.toNat).getD (codeOfWord (Config.freeCodeWord b.toNat))

/-! ## Responses and errors -/

/-- Return a response (R9, R89). -/
def respond (r : Response) (s : State) : State := { s with rsps := s.rsps ++ [r] }

/-- `ok`: STATUS = 0x00 and every other field 0 (R9). -/
def respondOk (s : State) : State := respond { status := .ok } s

/-- Discard, the loader's error clean-up (R114): no tree is held, and NODE and CODE become unspecified. -/
def discardTree (s : State) : State :=
  { s with
    tstate := .empty, nodes := [], ncnt := 0, nleaf := 0, slots := [], lsym := false, present := 0, code := []
    dstate := .idle, cur := 0 }

/-- Halt: the session takes no more bits; CUR and the counters keep their values (R243). -/
def halt (s : State) : State := { s with dstate := .halted }

/-- The effect of an effect class (R243). -/
def applyClass : EffectClass → State → State
  | .none, s => s
  | .discard, s => discardTree s
  | .halt, s => halt s

/-- Record a status in ERR_LAST, and in ERR_FIRST if it held 0x00 (R38, R242). -/
def recordError (e : Status) (s : State) : State :=
  { s with
    errLast := statusCode e
    errFirst := if s.errFirst = 0x00 then statusCode e else s.errFirst }

/-- `raise E`: the one error procedure (R242). -/
def raise (e : Status) (s : State) : State :=
  respond { status := e } (recordError e (applyClass (effectClass e) s))

/-- The reset procedure (R270): every element at its value in R47. The build option and the host's side of the port
are no elements of the block and stay. -/
def resetProcedure (s : State) : State :=
  { State.resetOf s.hasEncoder with inputs := s.inputs, rsps := s.rsps }

end Sys2Proof.Machine
end

