-- ==== Sys2Proof/Machine/Decoder.lean ====
section
/-! DEFINITION. The decoder (spec/43_decode.md): DEC_START, DEC_BIT, DEC_CHAR, DEC_END and the walk. -/

namespace Sys2Proof.Machine

/-- The state checks of DEC_BIT, DEC_CHAR and DEC_END, in the order of R244: NO_TREE, DECODER_HALTED, BAD_STATE; in a
running session the command acts. -/
def inSession (act : State → State) (s : State) : State :=
  if s.tstate ≠ .ready then raise .noTree s
  else
    match s.dstate with
    | .halted => raise .decoderHalted s
    | .idle => raise .badState s
    | .run => act s

/-- Emit a decoded symbol: SV = 1, SYM (R161, R162). -/
def emitSymbol (b : Byte) (s : State) : State :=
  respond { status := .ok, sv := true, sym := b } { s with decSymcnt := countUp s.decSymcnt }

/-- One more bit accepted (R161, R162). -/
def countBit (s : State) : State := { s with decBitcnt := countUp s.decBitcnt }

/-- DecodeBit(t) for a tree that is not degenerate (R161). -/
def walkBit (t : Bit) (s : State) : State :=
  let nxt := nodeChild s s.cur t
  match (nodeRead s nxt).tag with
  | .leaf => emitSymbol (nodeRead s nxt).sym { countBit s with cur := 0 }
  | .internal => respondOk { countBit s with cur := nxt }

/-- DecodeBit(t) for the degenerate single-leaf tree (R162). -/
def degenBit (t : Bit) (s : State) : State :=
  if t then raise .undecodableBit s
  else emitSymbol (nodeRead s 0).sym (countBit s)

/-- DecodeBit(t) (R163). -/
def decodeBit (t : Bit) (s : State) : State :=
  if degen s then degenBit t s else walkBit t s

/-- DEC_START: open a decoding session at the root (R160). -/
def execDecStart (s : State) : Host.Outcome State Fault Refusal :=
  if s.tstate ≠ .ready then .next (raise .noTree s)
  else .next (respondOk { s with dstate := .run, cur := 0, decBitcnt := 0, decSymcnt := 0 })

/-- DEC_BIT t: consume one logical bit (R163). -/
def execDecBit (t : Bit) (s : State) : Host.Outcome State Fault Refusal :=
  .next (inSession (decodeBit t) s)

/-- A payload character in a running session (R164). -/
def payloadChar (c : Byte) (s : State) : State :=
  match payloadBit c with
  | some t => decodeBit t s
  | none => raise .invalidBit s

/-- DEC_CHAR c: consume one character of the textual payload (R164). -/
def execDecChar (c : Byte) (s : State) : Host.Outcome State Fault Refusal :=
  .next (inSession (payloadChar c) s)

/-- The end of the payload in a running session (R165). -/
def payloadEnd (s : State) : State :=
  if s.cur ≠ 0 then raise .truncatedCode s
  else respond { status := .ok, data := s.decSymcnt } { s with dstate := .idle }

/-- DEC_END: the host declares the payload bits exhausted (R165). -/
def execDecEnd (s : State) : Host.Outcome State Fault Refusal :=
  .next (inSession payloadEnd s)

end Sys2Proof.Machine
end

