-- ==== Sys2Proof/Machine/Encoder.lean ====
section
/-! DEFINITION. The encoder (spec/42_encode.md): ENC_SYM. -/

namespace Sys2Proof.Machine

/-- The bits ENC_SYM answers: the one bit 0 on the single-leaf tree, else the CODE entry's bits (R140, R142). -/
def encBits (b : Byte) (s : State) : List Bit :=
  if degen s then [false] else codeBits (codeRead s b)

/-- Answer a code and count it (R140). -/
def emitCode (bits : List Bit) (s : State) : State :=
  respond { status := .ok, clen := BitVec.ofNat 8 bits.length, cbits := packBits 256 bits }
    { s with
      encSymcnt := countUp s.encSymcnt
      encBitcnt := s.encBitcnt + BitVec.ofNat 32 bits.length }

/-- ENC_SYM b: return the code of symbol b (R140). Without the encoder the command is illegal (R87). -/
def execEncSym (b : Byte) (s : State) : Host.Outcome State Fault Refusal :=
  if s.hasEncoder = false then .next (raise .illegalCommand s)
  else if s.tstate ≠ .ready then .next (raise .noTree s)
  else if isPresent s b = false then .next (raise .unknownSymbol s)
  else .next (emitCode (encBits b s) s)

end Sys2Proof.Machine
end

