-- ==== Sys2Proof/Machine/System.lean ====
section
/-! DEFINITION. The system commands (spec/44_system.md): NOP, RESET, CLR_ERR, READ_REG. -/

namespace Sys2Proof.Machine

/-- NOP: do nothing (R190). -/
def execNop (s : State) : Host.Outcome State Fault Refusal :=
  .next (respondOk s)

/-- RESET: the reset procedure, then `ok` (R191). -/
def execReset (s : State) : Host.Outcome State Fault Refusal :=
  .next (respondOk (resetProcedure s))

/-- CLR_ERR: clear the error record (R192). -/
def execClrErr (s : State) : Host.Outcome State Fault Refusal :=
  .next (respondOk { s with errFirst := 0x00, errLast := 0x00 })

/-- READ_REG r: DATA is the register's value before the command; an index that names no register is BAD_REGISTER
(R193, R194). -/
def execReadReg (r : Byte) (s : State) : Host.Outcome State Fault Refusal :=
  match regOf r with
  | none => .next (raise .badRegister s)
  | some g => .next (respond { status := .ok, data := regValue s g } s)

end Sys2Proof.Machine
end

