-- ==== Sys2Proof/Machine/TreeLoad.lean ====
section
/-! DEFINITION. The tree loader (spec/41_tree_load.md): TREE_START, TREE_BYTE, TREE_END, and the procedures Alloc and
Complete. -/

namespace Sys2Proof.Machine

/-! ## Path and Complete (R118, R119) -/

/-- The side of an internal node on which `i` is its child, if it is one (R119). -/
def childSide (i : NodeIdx) (e : Node) : Option Bit :=
  match e.tag with
  | .leaf => none
  | .internal =>
    if e.left = some i then some false
    else if e.right = some i then some true
    else none

/-- The internal node below NCNT whose LEFT or RIGHT is `i`, and the side (R119). -/
def parentOf (s : State) (i : NodeIdx) : Option (NodeIdx × Bit) :=
  s.nodes.findSome? fun p =>
    if p.1 < s.ncnt.toNat then (childSide i p.2).map fun t => (BitVec.ofNat 9 p.1, t) else none

/-- Path(i) by at most `fuel` moves from `i` towards the root (R119). -/
def pathUp (s : State) : Nat → NodeIdx → List Bit
  | 0, _ => []
  | fuel + 1, i =>
    if i = 0 then []
    else
      match parentOf s i with
      | none => []
      | some (p, t) => pathUp s fuel p ++ [t]

/-- Path(i): the bits from the root to node i (R119). A path has fewer moves than there are nodes. -/
def path (s : State) (i : NodeIdx) : List Bit := pathUp s Config.nodeCap i

/-- CODE[NODE[i].SYM] <- Path(i), if node i is a leaf (R118). -/
def recordCode (s : State) (code : List (Nat × Code)) (i : Nat) : List (Nat × Code) :=
  let e := nodeRead s (BitVec.ofNat 9 i)
  match e.tag with
  | .leaf => storeWrite code e.sym.toNat (codeOfPath (path s (BitVec.ofNat 9 i)))
  | .internal => code

/-- The CODE table of a complete tree: every leaf in 0 .. NCNT - 1, in order (R118). -/
def buildCode (s : State) : List (Nat × Code) :=
  (List.range s.ncnt.toNat).foldl (recordCode s) s.code

/-- Complete(): make the tree usable (R118). The CODE table exists only when HAS_ENCODER. -/
def complete (s : State) : State :=
  { s with
    tstate := .ready
    code := if s.hasEncoder then buildCode s else s.code
    cur := 0
    dstate := .idle }

/-! ## Alloc (R115) -/

/-- Pop the top slot and link the new node into it (R115). SLOTS is not empty here in any run (R117); where it is,
there is nothing to link (log 6). -/
def linkTop (n : NodeIdx) (s : State) : State :=
  match s.slots with
  | [] => s
  | top :: rest => linkChild top.parent top.side n { s with slots := rest }

/-- What an allocated node adds: a leaf its symbol, an internal node its two slots, the left one on top (R115). DESIGN
CHOICE (log 17): on a stack that already holds 511 or more entries, as in no run (R126), the push grows it past
STACK_CAP. -/
def growTree (tag : Tag) (b : Byte) (n : NodeIdx) (s : State) : State :=
  match tag with
  | .leaf => { markPresent b s with nleaf := s.nleaf + 1 }
  | .internal => { s with slots := ⟨n, false⟩ :: ⟨n, true⟩ :: s.slots }

/-- The entry of a new node; its child fields are unspecified (R115; log 5). -/
def newNode (tag : Tag) (b : Byte) : Node :=
  match tag with
  | .leaf => { tag := .leaf, sym := b, left := none, right := none }
  | .internal => { tag := .internal, sym := 0x00, left := none, right := none }

/-- Write the new node and, unless it is the root, link it into the top slot (R115). -/
def placeNode (tag : Tag) (b : Byte) (n : NodeIdx) (s : State) : State :=
  if s.ncnt = 0 then nodeWrite n (newNode tag b) s
  else linkTop n (nodeWrite n (newNode tag b) s)

/-- NCNT <- n + 1 (R115). -/
def countNode (s : State) : State := { s with ncnt := s.ncnt + 1 }

/-- The index the next node gets: NCNT (R26, R115; log 7). -/
def nextIndex (s : State) : NodeIdx := s.ncnt.setWidth 9

/-- The state after a node is allocated, before Complete is considered (R115). -/
def allocNode (tag : Tag) (b : Byte) (s : State) : State :=
  growTree tag b (nextIndex s) (countNode (placeNode tag b (nextIndex s) s))

/-- Alloc(tag, b): allocate the next node in preorder (R115). -/
def alloc (tag : Tag) (b : Byte) (s : State) : State :=
  if s.ncnt = 511 then raise .treeOverflow s
  else
    let grown := allocNode tag b s
    respondOk (if grown.slots = [] then complete grown else grown)

/-! ## The commands -/

/-- MarkerByte(b): a byte in marker position (R112). -/
def markerByte (b : Byte) (s : State) : State :=
  match markerOf b with
  | some .internal => alloc .internal 0x00 s
  | some .leaf => respondOk { s with lsym := true }
  | none => raise .treeBadMarker s

/-- SymbolByte(b): the byte after a leaf marker, whatever its value (R113, R128). -/
def symbolByte (b : Byte) (s : State) : State :=
  if isPresent s b then raise .treeDupSymbol s
  else alloc .leaf b { s with lsym := false }

/-- TREE_START: begin loading a new tree (R110). NODE and CODE become unspecified (log 4). -/
def execTreeStart (s : State) : Host.Outcome State Fault Refusal :=
  .next (respondOk
    { s with
      tstate := .loading
      nodes := [], ncnt := 0, nleaf := 0, slots := [], lsym := false, present := 0, code := []
      dstate := .idle, cur := 0
      decBitcnt := 0, decSymcnt := 0, encSymcnt := 0, encBitcnt := 0 })

/-- TREE_BYTE b: consume one byte of the serialized stream (R111). -/
def execTreeByte (b : Byte) (s : State) : Host.Outcome State Fault Refusal :=
  if s.tstate ≠ .loading then .next (raise .badState s)
  else if s.lsym then .next (symbolByte b s)
  else .next (markerByte b s)

/-- TREE_END: the host declares the serialized stream finished (R120). -/
def execTreeEnd (s : State) : Host.Outcome State Fault Refusal :=
  match s.tstate with
  | .empty => .next (raise .badState s)
  | .loading => .next (raise .treeTruncated s)
  | .ready => .next (respondOk s)

end Sys2Proof.Machine
end

