-- ==== Sys2Proof/Machine/Dispatch.lean ====
section
/-! DEFINITION. The dispatch of a decoded command to its meaning, one arm per constructor. -/

namespace Sys2Proof.Machine

/-- Perform a command (spec/30_encoding.md R85, R86). -/
def exec (i : Instr) (s : State) : Host.Outcome State Fault Refusal :=
  match i with
  | .nop => Sys2Proof.Machine.execNop s
  | .reset => Sys2Proof.Machine.execReset s
  | .clrErr => Sys2Proof.Machine.execClrErr s
  | .readReg r => Sys2Proof.Machine.execReadReg r s
  | .treeStart => Sys2Proof.Machine.execTreeStart s
  | .treeByte b => Sys2Proof.Machine.execTreeByte b s
  | .treeEnd => Sys2Proof.Machine.execTreeEnd s
  | .decStart => Sys2Proof.Machine.execDecStart s
  | .decBit t => Sys2Proof.Machine.execDecBit t s
  | .decChar c => Sys2Proof.Machine.execDecChar c s
  | .decEnd => Sys2Proof.Machine.execDecEnd s
  | .encSym b => Sys2Proof.Machine.execEncSym b s

end Sys2Proof.Machine
end

