-- ==== Sys2Proof/Machine/Port.lean ====
section
/-! DEFINITION. The command port: performing a presented word, the reset input, and sequences of commands
(spec/00_scope.md R13, R14, spec/70_reset_and_hazards.md R271). -/

namespace Sys2Proof.Machine

/-- Perform one command word: the decoded command, or ILLEGAL_COMMAND for a word no rule assigns (R86, R87). -/
def performWord (w : CmdWord) (s : State) : Host.Outcome State Fault Refusal :=
  match decode s.hasEncoder w with
  | some i => exec i s
  | none => .next (raise .illegalCommand s)

/-- One thing the host does at the port. While RST is asserted the reset procedure runs, and a command presented
meanwhile is not performed and gets no response (R271; log 9). -/
def performInput (e : Input) (s : State) : Host.Outcome State Fault Refusal :=
  match e with
  | .command w => performWord w s
  | .rst _ => .next (resetProcedure s)

/-- Perform command words one after another (R14, R72). -/
def runWords : List CmdWord → State → Host.Outcome State Fault Refusal
  | [], s => .next s
  | w :: ws, s =>
    match performWord w s with
    | .next t => runWords ws t
    | .fault r => .fault r
    | .refused r => .refused r

/-- Perform commands one after another (R72). -/
def runInstrs : List Instr → State → Host.Outcome State Fault Refusal
  | [], s => .next s
  | i :: is, s =>
    match exec i s with
    | .next t => runInstrs is t
    | .fault r => .fault r
    | .refused r => .refused r

end Sys2Proof.Machine
end

