-- ==== Sys2Proof/Machine/Step.lean ====
section
/-! DEFINITION. One step of the machine: the next thing the host does at the port (spec/00_scope.md R12, R13). -/

namespace Sys2Proof.Machine

/-- One step: take the oldest input and perform it. With nothing presented the block is idle and holds all its state
(spec/60_exceptions.md R256; log 1). -/
def step (s : State) : Host.Outcome State Fault Refusal :=
  match s.inputs with
  | [] => .next s
  | e :: rest => performInput e { s with inputs := rest }

/-- `s` with one command word as the very next thing the host presents (log 10). -/
def State.withFetchWord (s : State) (nbits w : Nat) : State :=
  { s with inputs := .command (tableWord nbits w) :: s.inputs }

end Sys2Proof.Machine
end

