-- ==== Sys2Proof/Machine/HostReference.lean ====
section
/-! DEFINITION. The host reference functions (spec/48_host_reference.md R210 to R218). The block does not implement
them; they produce what the block consumes, so that the round-trip laws can be stated. -/

namespace Sys2Proof.Machine

/-- A tree without frequencies (R210). -/
inductive Tree where
  | leaf (s : Byte)
  | internal (l r : Tree)
  deriving DecidableEq, Repr

/-- The number of nodes of a tree. -/
def treeSize : Tree → Nat
  | .leaf _ => 1
  | .internal l r => 1 + treeSize l + treeSize r

/-- The symbols of a tree's leaves, from left to right. -/
def treeSymbols : Tree → List Byte
  | .leaf s => [s]
  | .internal l r => treeSymbols l ++ treeSymbols r

/-- The leaves of a tree carry pairwise distinct symbols (R121). -/
abbrev DistinctLeaves (t : Tree) : Prop := (treeSymbols t).Nodup

/-! ## Frequencies (R211) -/

/-- Count one more occurrence of a symbol, keeping first-seen order (R211). -/
def countSymbol : List (Byte × Nat) → Byte → List (Byte × Nat)
  | [], a => [(a, 1)]
  | (b, c) :: rest, a => if b = a then (b, c + 1) :: rest else (b, c) :: countSymbol rest a

/-- Freq(x), the FrequencyTable in order of first appearance (R211). -/
def freq (x : List Byte) : List (Byte × Nat) := x.foldl countSymbol []

/-! ## Build (R213, R214) -/

/-- An entry of Build's priority queue: a node with its frequency, and the rest of its key (R214). -/
structure QEntry where
  node : Tree
  freq : Nat
  tie : Int
  seq : Nat
  deriving DecidableEq, Repr

/-- Keys (freq, tie, seq) compared lexicographically, each component ascending (R214). -/
def keyLt (a b : QEntry) : Bool :=
  a.freq < b.freq || (a.freq = b.freq && (a.tie < b.tie || (a.tie = b.tie && a.seq < b.seq)))

/-- Remove the entry with the least key from `e :: rest` (R214). -/
def removeLeast : QEntry → List QEntry → QEntry × List QEntry
  | e, [] => (e, [])
  | e, a :: rest =>
    if keyLt a e then ((removeLeast a rest).1, e :: (removeLeast a rest).2)
    else ((removeLeast e rest).1, a :: (removeLeast e rest).2)

/-- The queue of leaves, numbered in table order from `seq`; a leaf's tie key is its symbol value (R214). -/
def leafEntries : List (Byte × Nat) → Nat → List QEntry
  | [], _ => []
  | (s, c) :: rest, seq => ⟨.leaf s, c, s.toNat, seq⟩ :: leafEntries rest (seq + 1)

/-- Combine the two least entries until one is left; `fuel` bounds the rounds, one less than the entries (R214). -/
def combine (sentinelKey : Int) : Nat → List QEntry → Nat → Option Tree
  | _, [], _ => none
  | _, [e], _ => some e.node
  | 0, _ :: _ :: _, _ => none
  | fuel + 1, e :: f :: rest, seq =>
    let (l, q) := removeLeast e (f :: rest)
    match q with
    | [] => some l.node
    | g :: q' =>
      let (r, q'') := removeLeast g q'
      combine sentinelKey fuel (⟨.internal l.node r.node, l.freq + r.freq, sentinelKey, seq⟩ :: q'') (seq + 1)

/-- Build(ft): no tree for an empty table, the single leaf for one entry, else the combined tree (R213, R214).
SENTINEL_KEY is an open parameter (R5, D28). -/
def build (sentinelKey : Int) (ft : List (Byte × Nat)) : Option Tree :=
  combine sentinelKey ft.length (leafEntries ft 0) ft.length

/-! ## Codes, Serialize, Compress (R215 to R217) -/

/-- Walk(T, p) (R215). -/
def walkCodes : Tree → List Bit → List (Byte × List Bit)
  | .leaf s, p => [(s, p)]
  | .internal l r, p => walkCodes l (p ++ [false]) ++ walkCodes r (p ++ [true])

/-- Codes(T): (symbol, code) by depth-first traversal (R215). -/
def codes (t : Tree) : List (Byte × List Bit) := walkCodes t []

/-- The code of a symbol in Codes(T); empty where T has no such leaf. -/
def codeIn (t : Tree) (s : Byte) : List Bit := ((codes t).lookup s).getD []

/-- The bits that stand for one occurrence of a symbol: one 0 bit on the single-leaf tree, else its code (R142,
R217). -/
def payloadCode (t : Tree) (s : Byte) : List Bit :=
  match t with
  | .leaf _ => [false]
  | .internal _ _ => codeIn t s

/-- Serialize(T): the byte stream of the serialized-tree format (R216). -/
def serialize : Tree → List Byte
  | .leaf s => [0x31, s]
  | .internal l r => 0x30 :: (serialize l ++ serialize r)

/-- The payload bits of an input on a tree (R217). -/
def payload (t : Tree) (x : List Byte) : List Bit := x.flatMap (payloadCode t)

/-- Compress(x): the payload bits and the tree (R217). -/
def compress (sentinelKey : Int) (x : List Byte) : List Bit × Option Tree :=
  match build sentinelKey (freq x) with
  | none => ([], none)
  | some t => (payload t x, some t)

/-! ## Decompress through the block (R218) -/

/-- The commands of `LOAD_TREE s` (R97). -/
def loadTreeCmds (bytes : List Byte) : List Instr :=
  .treeStart :: (bytes.map .treeByte ++ [.treeEnd])

/-- The commands of `DECODE_BITS t0 t1 ... tn` (R98). -/
def decodeBitsCmds (bits : List Bit) : List Instr :=
  .decStart :: (bits.map .decBit ++ [.decEnd])

/-- The commands of `DECODE s` (R98). -/
def decodeCharsCmds (chars : List Byte) : List Instr :=
  .decStart :: (chars.map .decChar ++ [.decEnd])

/-- The commands of `ENCODE s` (R99). -/
def encodeCmds (bytes : List Byte) : List Instr := bytes.map .encSym

/-- The symbols of the responses with SV = 1, in order (R218). -/
def emitted (rs : List Response) : List Byte :=
  (rs.filter (·.sv)).map (·.sym)

/-- What the host reads off the responses: the symbols if every response is OK, else failure (R218). -/
def hostResult (rs : List Response) : Option (List Byte) :=
  if rs.all (fun r => r.status = .ok) then some (emitted rs) else none

/-- Decompress(bits, T) through the block in state `s`; `none` is the host's failure report (R218). -/
def decompress (bits : List Bit) (t : Option Tree) (s : State) : Option (List Byte) :=
  match t with
  | none => if bits = [] then some [] else none
  | some t =>
    match runInstrs (loadTreeCmds (serialize t) ++ decodeBitsCmds bits) s with
    | .next u => hostResult (u.rsps.drop s.rsps.length)
    | .fault _ => none
    | .refused _ => none

end Sys2Proof.Machine
end

