-- ==== Sys2Proof/Safety.lean ====
section
/-! DEFINITION. The terms claims are stated in: how NODE holds a tree in preorder, complete or being loaded
(spec/41_tree_load.md R115 to R124), Path (R119), the invariant of the reachable states (spec/10_state.md R48, R49),
and when two states differ in unspecified cells only (spec/20_memory.md R75). -/

namespace Sys2Proof.Machine

/-! ## A complete tree in node memory -/

/-- NODE holds the tree in preorder from index `i` on: a leaf is its entry; an internal node's left child is the next
entry, and its right child follows the left subtree (R121, R122). -/
def holdsAt (nodes : List (Nat × Node)) : Nat → Tree → Prop
  | i, .leaf s => storeRead nodes i = some ⟨.leaf, s, none, none⟩
  | i, .internal l r =>
    storeRead nodes i =
        some ⟨.internal, 0x00, some (BitVec.ofNat 9 (i + 1)), some (BitVec.ofNat 9 (i + 1 + treeSize l))⟩ ∧
      holdsAt nodes (i + 1) l ∧ holdsAt nodes (i + 1 + treeSize l) r

/-- Path(i) as R119 gives it: the root has the empty path, and a child has its parent's path and one more bit. -/
inductive IsPath (s : State) : NodeIdx → List Bit → Prop where
  | root : IsPath s 0 []
  | left {p i : NodeIdx} {q : List Bit} {e : Node} (hp : p.toNat < s.ncnt.toNat)
      (he : storeRead s.nodes p.toNat = some e) (ht : e.tag = .internal) (hi : i ≠ 0) (hc : e.left = some i)
      (hq : IsPath s p q) : IsPath s i (q ++ [false])
  | right {p i : NodeIdx} {q : List Bit} {e : Node} (hp : p.toNat < s.ncnt.toNat)
      (he : storeRead s.nodes p.toNat = some e) (ht : e.tag = .internal) (hi : i ≠ 0) (hc : e.right = some i)
      (hq : IsPath s p q) : IsPath s i (q ++ [true])

/-- size(i) of R122: the number of nodes in the subtree rooted at node i. -/
inductive SubtreeSize (s : State) : NodeIdx → Nat → Prop where
  | leaf {i : NodeIdx} {e : Node} (he : storeRead s.nodes i.toNat = some e) (ht : e.tag = .leaf) : SubtreeSize s i 1
  | internal {i l r : NodeIdx} {m n : Nat} {e : Node} (he : storeRead s.nodes i.toNat = some e)
      (ht : e.tag = .internal) (hl : e.left = some l) (hr : e.right = some r) (hm : SubtreeSize s l m)
      (hn : SubtreeSize s r n) : SubtreeSize s i (1 + m + n)

/-! ## A tree being loaded -/

/-- The shape of a tree that is not complete yet, from its root: the internal node just allocated, or one whose left
child is not complete yet, or whose left subtree is complete and whose right child is due, or is not complete yet
(R115, R116). -/
inductive Partial where
  | fresh
  | inLeft (p : Partial)
  | atRight (l : Tree)
  | inRight (l : Tree) (p : Partial)
  deriving DecidableEq, Repr

/-- The number of nodes allocated so far. -/
def partialSize : Partial → Nat
  | .fresh => 1
  | .inLeft p => 1 + partialSize p
  | .atRight l => 1 + treeSize l
  | .inRight l p => 1 + treeSize l + partialSize p

/-- The symbols of the leaves allocated so far, in stream order. -/
def partialSymbols : Partial → List Byte
  | .fresh => []
  | .inLeft p => partialSymbols p
  | .atRight l => treeSymbols l
  | .inRight l p => treeSymbols l ++ partialSymbols p

/-- The pending slots of the subtree whose root has index `i`, the top one first (R28, R116). -/
def partialSlots : Nat → Partial → List Slot
  | i, .fresh => [⟨BitVec.ofNat 9 i, false⟩, ⟨BitVec.ofNat 9 i, true⟩]
  | i, .inLeft p => partialSlots (i + 1) p ++ [⟨BitVec.ofNat 9 i, true⟩]
  | i, .atRight _ => [⟨BitVec.ofNat 9 i, true⟩]
  | i, .inRight l p => partialSlots (i + 1 + treeSize l) p

/-- NODE holds the incomplete tree from index `i` on; a child field whose slot is pending is unspecified (R25). -/
def partialHolds (nodes : List (Nat × Node)) : Nat → Partial → Prop
  | i, .fresh => storeRead nodes i = some ⟨.internal, 0x00, none, none⟩
  | i, .inLeft p =>
    storeRead nodes i = some ⟨.internal, 0x00, some (BitVec.ofNat 9 (i + 1)), none⟩ ∧ partialHolds nodes (i + 1) p
  | i, .atRight l =>
    storeRead nodes i = some ⟨.internal, 0x00, some (BitVec.ofNat 9 (i + 1)), none⟩ ∧ holdsAt nodes (i + 1) l
  | i, .inRight l p =>
    storeRead nodes i =
        some ⟨.internal, 0x00, some (BitVec.ofNat 9 (i + 1)), some (BitVec.ofNat 9 (i + 1 + treeSize l))⟩ ∧
      holdsAt nodes (i + 1) l ∧ partialHolds nodes (i + 1 + treeSize l) p

/-- The bytes of the stream that have allocated an incomplete tree (R121). -/
def partialBytes : Partial → List Byte
  | .fresh => [0x30]
  | .inLeft p => 0x30 :: partialBytes p
  | .atRight l => 0x30 :: serialize l
  | .inRight l p => 0x30 :: (serialize l ++ partialBytes p)

/-! ## The invariant of the reachable states (R48, R49) -/

/-- NCNT, NLEAF and PRESENT count and mark these leaf symbols, which are pairwise distinct. -/
structure CountsLeaves (s : State) (size : Nat) (symbols : List Byte) : Prop where
  ncnt : s.ncnt.toNat = size
  nleaf : s.nleaf.toNat = symbols.length
  distinct : symbols.Nodup
  present : ∀ b : Byte, isPresent s b = true ↔ b ∈ symbols

/-- A partial tree is being loaded (R115, R117). -/
structure LoadsPartial (s : State) (p : Partial) : Prop where
  holds : partialHolds s.nodes 0 p
  slots : s.slots = partialSlots 0 p
  counts : CountsLeaves s (partialSize p) (partialSymbols p)
  small : partialSize p ≤ Config.nodeCap

/-- A complete tree is held, and CODE holds its codes if there is an encoder (R49, R31). -/
structure HoldsTree (s : State) (t : Tree) : Prop where
  holds : holdsAt s.nodes 0 t
  counts : CountsLeaves s (treeSize t) (treeSymbols t)
  code : s.hasEncoder = true →
    ∀ b ∈ treeSymbols t, storeRead s.code b.toNat = some (codeOfPath (codeIn t b))

/-- Where the decoder stands: at the root in IDLE; in RUN and HALTED at an internal node of the tree, or at the root of
the single-leaf tree (R49, R168). -/
def sessionOk (s : State) : Prop :=
  (s.dstate = .idle → s.cur = 0) ∧
    (s.dstate ≠ .idle →
      (s.cur = 0 ∧ degen s = true) ∨ (s.cur.toNat < s.ncnt.toNat ∧ (nodeRead s s.cur).tag = .internal))

/-- Nothing of a tree is held (R48). -/
structure NoNodes (s : State) : Prop where
  ncnt : s.ncnt = 0
  nleaf : s.nleaf = 0
  slots : s.slots = []
  present : s.present = 0

/-- No session is open and no event is counted, as in every reachable state that is not READY (R48, R114). -/
structure NoSession (s : State) : Prop where
  dstate : s.dstate = .idle
  cur : s.cur = 0
  decBitcnt : s.decBitcnt = 0
  decSymcnt : s.decSymcnt = 0
  encSymcnt : s.encSymcnt = 0
  encBitcnt : s.encBitcnt = 0
  code : s.code = []

/-- The tree side of the invariant, by TSTATE (R48, R49). -/
def treeOk (s : State) : Prop :=
  match s.tstate with
  | .empty => NoNodes s ∧ s.lsym = false ∧ NoSession s
  | .loading => (NoNodes s ∨ ∃ p, LoadsPartial s p) ∧ NoSession s
  | .ready => (∃ t, HoldsTree s t) ∧ s.slots = [] ∧ s.lsym = false ∧ sessionOk s

/-- The invariant: it holds at reset and every step keeps it. -/
structure Inv (s : State) : Prop where
  /-- NODE lists exactly the entries below NCNT, in order (R25, R26). -/
  nodes : s.nodes.map Prod.fst = List.range s.ncnt.toNat
  /-- CODE is in canonical form. -/
  code : storeWf s.code = true
  /-- Without the encoder, CODE and the ENC counters are absent (R6). -/
  noEncoder : s.hasEncoder = false → s.code = [] ∧ s.encSymcnt = 0 ∧ s.encBitcnt = 0
  /-- ERR_FIRST and ERR_LAST hold status codes, and are 0x00 together (R38). -/
  err : (∃ e, s.errFirst = statusCode e) ∧ (∃ e, s.errLast = statusCode e) ∧ (s.errFirst = 0x00 ↔ s.errLast = 0x00)
  /-- The tree side (R48, R49). -/
  tree : treeOk s

/-! ## Unspecified cells (R75) -/

/-- Two entries agree on what is specified of the first: TAG and SYM, and each child field of an internal node unless
its slot is pending (R25; 93_implementation_defined.md U2). -/
def nodesAgree (e f : Node) : Prop :=
  e.tag = f.tag ∧ e.sym = f.sym ∧
    (e.tag = .internal → (e.left = none ∨ e.left = f.left) ∧ (e.right = none ∨ e.right = f.right))

/-- Two states agree on every cell specified in the first. They are equal but for NODE entries at or above NCNT, child
fields that are pending or in a leaf, and CODE entries of symbols that are not present, while no tree is READY, or
without the encoder (R25, R31; 93_implementation_defined.md U1 to U4). -/
structure AgreeOnSpecified (s t : State) : Prop where
  rest : { s with nodes := t.nodes, code := t.code } = t
  canonical : storeWf t.nodes = true
  nodes : ∀ i, i < s.ncnt.toNat → ∀ e, storeRead s.nodes i = some e →
    ∃ f, storeRead t.nodes i = some f ∧ nodesAgree e f
  code : s.hasEncoder = true → s.tstate = .ready → ∀ b : Byte, isPresent s b = true →
    storeRead s.code b.toNat = storeRead t.code b.toNat

/-! ## What commands answer -/

/-- The state with one more response. -/
abbrev answered (s : State) (r : Response) : State := { s with rsps := s.rsps ++ [r] }

/-- The state after a status of class None: only ERR and the responses differ (R242, R243). -/
abbrev reported (e : Status) (s : State) : State :=
  { s with
    errLast := statusCode e
    errFirst := if s.errFirst = 0x00 then statusCode e else s.errFirst
    rsps := s.rsps ++ [{ status := e }] }

/-- The tree elements cleared and the session closed, as Discard does (R114); NODE and CODE are left to `t`. -/
abbrev discardedInto (s t : State) : State :=
  { s with
    tstate := .empty, ncnt := 0, nleaf := 0, slots := [], lsym := false, present := 0, dstate := .idle, cur := 0
    nodes := t.nodes, code := t.code }

/-- The entries of NODE after a node is allocated (R115): the new entry at NCNT, the top slot's child field holding its
index, and every other entry as before. -/
def NodeAllocated (s t : State) (e : Node) : Prop :=
  ∀ k, storeRead t.nodes k =
    if k = s.ncnt.toNat then some e
    else match s.slots with
      | [] => storeRead s.nodes k
      | top :: _ =>
        if k = top.parent.toNat then
          (storeRead s.nodes k).map fun p =>
            if top.side then { p with right := some (BitVec.ofNat 9 s.ncnt.toNat) }
            else { p with left := some (BitVec.ofNat 9 s.ncnt.toNat) }
        else storeRead s.nodes k

/-- The responses that `t` holds and `s` does not. -/
abbrev newResponses (s t : State) : List Response := t.rsps.drop s.rsps.length

/-- The bits of an ENC_SYM response: CBITS[0 .. CLEN - 1] (R65). -/
abbrev responseBits (r : Response) : List Bit := unpackBits r.clen.toNat r.cbits

end Sys2Proof.Machine
end

