-- ==== Sys2Proof/Certificates/Slice0/Obligations.lean ====
section
/-! DEFINITION. The statements for the provers, each about the machine for all states and operands, with the rule of
spec/ it formalises in its docstring. -/

open Sys2Proof Sys2Proof.Machine

/-! ## Encodings -/

/-- R85, R86: decoding the word of a command of the build gives the command back, every operand at every value. -/
def Obligations.DecodeOfEncodedCommand : Prop :=
  ∀ (enc : Bool) (i : Instr), i.wf enc = true → decode enc (encode i) = some i

/-- R85, R86, R87: a word decodes to a command only if it is that command's word and the build has the command. -/
def Obligations.DecodeReadsOnlyTheWordOfTheCommand : Prop :=
  ∀ (enc : Bool) (w : CmdWord) (i : Instr), decode enc w = some i → encode i = w ∧ i.wf enc = true

/-- R92: the words that do not decode are exactly those with an unassigned opcode, a format-N opcode with ARG ≠ 0, or
DEC_BIT with ARG[7:1] ≠ 0; 244 opcode values are unassigned, or 245 without the encoder. -/
def Obligations.UndecodableWordsAreTheReservedOnes : Prop :=
  let assigned (enc : Bool) : List Byte :=
    [0x00, 0x01, 0x02, 0x03, 0x10, 0x11, 0x12, 0x20, 0x21, 0x22, 0x23] ++ (if enc then [0x30] else [])
  (∀ (enc : Bool) (op arg : Byte), decode enc (mkWord op arg) = none ↔
    (op ∉ assigned enc ∨
      (op ∈ ([0x00, 0x01, 0x02, 0x10, 0x12, 0x20, 0x23] : List Byte) ∧ arg ≠ 0x00) ∨
      (op = 0x21 ∧ 2 ≤ arg.toNat))) ∧
  (∀ enc : Bool, ((List.range 256).filter fun n => BitVec.ofNat 8 n ∉ assigned enc).length =
    if enc then 244 else 245)

/-- R85: words written out from the opcode map, one for each of the four formats and each family, decode to the
commands they stand for. -/
def Obligations.OpcodeMapWordsDecode : Prop :=
  decode true 0x0000 = some .nop ∧ decode true 0x0306 = some (.readReg 0x06) ∧
    decode true 0x1000 = some .treeStart ∧ decode true 0x1141 = some (.treeByte 0x41) ∧
    decode true 0x2101 = some (.decBit true) ∧ decode true 0x2230 = some (.decChar 0x30) ∧
    decode true 0x3042 = some (.encSym 0x42) ∧ decode true 0x2102 = none ∧ decode true 0x1001 = none ∧
    decode false 0x3042 = none

/-- R90: the packed response word has each field at its place, CBITS[k] at RSP[64 + k], and 0 in [15:9]. -/
def Obligations.PackedResponseLayout : Prop :=
  ∀ r : Response,
    (packResponse r).extractLsb' 0 8 = statusCode r.status ∧ (packResponse r).getLsbD 8 = r.sv ∧
      (packResponse r).extractLsb' 9 7 = 0 ∧ (packResponse r).extractLsb' 16 8 = r.sym ∧
      (packResponse r).extractLsb' 24 8 = r.clen ∧ (packResponse r).extractLsb' 32 32 = r.data ∧
      ∀ k, k < 256 → (packResponse r).getLsbD (64 + k) = r.cbits.getLsbD k

/-! ## The port -/

/-- R13, R72: when the presented word decodes to a command, a step performs exactly that command on the state with the
word taken off the host's list. That the host's words stand in a list of State is the model's choice (log 1). The second
clause is the model's choice too (log 10, DESIGN CHOICE), no rule of the spec: `withFetchWord` presents the word that the
very next step performs. -/
def Obligations.StepPerformsTheDecodedCommand : Prop :=
  (∀ (s : State) (w : CmdWord) (rest : List Input) (i : Instr), s.inputs = .command w :: rest →
    decode s.hasEncoder w = some i → step s = exec i { s with inputs := rest }) ∧
  (∀ (s : State) (w : CmdWord) (i : Instr), decode s.hasEncoder w = some i →
    step (s.withFetchWord 16 w.toNat) = exec i s)

/-- R86: a presented word that does not decode answers ILLEGAL_COMMAND and changes nothing but ERR_FIRST and
ERR_LAST, before every other check. -/
def Obligations.IllegalWordChangesOnlyErr : Prop :=
  ∀ (s : State) (w : CmdWord) (rest : List Input), s.inputs = .command w :: rest →
    decode s.hasEncoder w = none →
    step s = .next (reported .illegalCommand { s with inputs := rest })

/-- R271, R256: while RST is asserted the reset procedure runs, with the effect of the RESET command but for its
response: a command presented meanwhile is not performed and gets no response. With nothing presented the block holds
all its state; that a step is taken then at all is the model's choice (log 1). -/
def Obligations.ResetInputAndIdlePort : Prop :=
  (∀ (s : State) (presented : Option CmdWord) (rest : List Input), s.inputs = .rst presented :: rest →
    ∃ t, step s = .next t ∧ t.rsps = s.rsps ∧ t.inputs = rest ∧
      exec .reset { s with inputs := rest } = .next (answered t { status := .ok })) ∧
  ∀ s : State, s.inputs = [] → step s = .next s

/-- R13, R14, R240: in every state every command word is performed, with exactly one response; the build option and
what the host will present next are not touched. The second clause, that every step answers a next state, rests on the
model's choice for the idle step (log 1, DESIGN CHOICE), for which no rule gives a step: with nothing presented a step is
taken and changes nothing. It says that no step faults or is refused, not that every step answers a response. -/
def Obligations.EveryWordGetsOneResponse : Prop :=
  (∀ (w : CmdWord) (s : State), ∃ t r, performWord w s = .next t ∧ t.rsps = s.rsps ++ [r] ∧
    t.inputs = s.inputs ∧ t.hasEncoder = s.hasEncoder) ∧
  ∀ s : State, ∃ t, step s = .next t

/-- R72, R86: performing the words of commands of the build is performing the commands, one after another. -/
def Obligations.WordsOfCommandsRunAsTheCommands : Prop :=
  ∀ (is : List Instr) (s : State), (∀ i ∈ is, i.wf s.hasEncoder = true) →
    runWords (is.map encode) s = runInstrs is s

/-! ## System commands -/

/-- R190: NOP answers `ok` and changes nothing. -/
def Obligations.NopChangesNothing : Prop :=
  ∀ s : State, exec .nop s = .next (answered s { status := .ok })

/-- R191, R270: RESET sets every specified element to its reset value and answers `ok`. -/
def Obligations.ResetSetsEveryElement : Prop :=
  ∀ s : State, ∃ t, exec .reset s = .next t ∧ t.tstate = .empty ∧ t.ncnt = 0 ∧ t.nleaf = 0 ∧ t.slots = [] ∧
    t.lsym = false ∧ t.present = 0 ∧ t.dstate = .idle ∧ t.cur = 0 ∧ t.decBitcnt = 0 ∧ t.decSymcnt = 0 ∧
    t.encSymcnt = 0 ∧ t.encBitcnt = 0 ∧ t.errFirst = 0x00 ∧ t.errLast = 0x00 ∧
    t.rsps = s.rsps ++ [{ status := .ok }] ∧ t.inputs = s.inputs ∧ t.hasEncoder = s.hasEncoder

/-- R192: CLR_ERR clears ERR_FIRST and ERR_LAST and nothing else. -/
def Obligations.ClrErrClearsOnlyErr : Prop :=
  ∀ s : State, exec .clrErr s =
    .next (answered { s with errFirst := 0x00, errLast := 0x00 } { status := .ok })

/-- R193, R40, R41, R43 to R46: READ_REG of every assigned index but STATUS answers the register's value and changes no
state. That SDEPTH reads as the uncut number of entries where SLOTS holds more than 512, as in no run, is the model's
choice (log 17, DESIGN CHOICE). -/
def Obligations.ReadRegAnswersTheRegisterMap : Prop :=
  ∀ (s : State) (p : Byte × Word32),
    p ∈ ([(0x00, 0x48544431), (0x02, s.ncnt.setWidth 32), (0x03, s.nleaf.setWidth 32), (0x04, s.cur.setWidth 32),
      (0x05, BitVec.ofNat 32 s.slots.length), (0x06, (s.errLast.setWidth 32 <<< 8) ||| s.errFirst.setWidth 32),
      (0x07, s.decBitcnt), (0x08, s.decSymcnt), (0x09, if s.hasEncoder then s.encSymcnt else 0),
      (0x0A, if s.hasEncoder then s.encBitcnt else 0), (0x0B, 0x0001FF08)] : List (Byte × Word32)) →
    exec (.readReg p.1) s = .next (answered s { status := .ok, data := p.2 })

/-- R42: READ_REG of STATUS answers its fields at their bits, and 0 in [31:8]; no state changes. -/
def Obligations.StatusRegisterFields : Prop :=
  ∀ s : State, ∃ d : Word32, exec (.readReg 0x01) s = .next (answered s { status := .ok, data := d }) ∧
    d.extractLsb' 0 2 = (match s.tstate with | .empty => 0 | .loading => 1 | .ready => 2) ∧
    d.extractLsb' 2 2 = (match s.dstate with | .idle => 0 | .run => 1 | .halted => 2) ∧
    (d.getLsbD 4 = true ↔ s.tstate = .ready ∧ s.ncnt = 1) ∧
    (d.getLsbD 5 = true ↔ s.dstate = .run ∧ s.cur ≠ 0) ∧
    d.getLsbD 6 = s.lsym ∧ d.getLsbD 7 = s.hasEncoder ∧ d.extractLsb' 8 24 = 0

/-- R194: READ_REG of an unassigned index, 0x0C to 0xFF, answers BAD_REGISTER and changes only ERR. -/
def Obligations.BadRegisterChangesOnlyErr : Prop :=
  ∀ (s : State) (r : Byte), 0x0C ≤ r.toNat → exec (.readReg r) s = .next (reported .badRegister s)

/-- R47: after reset the registers read as the spec lists, in both builds. -/
def Obligations.RegistersReadAfterReset : Prop :=
  ∀ (enc : Bool) (r : Byte), r.toNat < 0x0C →
    exec (.readReg r) (State.resetOf enc) = .next (answered (State.resetOf enc) { status := .ok, data :=
      if r = 0x00 then 0x48544431
      else if r = 0x01 then (if enc then 0x00000080 else 0x00000000)
      else if r = 0x0B then 0x0001FF08
      else 0 })

/-! ## The tree loader -/

/-- R110: TREE_START begins loading in every state: the tree, the session and all four counters are cleared, and ERR is
unchanged. -/
def Obligations.TreeStartClearsTreeSessionAndCounters : Prop :=
  ∀ s : State, ∃ t, exec .treeStart s = .next t ∧
    t = { s with
          tstate := .loading, ncnt := 0, nleaf := 0, slots := [], lsym := false, present := 0, dstate := .idle,
          cur := 0, decBitcnt := 0, decSymcnt := 0, encSymcnt := 0, encBitcnt := 0,
          rsps := s.rsps ++ [{ status := .ok }], nodes := t.nodes, code := t.code }

/-- R111: TREE_BYTE outside LOADING answers BAD_STATE and keeps the tree. -/
def Obligations.TreeByteOutsideLoadingIsBadState : Prop :=
  ∀ (s : State) (b : Byte), s.tstate ≠ .loading → exec (.treeByte b) s = .next (reported .badState s)

/-- R112: in marker position 0x31 sets LSYM, and nothing else changes. -/
def Obligations.LeafMarkerSetsLsym : Prop :=
  ∀ s : State, s.tstate = .loading → s.lsym = false →
    exec (.treeByte 0x31) s = .next (answered { s with lsym := true } { status := .ok })

/-- R112, R113, R115, R114: TREE_BYTE's errors in LOADING run Discard. In marker position a byte that is neither 0x30 nor
0x31 answers TREE_BAD_MARKER. In symbol position a symbol already PRESENT answers TREE_DUP_SYMBOL, also when node memory
is full. An allocation with 511 nodes allocated answers TREE_OVERFLOW, for an internal node and for a leaf. -/
def Obligations.LoaderErrorsRunDiscard : Prop :=
  ∀ (s : State) (b : Byte), s.tstate = .loading →
    (s.lsym = false → b ≠ 0x30 → b ≠ 0x31 →
      ∃ t, exec (.treeByte b) s = .next t ∧ t = reported .treeBadMarker (discardedInto s t)) ∧
    (s.lsym = true → isPresent s b = true →
      ∃ t, exec (.treeByte b) s = .next t ∧ t = reported .treeDupSymbol (discardedInto s t)) ∧
    (s.ncnt = 511 → (s.lsym = false ∧ b = 0x30) ∨ (s.lsym = true ∧ isPresent s b = false) →
      ∃ t, exec (.treeByte b) s = .next t ∧ t = reported .treeOverflow (discardedInto s t))

/-- R112, R115: in marker position 0x30 allocates an internal node: its entry and the link to it, NCNT one more, its two
slots in place of the one it filled, the left one on top; nothing else changes. -/
def Obligations.InternalMarkerAllocatesAnInternalNode : Prop :=
  ∀ s : State, Inv s → s.tstate = .loading → s.lsym = false → s.ncnt ≠ 511 →
    ∃ t, exec (.treeByte 0x30) s = .next t ∧
      t = { s with
            nodes := t.nodes, ncnt := s.ncnt + 1,
            slots := ⟨BitVec.ofNat 9 s.ncnt.toNat, false⟩ :: ⟨BitVec.ofNat 9 s.ncnt.toNat, true⟩ :: s.slots.tail,
            rsps := s.rsps ++ [{ status := .ok }] } ∧
      NodeAllocated s t ⟨.internal, 0x00, none, none⟩

/-- R113, R115: a new symbol while other slots stay pending allocates a leaf: its entry and the link to it, NCNT and
NLEAF one more, PRESENT of its symbol set, the top slot popped, LSYM cleared; nothing else changes. -/
def Obligations.SymbolByteAllocatesALeaf : Prop :=
  ∀ (s : State) (b : Byte), Inv s → s.tstate = .loading → s.lsym = true → isPresent s b = false → s.ncnt ≠ 511 →
    2 ≤ s.slots.length →
    ∃ t, exec (.treeByte b) s = .next t ∧
      t = { s with
            nodes := t.nodes, present := t.present, ncnt := s.ncnt + 1, nleaf := s.nleaf + 1, lsym := false,
            slots := s.slots.tail, rsps := s.rsps ++ [{ status := .ok }] } ∧
      (∀ a : Byte, isPresent t a = true ↔ isPresent s a = true ∨ a = b) ∧
      NodeAllocated s t ⟨.leaf, b, none, none⟩

/-- R115, R117, R118: a new symbol that fills the last slot, or is the first node of the stream, completes the tree:
TSTATE is READY, the decoder stands IDLE at the root, and with the encoder CODE holds each leaf's path as its length and
its bits in emission order. -/
def Obligations.LastLeafCompletesTheTree : Prop :=
  ∀ (s : State) (b : Byte), Inv s → s.tstate = .loading → s.lsym = true → isPresent s b = false → s.ncnt ≠ 511 →
    s.slots.length ≤ 1 →
    ∃ t, exec (.treeByte b) s = .next t ∧
      t = { s with
            tstate := .ready, nodes := t.nodes, present := t.present, code := t.code, ncnt := s.ncnt + 1,
            nleaf := s.nleaf + 1, lsym := false, slots := [], dstate := .idle, cur := 0,
            rsps := s.rsps ++ [{ status := .ok }] } ∧
      (∀ a : Byte, isPresent t a = true ↔ isPresent s a = true ∨ a = b) ∧
      NodeAllocated s t ⟨.leaf, b, none, none⟩ ∧
      (t.hasEncoder = true → ∀ (i : NodeIdx) (e : Node), storeRead t.nodes i.toNat = some e → e.tag = .leaf →
        ∃ (q : List Bit) (c : Code), IsPath t i q ∧ storeRead t.code e.sym.toNat = some c ∧
          c.clen.toNat = q.length ∧ ∀ k, c.cbits.getLsbD k = q.getD k false)

/-- R120: TREE_END answers BAD_STATE in EMPTY, TREE_TRUNCATED with Discard in LOADING, and `ok` in READY, where nothing
changes. -/
def Obligations.TreeEndByTreeState : Prop :=
  ∀ s : State,
    (s.tstate = .empty → exec .treeEnd s = .next (reported .badState s)) ∧
    (s.tstate = .loading → ∃ t, exec .treeEnd s = .next t ∧ t = reported .treeTruncated (discardedInto s t)) ∧
    (s.tstate = .ready → exec .treeEnd s = .next (answered s { status := .ok }))

/-- R117, R123, R126, R127: while a tree is loading, SDEPTH = NCNT - 2·NLEAF + 1 once a node is allocated, so a slot is
pending and at most 512 are; with no node allocated none is. -/
def Obligations.PendingSlotsCountTheMissingNodes : Prop :=
  ∀ s : State, Inv s → s.tstate = .loading →
    (1 ≤ s.ncnt.toNat → s.slots.length + 2 * s.nleaf.toNat = s.ncnt.toNat + 1 ∧ 1 ≤ s.slots.length) ∧
    (s.ncnt.toNat = 0 → s.slots = []) ∧ s.slots.length ≤ 512 ∧ s.ncnt.toNat ≤ 511

/-! ## The encoder -/

/-- R140, R65: on a tree that is not degenerate ENC_SYM answers the CODE entry of a present symbol: its length, its bits
in emission order and 0 above, and counts one symbol and that many bits; nothing else changes. -/
def Obligations.EncSymAnswersTheCodeEntry : Prop :=
  ∀ (s : State) (b : Byte) (c : Code), s.hasEncoder = true → s.tstate = .ready → isPresent s b = true →
    s.ncnt ≠ 1 → storeRead s.code b.toNat = some c →
    ∃ v : BitVec 256, (∀ k, v.getLsbD k = (decide (k < c.clen.toNat) && c.cbits.getLsbD k)) ∧
      exec (.encSym b) s = .next (answered
        { s with encSymcnt := s.encSymcnt + 1, encBitcnt := s.encBitcnt + c.clen.setWidth 32 }
        { status := .ok, clen := c.clen, cbits := v })

/-- R142: on the single-leaf tree ENC_SYM of the leaf's symbol answers the one bit 0. -/
def Obligations.EncSymOnTheSingleLeafTree : Prop :=
  ∀ (s : State) (b : Byte), s.hasEncoder = true → s.tstate = .ready → isPresent s b = true → s.ncnt = 1 →
    exec (.encSym b) s = .next (answered { s with encSymcnt := s.encSymcnt + 1, encBitcnt := s.encBitcnt + 1 }
      { status := .ok, clen := 1, cbits := 0 })

/-- R140, R144, R87: ENC_SYM's errors in their order, ILLEGAL_COMMAND without the encoder, NO_TREE, UNKNOWN_SYMBOL; each
changes only ERR. -/
def Obligations.EncSymErrorsInOrder : Prop :=
  ∀ (s : State) (b : Byte),
    (s.hasEncoder = false → exec (.encSym b) s = .next (reported .illegalCommand s)) ∧
    (s.hasEncoder = true → s.tstate ≠ .ready → exec (.encSym b) s = .next (reported .noTree s)) ∧
    (s.hasEncoder = true → s.tstate = .ready → isPresent s b = false →
      exec (.encSym b) s = .next (reported .unknownSymbol s))

/-- R143: ENC_SYM neither reads nor writes the decoder's state: changing DSTATE, CUR and the DEC counters beforehand
changes them afterwards in the same way and nothing else, the response among it. -/
def Obligations.EncSymIgnoresTheDecoder : Prop :=
  ∀ (s t : State) (b : Byte) (d : DState) (c : NodeIdx) (x y : Word32), exec (.encSym b) s = .next t →
    exec (.encSym b) { s with dstate := d, cur := c, decBitcnt := x, decSymcnt := y } =
      .next { t with dstate := d, cur := c, decBitcnt := x, decSymcnt := y } ∧
    t.dstate = s.dstate ∧ t.cur = s.cur ∧ t.decBitcnt = s.decBitcnt ∧ t.decSymcnt = s.decSymcnt

/-- R146: every OK response of ENC_SYM has 1 ≤ CLEN ≤ 255, its CBITS are 0 from CLEN on, and so bit 255 is never
used. -/
def Obligations.CodeLengthsAreOneTo255 : Prop :=
  ∀ (s t : State) (b : Byte) (r : Response), Inv s → exec (.encSym b) s = .next t → t.rsps = s.rsps ++ [r] →
    r.status = .ok → 1 ≤ r.clen.toNat ∧ r.clen.toNat ≤ 255 ∧ ∀ k, r.clen.toNat ≤ k → r.cbits.getLsbD k = false

/-- R145, R147: the codes ENC_SYM answers for two distinct symbols are prefix-free, and so distinct. -/
def Obligations.CodesArePrefixFree : Prop :=
  ∀ (s ta tb : State) (a b : Byte) (ra rb : Response), Inv s → a ≠ b →
    exec (.encSym a) s = .next ta → ta.rsps = s.rsps ++ [ra] → ra.status = .ok →
    exec (.encSym b) s = .next tb → tb.rsps = s.rsps ++ [rb] → rb.status = .ok →
    ¬ responseBits ra <+: responseBits rb ∧ responseBits ra ≠ responseBits rb

/-! ## The decoder -/

/-- R160: DEC_START opens a session at the root with the DEC counters at 0 when a tree is READY, in every DSTATE, and
answers NO_TREE otherwise. -/
def Obligations.DecStartOpensASession : Prop :=
  ∀ s : State,
    (s.tstate = .ready → exec .decStart s = .next
      (answered { s with dstate := .run, cur := 0, decBitcnt := 0, decSymcnt := 0 } { status := .ok })) ∧
    (s.tstate ≠ .ready → exec .decStart s = .next (reported .noTree s))

/-- R163, R164, R165, R244, R167: DEC_BIT, DEC_CHAR and DEC_END answer NO_TREE, DECODER_HALTED, BAD_STATE, in that
order, before any value check, whatever the operand; each changes only ERR. -/
def Obligations.DecoderStateChecksComeFirst : Prop :=
  ∀ (s : State) (i : Instr), ((∃ t, i = .decBit t) ∨ (∃ c, i = .decChar c) ∨ i = .decEnd) →
    (s.tstate ≠ .ready → exec i s = .next (reported .noTree s)) ∧
    (s.tstate = .ready → s.dstate = .halted → exec i s = .next (reported .decoderHalted s)) ∧
    (s.tstate = .ready → s.dstate = .idle → exec i s = .next (reported .badState s))

/-- R161, R163, R164: on a tree that is not degenerate a bit, by DEC_BIT or as a character by DEC_CHAR, moves to LEFT or
RIGHT of CUR and counts one bit; at a leaf its symbol is emitted and counted and CUR is the root again, at an internal
node CUR is that node; nothing else changes. -/
def Obligations.BitsWalkTheTree : Prop :=
  ∀ (s : State) (t : Bit) (i : Instr) (e f : Node) (nxt : NodeIdx), s.tstate = .ready → s.dstate = .run →
    s.ncnt ≠ 1 → (i = .decBit t ∨ i = .decChar (if t then 0x31 else 0x30)) →
    storeRead s.nodes s.cur.toNat = some e → (if t then e.right else e.left) = some nxt →
    storeRead s.nodes nxt.toNat = some f →
    exec i s = .next (match f.tag with
      | .leaf => answered { s with cur := 0, decBitcnt := s.decBitcnt + 1, decSymcnt := s.decSymcnt + 1 }
          { status := .ok, sv := true, sym := f.sym }
      | .internal => answered { s with cur := nxt, decBitcnt := s.decBitcnt + 1 } { status := .ok })

/-- R162, R163, R164: on the single-leaf tree a 0 bit, by DEC_BIT or DEC_CHAR, emits the leaf's symbol and CUR stays; a 1
bit answers UNDECODABLE_BIT and halts the session. -/
def Obligations.BitsOnTheSingleLeafTree : Prop :=
  ∀ (s : State) (e : Node), s.tstate = .ready → s.dstate = .run → s.ncnt = 1 → storeRead s.nodes 0 = some e →
    (∀ i : Instr, i = .decBit false ∨ i = .decChar 0x30 →
      exec i s = .next (answered { s with decBitcnt := s.decBitcnt + 1, decSymcnt := s.decSymcnt + 1 }
        { status := .ok, sv := true, sym := e.sym })) ∧
    (∀ i : Instr, i = .decBit true ∨ i = .decChar 0x31 →
      exec i s = .next (reported .undecodableBit { s with dstate := .halted }))

/-- R171, R164: in every state DEC_CHAR 0x30 is DEC_BIT 0 and DEC_CHAR 0x31 is DEC_BIT 1, effect and response. In a
running session any other character answers INVALID_BIT and halts the session; it is not counted. -/
def Obligations.DecCharIsDecBitOrInvalid : Prop :=
  (∀ s : State, exec (.decChar 0x30) s = exec (.decBit false) s ∧ exec (.decChar 0x31) s = exec (.decBit true) s) ∧
  ∀ (s : State) (c : Byte), s.tstate = .ready → s.dstate = .run → c ≠ 0x30 → c ≠ 0x31 →
    exec (.decChar c) s = .next (reported .invalidBit { s with dstate := .halted })

/-- R165: in a running session DEC_END at the root closes it and answers DEC_SYMCNT; mid-code it answers TRUNCATED_CODE
and halts the session with CUR kept. -/
def Obligations.DecEndClosesOrReportsATruncatedCode : Prop :=
  ∀ s : State, s.tstate = .ready → s.dstate = .run →
    (s.cur = 0 → exec .decEnd s = .next
      (answered { s with dstate := .idle } { status := .ok, data := s.decSymcnt })) ∧
    (s.cur ≠ 0 → exec .decEnd s = .next (reported .truncatedCode { s with dstate := .halted }))

/-- R168: in RUN on a tree that is not degenerate CUR is an internal node below NCNT and both its children are valid
nodes, so every bit is answered `ok`. -/
def Obligations.NoWalkLeavesTheTree : Prop :=
  ∀ (s : State) (t : Bit), Inv s → s.tstate = .ready → s.dstate = .run → s.ncnt ≠ 1 →
    (∃ (e f : Node) (nxt : NodeIdx), storeRead s.nodes s.cur.toNat = some e ∧ e.tag = .internal ∧
      (if t then e.right else e.left) = some nxt ∧ nxt.toNat < s.ncnt.toNat ∧ 0 < nxt.toNat ∧
      storeRead s.nodes nxt.toNat = some f) ∧
    ∃ u r, exec (.decBit t) s = .next u ∧ u.rsps = s.rsps ++ [r] ∧ r.status = .ok

/-- R167: with a tree READY, only DEC_START, TREE_START and RESET leave HALTED, and every other command keeps CUR and the
DEC counters. -/
def Obligations.OnlyRestartsLeaveHalted : Prop :=
  ∀ (s t : State) (i : Instr), s.tstate = .ready → s.dstate = .halted → exec i s = .next t →
    i ≠ .decStart → i ≠ .treeStart → i ≠ .reset →
    t.dstate = .halted ∧ t.cur = s.cur ∧ t.decBitcnt = s.decBitcnt ∧ t.decSymcnt = s.decSymcnt

/-- R36, R170: DEC_BIT and DEC_CHAR count a bit exactly when they answer OK and a symbol exactly when they answer SV =
1, modulo 2^32. -/
def Obligations.DecoderCountersCountAcceptedBits : Prop :=
  ∀ (s t : State) (i : Instr) (r : Response), ((∃ x, i = .decBit x) ∨ (∃ c, i = .decChar c)) →
    exec i s = .next t → t.rsps = s.rsps ++ [r] →
    t.decBitcnt = (if r.status = .ok then s.decBitcnt + 1 else s.decBitcnt) ∧
    t.decSymcnt = (if r.sv then s.decSymcnt + 1 else s.decSymcnt)

/-! ## Errors -/

/-- R38, R91, R242: a command word that is answered with a status other than OK records it in ERR_LAST, and in ERR_FIRST
if that held 0x00, and every other field of its response is 0; one that is answered OK leaves both alone, but for RESET
and CLR_ERR (words 0x0100 and 0x0200). -/
def Obligations.ErrRecordsEveryStatus : Prop :=
  ∀ (s t : State) (w : CmdWord) (r : Response), performWord w s = .next t → t.rsps = s.rsps ++ [r] →
    (r.status ≠ .ok → t.errLast = statusCode r.status ∧
      t.errFirst = (if s.errFirst = 0x00 then statusCode r.status else s.errFirst) ∧
      r.sv = false ∧ r.sym = 0 ∧ r.clen = 0 ∧ r.data = 0 ∧ r.cbits = 0) ∧
    (r.status = .ok → w ≠ 0x0100 → w ≠ 0x0200 → t.errLast = s.errLast ∧ t.errFirst = s.errFirst)

/-- R243: for every command word, besides ERR and the response, a status of class Discard clears the tree and closes the
session, one of class Halt sets DSTATE to HALTED and keeps CUR and the counters, and every other error changes
nothing. -/
def Obligations.EffectClassesOfErrors : Prop :=
  ∀ (s t : State) (w : CmdWord) (r : Response), performWord w s = .next t → t.rsps = s.rsps ++ [r] →
    r.status ≠ .ok →
    t = reported r.status
      (if r.status ∈ [Status.treeTruncated, .treeBadMarker, .treeOverflow, .treeDupSymbol] then discardedInto s t
       else if r.status ∈ [Status.invalidBit, .undecodableBit, .truncatedCode] then { s with dstate := .halted }
       else s)

/-- R241: the fourteen statuses have these codes, and there is no other status; which commands raise which status, and no
command answers another. -/
def Obligations.StatusesEachCommandCanAnswer : Prop :=
  (∀ e : Status, (e, statusCode e) ∈ ([(.ok, 0x00), (.treeTruncated, 0x01), (.treeBadMarker, 0x02),
    (.treeOverflow, 0x03), (.treeDupSymbol, 0x04), (.noTree, 0x10), (.badState, 0x11), (.invalidBit, 0x20),
    (.undecodableBit, 0x21), (.truncatedCode, 0x22), (.decoderHalted, 0x23), (.unknownSymbol, 0x30),
    (.illegalCommand, 0xF0), (.badRegister, 0xF1)] : List (Status × BitVec 8))) ∧
  ∀ (s t : State) (i : Instr) (r : Response), exec i s = .next t → t.rsps = s.rsps ++ [r] →
    r.status ∈ (match i with
      | .nop => [Status.ok]
      | .reset => [.ok]
      | .clrErr => [.ok]
      | .readReg _ => [.ok, .badRegister]
      | .treeStart => [.ok]
      | .treeByte _ => [.ok, .badState, .treeBadMarker, .treeDupSymbol, .treeOverflow]
      | .treeEnd => [.ok, .badState, .treeTruncated]
      | .decStart => [.ok, .noTree]
      | .decBit _ => [.ok, .noTree, .decoderHalted, .badState, .undecodableBit]
      | .decChar _ => [.ok, .noTree, .decoderHalted, .badState, .invalidBit, .undecodableBit]
      | .decEnd => [.ok, .noTree, .decoderHalted, .badState, .truncatedCode]
      | .encSym _ => [.ok, .illegalCommand, .noTree, .unknownSymbol])

/-! ## Invariants and whole-machine rules -/

/-- R48, R49: the invariant of the reachable states is kept by every step. -/
def Obligations.EveryStepKeepsTheInvariant : Prop :=
  ∀ s t : State, Inv s → step s = .next t → Inv t

/-- R47, R48: the invariant holds after reset, in both builds. -/
def Obligations.ResetMeetsTheInvariant : Prop :=
  ∀ enc : Bool, Inv (State.resetOf enc)

/-- R49, R122, R123, R124: a READY tree is a full binary tree rooted at node 0. NCNT = 2·NLEAF - 1; each internal node i
has LEFT = i + 1 and RIGHT = i + 1 + size(i + 1), below NCNT; every node but the root is the child of exactly one node, on one
side; PRESENT marks exactly the leaves' symbols, and no two leaves share one. -/
def Obligations.ReadyTreeIsAFullBinaryTree : Prop :=
  ∀ s : State, Inv s → s.tstate = .ready →
    s.slots = [] ∧ s.lsym = false ∧ 1 ≤ s.ncnt.toNat ∧ s.ncnt.toNat ≤ 511 ∧
    s.ncnt.toNat + 1 = 2 * s.nleaf.toNat ∧
    (∀ (i : NodeIdx) (e : Node), storeRead s.nodes i.toNat = some e → e.tag = .internal →
      ∃ (r : NodeIdx) (n : Nat), e.left = some (i + 1) ∧ e.right = some r ∧ SubtreeSize s (i + 1) n ∧
        r.toNat = i.toNat + 1 + n ∧ r.toNat < s.ncnt.toNat) ∧
    (∀ c : NodeIdx, 0 < c.toNat → c.toNat < s.ncnt.toNat →
      ∃! p : NodeIdx × Bit, ∃ e, storeRead s.nodes p.1.toNat = some e ∧ e.tag = .internal ∧
        (if p.2 then e.right else e.left) = some c) ∧
    (∀ b : Byte, isPresent s b = true → ∃! i : NodeIdx, ∃ e, storeRead s.nodes i.toNat = some e ∧
      e.tag = .leaf ∧ e.sym = b) ∧
    (∀ (i : NodeIdx) (e : Node), storeRead s.nodes i.toNat = some e → e.tag = .leaf → isPresent s e.sym = true)

/-- R31, R119, R141: in a READY tree of a build with the encoder, every node has exactly one path, and CODE of a leaf's
symbol holds the leaf's path: its length and its bits in emission order. -/
def Obligations.CodeTableHoldsTheLeafPaths : Prop :=
  ∀ s : State, Inv s → s.tstate = .ready → s.hasEncoder = true →
    ∀ (i : NodeIdx) (e : Node), storeRead s.nodes i.toNat = some e →
      (∃! q : List Bit, IsPath s i q) ∧
      (e.tag = .leaf → ∃ c, storeRead s.code e.sym.toNat = some c ∧
        ∀ q : List Bit, IsPath s i q → c.clen.toNat = q.length ∧ ∀ k, c.cbits.getLsbD k = q.getD k false)

/-- R76: no command changes the loaded tree while it stays READY: NODE, NCNT, NLEAF, PRESENT, CODE and SLOTS are kept by
every command that leaves a READY tree READY. -/
def Obligations.ReadyTreeIsImmutable : Prop :=
  ∀ (s t : State) (i : Instr), s.tstate = .ready → exec i s = .next t → t.tstate = .ready →
    t.nodes = s.nodes ∧ t.ncnt = s.ncnt ∧ t.nleaf = s.nleaf ∧ t.present = s.present ∧ t.code = s.code ∧
      t.slots = s.slots ∧ t.lsym = s.lsym

/-- R23, R110, R114, R118, R120, R270: only TREE_START and RESET leave READY. READY is entered only from LOADING, by the
TREE_BYTE of a new symbol that fills the last slot, or is the first node of the stream: it allocates the last node.
LOADING is entered only by TREE_START. It is left only by that TREE_BYTE, to READY; by RESET, to EMPTY; and by TREE_END
and by a TREE_BYTE answered with a loader error, both to EMPTY with Discard. From READY, EMPTY is entered only by RESET. -/
def Obligations.TreeStateTransitions : Prop :=
  ∀ (s t : State) (i : Instr), exec i s = .next t →
    (s.tstate = .ready → t.tstate ≠ .ready →
      (i = .treeStart ∧ t.tstate = .loading) ∨ (i = .reset ∧ t.tstate = .empty)) ∧
    (s.tstate ≠ .ready → t.tstate = .ready → s.tstate = .loading ∧ s.lsym = true ∧ s.slots.length ≤ 1 ∧
      t.slots = [] ∧ t.ncnt = s.ncnt + 1 ∧ ∃ b, i = .treeByte b ∧ isPresent s b = false) ∧
    (s.tstate ≠ .loading → t.tstate = .loading → i = .treeStart) ∧
    (s.tstate = .loading → t.tstate ≠ .loading →
      (t.tstate = .ready ∧ ∃ b, i = .treeByte b) ∨ (t.tstate = .empty ∧ i = .reset) ∨
      (i = .treeEnd ∧ t = reported .treeTruncated (discardedInto s t)) ∨
      ∃ b e, i = .treeByte b ∧ e ∈ [Status.treeBadMarker, .treeDupSymbol, .treeOverflow] ∧
        t = reported e (discardedInto s t))

/-- R6, R37, R87: in a build without the encoder no command writes CODE or counts a code: with both ENC counters 0 they
stay 0, and ENC_SYM is ILLEGAL_COMMAND. -/
def Obligations.NoEncoderMeansNoCodes : Prop :=
  ∀ (s t : State) (i : Instr), s.hasEncoder = false → s.code = [] → s.encSymcnt = 0 → s.encBitcnt = 0 →
    exec i s = .next t → t.code = [] ∧ t.encSymcnt = 0 ∧ t.encBitcnt = 0 ∧ t.hasEncoder = false ∧
      ∀ b, i = .encSym b → t = reported .illegalCommand s

/-- R75, R25, R31: no command reads an unspecified storage cell. Two states that agree on every specified cell give, for
every command, the same response and states that again agree. -/
def Obligations.UnspecifiedCellsAreUnobservable : Prop :=
  ∀ (s s' : State) (i : Instr), Inv s → AgreeOnSpecified s s' →
    ∃ t t', exec i s = .next t ∧ exec i s' = .next t' ∧ newResponses s t = newResponses s' t' ∧
      AgreeOnSpecified t t'

/-! ## Laws over sequences of commands -/

/-- R220, R121: from every state, loading the serialization of a tree with distinct leaf symbols answers `ok` to every
command and leaves the tree READY: NODE holds it in preorder, and CODE holds its codes. -/
def Obligations.LoadingASerializedTreeReproducesIt : Prop :=
  ∀ (s : State) (T : Tree), DistinctLeaves T →
    ∃ t, runInstrs (loadTreeCmds (serialize T)) s = .next t ∧ t.tstate = .ready ∧ HoldsTree t T ∧
      t.rsps = s.rsps ++ List.replicate ((serialize T).length + 2) { status := .ok }

/-- R121: when TREE_START and the bytes after it are all answered `ok`, the tree is READY after the last byte exactly
when the bytes are the serialization of a tree with distinct leaf symbols, and then NODE holds that tree. -/
def Obligations.ReadyExactlyAtASerialization : Prop :=
  ∀ (s t : State) (bytes : List Byte), runInstrs (.treeStart :: bytes.map .treeByte) s = .next t →
    (∀ r ∈ newResponses s t, r.status = .ok) →
    (t.tstate = .ready ↔ ∃ T : Tree, DistinctLeaves T ∧ serialize T = bytes) ∧
    ∀ T : Tree, DistinctLeaves T → serialize T = bytes → HoldsTree t T

/-- R148: feed a decoder at the root the bits of an OK `ENC_SYM b`: every response but the last has SV = 0, the last has
SV = 1 and SYM = b, and the decoder is at the root again. -/
def Obligations.DecodingACodeEmitsItsSymbol : Prop :=
  ∀ (s u : State) (b : Byte) (r : Response), Inv s → s.tstate = .ready → s.dstate = .run → s.cur = 0 →
    exec (.encSym b) s = .next u → u.rsps = s.rsps ++ [r] → r.status = .ok →
    ∃ t, runInstrs ((responseBits r).map .decBit) u = .next t ∧ t.dstate = .run ∧ t.cur = 0 ∧
      t.rsps = u.rsps ++ List.replicate ((responseBits r).length - 1) { status := .ok } ++
        [{ status := .ok, sv := true, sym := b }]

/-- R169: after DEC_START the payload of any symbols of the READY tree is answered with SV = 1 exactly at the last bit of
each code, with the symbols in order, and DEC_END answers their number modulo 2^32. -/
def Obligations.PayloadDecodesToItsSymbols : Prop :=
  ∀ (s : State) (T : Tree) (x : List Byte), Inv s → s.tstate = .ready → HoldsTree s T →
    (∀ b ∈ x, b ∈ treeSymbols T) →
    ∃ t, runInstrs (decodeBitsCmds (payload T x)) s = .next t ∧ t.dstate = .idle ∧
      t.rsps = s.rsps ++ [{ status := .ok }] ++
        x.flatMap (fun b => List.replicate ((payloadCode T b).length - 1) { status := .ok } ++
          [{ status := .ok, sv := true, sym := b }]) ++
        [{ status := .ok, data := BitVec.ofNat 32 x.length }]

/-- R169, the converse: on a tree that is not degenerate every bit sequence from the root is answered `ok`; it is the
codes of the emitted symbols followed by the path to CUR, and DEC_END then answers OK exactly when that path is empty. -/
def Obligations.EveryBitSequenceIsCodesAndATail : Prop :=
  ∀ (s : State) (T : Tree) (bits : List Bit), Inv s → s.tstate = .ready → HoldsTree s T → s.ncnt ≠ 1 →
    s.dstate = .run → s.cur = 0 →
    ∃ t q, runInstrs (bits.map .decBit) s = .next t ∧ (∀ r ∈ newResponses s t, r.status = .ok) ∧
      IsPath s t.cur q ∧ bits = (emitted (newResponses s t)).flatMap (codeIn T) ++ q ∧
      ∃ u r, exec .decEnd t = .next u ∧ u.rsps = t.rsps ++ [r] ∧ (r.status = .ok ↔ q = [])

/-- R212: the counts of Freq(x) are at least 1 and sum to the length of x, each symbol has one entry, and exactly the
symbols of x have one. -/
def Obligations.FrequenciesAreConserved : Prop :=
  ∀ x : List Byte, (∀ p ∈ freq x, 1 ≤ p.2) ∧ ((freq x).map Prod.snd).sum = x.length ∧
    ((freq x).map Prod.fst).Nodup ∧ ∀ b, b ∈ (freq x).map Prod.fst ↔ b ∈ x

/-- R213, R216: Build(Freq(x)) is no tree exactly for the empty input, and else a tree whose leaves carry the symbols of
x, pairwise distinct, whatever SENTINEL_KEY is. -/
def Obligations.BuiltTreeHasTheSymbolsOfTheInput : Prop :=
  ∀ (sk : Int) (x : List Byte), (build sk (freq x) = none ↔ x = []) ∧
    ∀ T, build sk (freq x) = some T → DistinctLeaves T ∧ ∀ b, b ∈ treeSymbols T ↔ b ∈ x

/-- R219: the round-trip law. For every non-empty input, decompressing what compress gives, from any state of the block,
gives the input back with every response OK, and the final DEC_END answers its length modulo 2^32. -/
def Obligations.RoundTripLaw : Prop :=
  ∀ (sk : Int) (x : List Byte) (s : State), x ≠ [] →
    decompress (compress sk x).1 (compress sk x).2 s = some x ∧
    ∃ T t, (compress sk x).2 = some T ∧
      runInstrs (loadTreeCmds (serialize T) ++ decodeBitsCmds (compress sk x).1) s = .next t ∧
      t.rsps.getLast? = some { status := .ok, data := BitVec.ofNat 32 x.length }
end

