-- ==== Sys2Proof/Laws/State.lean ====
section
/-! SUPPORT. What each update of the state does to each field, once, by rfl. -/

namespace Sys2Proof.Machine

/-! ### respond -/

@[simp] theorem respond_hasEncoder (r : Response) (s : State) : (respond r s).hasEncoder = s.hasEncoder := rfl
@[simp] theorem respond_tstate (r : Response) (s : State) : (respond r s).tstate = s.tstate := rfl
@[simp] theorem respond_nodes (r : Response) (s : State) : (respond r s).nodes = s.nodes := rfl
@[simp] theorem respond_ncnt (r : Response) (s : State) : (respond r s).ncnt = s.ncnt := rfl
@[simp] theorem respond_nleaf (r : Response) (s : State) : (respond r s).nleaf = s.nleaf := rfl
@[simp] theorem respond_slots (r : Response) (s : State) : (respond r s).slots = s.slots := rfl
@[simp] theorem respond_lsym (r : Response) (s : State) : (respond r s).lsym = s.lsym := rfl
@[simp] theorem respond_present (r : Response) (s : State) : (respond r s).present = s.present := rfl
@[simp] theorem respond_code (r : Response) (s : State) : (respond r s).code = s.code := rfl
@[simp] theorem respond_dstate (r : Response) (s : State) : (respond r s).dstate = s.dstate := rfl
@[simp] theorem respond_cur (r : Response) (s : State) : (respond r s).cur = s.cur := rfl
@[simp] theorem respond_decBitcnt (r : Response) (s : State) : (respond r s).decBitcnt = s.decBitcnt := rfl
@[simp] theorem respond_decSymcnt (r : Response) (s : State) : (respond r s).decSymcnt = s.decSymcnt := rfl
@[simp] theorem respond_encSymcnt (r : Response) (s : State) : (respond r s).encSymcnt = s.encSymcnt := rfl
@[simp] theorem respond_encBitcnt (r : Response) (s : State) : (respond r s).encBitcnt = s.encBitcnt := rfl
@[simp] theorem respond_errFirst (r : Response) (s : State) : (respond r s).errFirst = s.errFirst := rfl
@[simp] theorem respond_errLast (r : Response) (s : State) : (respond r s).errLast = s.errLast := rfl
@[simp] theorem respond_inputs (r : Response) (s : State) : (respond r s).inputs = s.inputs := rfl
@[simp] theorem respond_rsps (r : Response) (s : State) : (respond r s).rsps = s.rsps ++ [r] := rfl

/-! ### respondOk -/

@[simp] theorem respondOk_hasEncoder (s : State) : (respondOk s).hasEncoder = s.hasEncoder := rfl
@[simp] theorem respondOk_tstate (s : State) : (respondOk s).tstate = s.tstate := rfl
@[simp] theorem respondOk_nodes (s : State) : (respondOk s).nodes = s.nodes := rfl
@[simp] theorem respondOk_ncnt (s : State) : (respondOk s).ncnt = s.ncnt := rfl
@[simp] theorem respondOk_nleaf (s : State) : (respondOk s).nleaf = s.nleaf := rfl
@[simp] theorem respondOk_slots (s : State) : (respondOk s).slots = s.slots := rfl
@[simp] theorem respondOk_lsym (s : State) : (respondOk s).lsym = s.lsym := rfl
@[simp] theorem respondOk_present (s : State) : (respondOk s).present = s.present := rfl
@[simp] theorem respondOk_code (s : State) : (respondOk s).code = s.code := rfl
@[simp] theorem respondOk_dstate (s : State) : (respondOk s).dstate = s.dstate := rfl
@[simp] theorem respondOk_cur (s : State) : (respondOk s).cur = s.cur := rfl
@[simp] theorem respondOk_decBitcnt (s : State) : (respondOk s).decBitcnt = s.decBitcnt := rfl
@[simp] theorem respondOk_decSymcnt (s : State) : (respondOk s).decSymcnt = s.decSymcnt := rfl
@[simp] theorem respondOk_encSymcnt (s : State) : (respondOk s).encSymcnt = s.encSymcnt := rfl
@[simp] theorem respondOk_encBitcnt (s : State) : (respondOk s).encBitcnt = s.encBitcnt := rfl
@[simp] theorem respondOk_errFirst (s : State) : (respondOk s).errFirst = s.errFirst := rfl
@[simp] theorem respondOk_errLast (s : State) : (respondOk s).errLast = s.errLast := rfl
@[simp] theorem respondOk_inputs (s : State) : (respondOk s).inputs = s.inputs := rfl
@[simp] theorem respondOk_rsps (s : State) : (respondOk s).rsps = s.rsps ++ [{ status := .ok }] := rfl

/-! ### recordError -/

@[simp] theorem recordError_hasEncoder (e : Status) (s : State) : (recordError e s).hasEncoder = s.hasEncoder := rfl
@[simp] theorem recordError_tstate (e : Status) (s : State) : (recordError e s).tstate = s.tstate := rfl
@[simp] theorem recordError_nodes (e : Status) (s : State) : (recordError e s).nodes = s.nodes := rfl
@[simp] theorem recordError_ncnt (e : Status) (s : State) : (recordError e s).ncnt = s.ncnt := rfl
@[simp] theorem recordError_nleaf (e : Status) (s : State) : (recordError e s).nleaf = s.nleaf := rfl
@[simp] theorem recordError_slots (e : Status) (s : State) : (recordError e s).slots = s.slots := rfl
@[simp] theorem recordError_lsym (e : Status) (s : State) : (recordError e s).lsym = s.lsym := rfl
@[simp] theorem recordError_present (e : Status) (s : State) : (recordError e s).present = s.present := rfl
@[simp] theorem recordError_code (e : Status) (s : State) : (recordError e s).code = s.code := rfl
@[simp] theorem recordError_dstate (e : Status) (s : State) : (recordError e s).dstate = s.dstate := rfl
@[simp] theorem recordError_cur (e : Status) (s : State) : (recordError e s).cur = s.cur := rfl
@[simp] theorem recordError_decBitcnt (e : Status) (s : State) : (recordError e s).decBitcnt = s.decBitcnt := rfl
@[simp] theorem recordError_decSymcnt (e : Status) (s : State) : (recordError e s).decSymcnt = s.decSymcnt := rfl
@[simp] theorem recordError_encSymcnt (e : Status) (s : State) : (recordError e s).encSymcnt = s.encSymcnt := rfl
@[simp] theorem recordError_encBitcnt (e : Status) (s : State) : (recordError e s).encBitcnt = s.encBitcnt := rfl
@[simp] theorem recordError_errFirst (e : Status) (s : State) :
    (recordError e s).errFirst = if s.errFirst = 0x00 then statusCode e else s.errFirst := rfl
@[simp] theorem recordError_errLast (e : Status) (s : State) : (recordError e s).errLast = statusCode e := rfl
@[simp] theorem recordError_inputs (e : Status) (s : State) : (recordError e s).inputs = s.inputs := rfl
@[simp] theorem recordError_rsps (e : Status) (s : State) : (recordError e s).rsps = s.rsps := rfl

/-! ### discardTree -/

@[simp] theorem discardTree_hasEncoder (s : State) : (discardTree s).hasEncoder = s.hasEncoder := rfl
@[simp] theorem discardTree_tstate (s : State) : (discardTree s).tstate = .empty := rfl
@[simp] theorem discardTree_nodes (s : State) : (discardTree s).nodes = [] := rfl
@[simp] theorem discardTree_ncnt (s : State) : (discardTree s).ncnt = 0 := rfl
@[simp] theorem discardTree_nleaf (s : State) : (discardTree s).nleaf = 0 := rfl
@[simp] theorem discardTree_slots (s : State) : (discardTree s).slots = [] := rfl
@[simp] theorem discardTree_lsym (s : State) : (discardTree s).lsym = false := rfl
@[simp] theorem discardTree_present (s : State) : (discardTree s).present = 0 := rfl
@[simp] theorem discardTree_code (s : State) : (discardTree s).code = [] := rfl
@[simp] theorem discardTree_dstate (s : State) : (discardTree s).dstate = .idle := rfl
@[simp] theorem discardTree_cur (s : State) : (discardTree s).cur = 0 := rfl
@[simp] theorem discardTree_decBitcnt (s : State) : (discardTree s).decBitcnt = s.decBitcnt := rfl
@[simp] theorem discardTree_decSymcnt (s : State) : (discardTree s).decSymcnt = s.decSymcnt := rfl
@[simp] theorem discardTree_encSymcnt (s : State) : (discardTree s).encSymcnt = s.encSymcnt := rfl
@[simp] theorem discardTree_encBitcnt (s : State) : (discardTree s).encBitcnt = s.encBitcnt := rfl
@[simp] theorem discardTree_errFirst (s : State) : (discardTree s).errFirst = s.errFirst := rfl
@[simp] theorem discardTree_errLast (s : State) : (discardTree s).errLast = s.errLast := rfl
@[simp] theorem discardTree_inputs (s : State) : (discardTree s).inputs = s.inputs := rfl
@[simp] theorem discardTree_rsps (s : State) : (discardTree s).rsps = s.rsps := rfl

/-! ### halt -/

@[simp] theorem halt_hasEncoder (s : State) : (halt s).hasEncoder = s.hasEncoder := rfl
@[simp] theorem halt_tstate (s : State) : (halt s).tstate = s.tstate := rfl
@[simp] theorem halt_nodes (s : State) : (halt s).nodes = s.nodes := rfl
@[simp] theorem halt_ncnt (s : State) : (halt s).ncnt = s.ncnt := rfl
@[simp] theorem halt_nleaf (s : State) : (halt s).nleaf = s.nleaf := rfl
@[simp] theorem halt_slots (s : State) : (halt s).slots = s.slots := rfl
@[simp] theorem halt_lsym (s : State) : (halt s).lsym = s.lsym := rfl
@[simp] theorem halt_present (s : State) : (halt s).present = s.present := rfl
@[simp] theorem halt_code (s : State) : (halt s).code = s.code := rfl
@[simp] theorem halt_dstate (s : State) : (halt s).dstate = .halted := rfl
@[simp] theorem halt_cur (s : State) : (halt s).cur = s.cur := rfl
@[simp] theorem halt_decBitcnt (s : State) : (halt s).decBitcnt = s.decBitcnt := rfl
@[simp] theorem halt_decSymcnt (s : State) : (halt s).decSymcnt = s.decSymcnt := rfl
@[simp] theorem halt_encSymcnt (s : State) : (halt s).encSymcnt = s.encSymcnt := rfl
@[simp] theorem halt_encBitcnt (s : State) : (halt s).encBitcnt = s.encBitcnt := rfl
@[simp] theorem halt_errFirst (s : State) : (halt s).errFirst = s.errFirst := rfl
@[simp] theorem halt_errLast (s : State) : (halt s).errLast = s.errLast := rfl
@[simp] theorem halt_inputs (s : State) : (halt s).inputs = s.inputs := rfl
@[simp] theorem halt_rsps (s : State) : (halt s).rsps = s.rsps := rfl

/-! ### resetProcedure -/

@[simp] theorem resetProcedure_hasEncoder (s : State) : (resetProcedure s).hasEncoder = s.hasEncoder := rfl
@[simp] theorem resetProcedure_tstate (s : State) : (resetProcedure s).tstate = .empty := rfl
@[simp] theorem resetProcedure_nodes (s : State) : (resetProcedure s).nodes = [] := rfl
@[simp] theorem resetProcedure_ncnt (s : State) : (resetProcedure s).ncnt = 0 := rfl
@[simp] theorem resetProcedure_nleaf (s : State) : (resetProcedure s).nleaf = 0 := rfl
@[simp] theorem resetProcedure_slots (s : State) : (resetProcedure s).slots = [] := rfl
@[simp] theorem resetProcedure_lsym (s : State) : (resetProcedure s).lsym = false := rfl
@[simp] theorem resetProcedure_present (s : State) : (resetProcedure s).present = 0 := rfl
@[simp] theorem resetProcedure_code (s : State) : (resetProcedure s).code = [] := rfl
@[simp] theorem resetProcedure_dstate (s : State) : (resetProcedure s).dstate = .idle := rfl
@[simp] theorem resetProcedure_cur (s : State) : (resetProcedure s).cur = 0 := rfl
@[simp] theorem resetProcedure_decBitcnt (s : State) : (resetProcedure s).decBitcnt = 0 := rfl
@[simp] theorem resetProcedure_decSymcnt (s : State) : (resetProcedure s).decSymcnt = 0 := rfl
@[simp] theorem resetProcedure_encSymcnt (s : State) : (resetProcedure s).encSymcnt = 0 := rfl
@[simp] theorem resetProcedure_encBitcnt (s : State) : (resetProcedure s).encBitcnt = 0 := rfl
@[simp] theorem resetProcedure_errFirst (s : State) : (resetProcedure s).errFirst = 0x00 := rfl
@[simp] theorem resetProcedure_errLast (s : State) : (resetProcedure s).errLast = 0x00 := rfl
@[simp] theorem resetProcedure_inputs (s : State) : (resetProcedure s).inputs = s.inputs := rfl
@[simp] theorem resetProcedure_rsps (s : State) : (resetProcedure s).rsps = s.rsps := rfl

/-! ### nodeWrite -/

@[simp] theorem nodeWrite_hasEncoder (i : NodeIdx) (e : Node) (s : State) :
    (nodeWrite i e s).hasEncoder = s.hasEncoder := rfl
@[simp] theorem nodeWrite_tstate (i : NodeIdx) (e : Node) (s : State) : (nodeWrite i e s).tstate = s.tstate := rfl
@[simp] theorem nodeWrite_nodes (i : NodeIdx) (e : Node) (s : State) :
    (nodeWrite i e s).nodes = storeWrite s.nodes i.toNat e := rfl
@[simp] theorem nodeWrite_ncnt (i : NodeIdx) (e : Node) (s : State) : (nodeWrite i e s).ncnt = s.ncnt := rfl
@[simp] theorem nodeWrite_nleaf (i : NodeIdx) (e : Node) (s : State) : (nodeWrite i e s).nleaf = s.nleaf := rfl
@[simp] theorem nodeWrite_slots (i : NodeIdx) (e : Node) (s : State) : (nodeWrite i e s).slots = s.slots := rfl
@[simp] theorem nodeWrite_lsym (i : NodeIdx) (e : Node) (s : State) : (nodeWrite i e s).lsym = s.lsym := rfl
@[simp] theorem nodeWrite_present (i : NodeIdx) (e : Node) (s : State) : (nodeWrite i e s).present = s.present := rfl
@[simp] theorem nodeWrite_code (i : NodeIdx) (e : Node) (s : State) : (nodeWrite i e s).code = s.code := rfl
@[simp] theorem nodeWrite_dstate (i : NodeIdx) (e : Node) (s : State) : (nodeWrite i e s).dstate = s.dstate := rfl
@[simp] theorem nodeWrite_cur (i : NodeIdx) (e : Node) (s : State) : (nodeWrite i e s).cur = s.cur := rfl
@[simp] theorem nodeWrite_decBitcnt (i : NodeIdx) (e : Node) (s : State) :
    (nodeWrite i e s).decBitcnt = s.decBitcnt := rfl
@[simp] theorem nodeWrite_decSymcnt (i : NodeIdx) (e : Node) (s : State) :
    (nodeWrite i e s).decSymcnt = s.decSymcnt := rfl
@[simp] theorem nodeWrite_encSymcnt (i : NodeIdx) (e : Node) (s : State) :
    (nodeWrite i e s).encSymcnt = s.encSymcnt := rfl
@[simp] theorem nodeWrite_encBitcnt (i : NodeIdx) (e : Node) (s : State) :
    (nodeWrite i e s).encBitcnt = s.encBitcnt := rfl
@[simp] theorem nodeWrite_errFirst (i : NodeIdx) (e : Node) (s : State) :
    (nodeWrite i e s).errFirst = s.errFirst := rfl
@[simp] theorem nodeWrite_errLast (i : NodeIdx) (e : Node) (s : State) : (nodeWrite i e s).errLast = s.errLast := rfl
@[simp] theorem nodeWrite_inputs (i : NodeIdx) (e : Node) (s : State) : (nodeWrite i e s).inputs = s.inputs := rfl
@[simp] theorem nodeWrite_rsps (i : NodeIdx) (e : Node) (s : State) : (nodeWrite i e s).rsps = s.rsps := rfl

/-! ### linkChild -/

@[simp] theorem linkChild_hasEncoder (i : NodeIdx) (t : Bit) (c : NodeIdx) (s : State) :
    (linkChild i t c s).hasEncoder = s.hasEncoder := rfl
@[simp] theorem linkChild_tstate (i : NodeIdx) (t : Bit) (c : NodeIdx) (s : State) :
    (linkChild i t c s).tstate = s.tstate := rfl
@[simp] theorem linkChild_nodes (i : NodeIdx) (t : Bit) (c : NodeIdx) (s : State) :
    (linkChild i t c s).nodes = storeWrite s.nodes i.toNat (setChild t c (nodeRead s i)) := rfl
@[simp] theorem linkChild_ncnt (i : NodeIdx) (t : Bit) (c : NodeIdx) (s : State) :
    (linkChild i t c s).ncnt = s.ncnt := rfl
@[simp] theorem linkChild_nleaf (i : NodeIdx) (t : Bit) (c : NodeIdx) (s : State) :
    (linkChild i t c s).nleaf = s.nleaf := rfl
@[simp] theorem linkChild_slots (i : NodeIdx) (t : Bit) (c : NodeIdx) (s : State) :
    (linkChild i t c s).slots = s.slots := rfl
@[simp] theorem linkChild_lsym (i : NodeIdx) (t : Bit) (c : NodeIdx) (s : State) :
    (linkChild i t c s).lsym = s.lsym := rfl
@[simp] theorem linkChild_present (i : NodeIdx) (t : Bit) (c : NodeIdx) (s : State) :
    (linkChild i t c s).present = s.present := rfl
@[simp] theorem linkChild_code (i : NodeIdx) (t : Bit) (c : NodeIdx) (s : State) :
    (linkChild i t c s).code = s.code := rfl
@[simp] theorem linkChild_dstate (i : NodeIdx) (t : Bit) (c : NodeIdx) (s : State) :
    (linkChild i t c s).dstate = s.dstate := rfl
@[simp] theorem linkChild_cur (i : NodeIdx) (t : Bit) (c : NodeIdx) (s : State) :
    (linkChild i t c s).cur = s.cur := rfl
@[simp] theorem linkChild_decBitcnt (i : NodeIdx) (t : Bit) (c : NodeIdx) (s : State) :
    (linkChild i t c s).decBitcnt = s.decBitcnt := rfl
@[simp] theorem linkChild_decSymcnt (i : NodeIdx) (t : Bit) (c : NodeIdx) (s : State) :
    (linkChild i t c s).decSymcnt = s.decSymcnt := rfl
@[simp] theorem linkChild_encSymcnt (i : NodeIdx) (t : Bit) (c : NodeIdx) (s : State) :
    (linkChild i t c s).encSymcnt = s.encSymcnt := rfl
@[simp] theorem linkChild_encBitcnt (i : NodeIdx) (t : Bit) (c : NodeIdx) (s : State) :
    (linkChild i t c s).encBitcnt = s.encBitcnt := rfl
@[simp] theorem linkChild_errFirst (i : NodeIdx) (t : Bit) (c : NodeIdx) (s : State) :
    (linkChild i t c s).errFirst = s.errFirst := rfl
@[simp] theorem linkChild_errLast (i : NodeIdx) (t : Bit) (c : NodeIdx) (s : State) :
    (linkChild i t c s).errLast = s.errLast := rfl
@[simp] theorem linkChild_inputs (i : NodeIdx) (t : Bit) (c : NodeIdx) (s : State) :
    (linkChild i t c s).inputs = s.inputs := rfl
@[simp] theorem linkChild_rsps (i : NodeIdx) (t : Bit) (c : NodeIdx) (s : State) :
    (linkChild i t c s).rsps = s.rsps := rfl

/-! ### markPresent -/

@[simp] theorem markPresent_hasEncoder (b : Byte) (s : State) : (markPresent b s).hasEncoder = s.hasEncoder := rfl
@[simp] theorem markPresent_tstate (b : Byte) (s : State) : (markPresent b s).tstate = s.tstate := rfl
@[simp] theorem markPresent_nodes (b : Byte) (s : State) : (markPresent b s).nodes = s.nodes := rfl
@[simp] theorem markPresent_ncnt (b : Byte) (s : State) : (markPresent b s).ncnt = s.ncnt := rfl
@[simp] theorem markPresent_nleaf (b : Byte) (s : State) : (markPresent b s).nleaf = s.nleaf := rfl
@[simp] theorem markPresent_slots (b : Byte) (s : State) : (markPresent b s).slots = s.slots := rfl
@[simp] theorem markPresent_lsym (b : Byte) (s : State) : (markPresent b s).lsym = s.lsym := rfl
@[simp] theorem markPresent_present (b : Byte) (s : State) :
    (markPresent b s).present = s.present ||| (1#256 <<< b.toNat) := rfl
@[simp] theorem markPresent_code (b : Byte) (s : State) : (markPresent b s).code = s.code := rfl
@[simp] theorem markPresent_dstate (b : Byte) (s : State) : (markPresent b s).dstate = s.dstate := rfl
@[simp] theorem markPresent_cur (b : Byte) (s : State) : (markPresent b s).cur = s.cur := rfl
@[simp] theorem markPresent_decBitcnt (b : Byte) (s : State) : (markPresent b s).decBitcnt = s.decBitcnt := rfl
@[simp] theorem markPresent_decSymcnt (b : Byte) (s : State) : (markPresent b s).decSymcnt = s.decSymcnt := rfl
@[simp] theorem markPresent_encSymcnt (b : Byte) (s : State) : (markPresent b s).encSymcnt = s.encSymcnt := rfl
@[simp] theorem markPresent_encBitcnt (b : Byte) (s : State) : (markPresent b s).encBitcnt = s.encBitcnt := rfl
@[simp] theorem markPresent_errFirst (b : Byte) (s : State) : (markPresent b s).errFirst = s.errFirst := rfl
@[simp] theorem markPresent_errLast (b : Byte) (s : State) : (markPresent b s).errLast = s.errLast := rfl
@[simp] theorem markPresent_inputs (b : Byte) (s : State) : (markPresent b s).inputs = s.inputs := rfl
@[simp] theorem markPresent_rsps (b : Byte) (s : State) : (markPresent b s).rsps = s.rsps := rfl

/-! ### countBit -/

@[simp] theorem countBit_hasEncoder (s : State) : (countBit s).hasEncoder = s.hasEncoder := rfl
@[simp] theorem countBit_tstate (s : State) : (countBit s).tstate = s.tstate := rfl
@[simp] theorem countBit_nodes (s : State) : (countBit s).nodes = s.nodes := rfl
@[simp] theorem countBit_ncnt (s : State) : (countBit s).ncnt = s.ncnt := rfl
@[simp] theorem countBit_nleaf (s : State) : (countBit s).nleaf = s.nleaf := rfl
@[simp] theorem countBit_slots (s : State) : (countBit s).slots = s.slots := rfl
@[simp] theorem countBit_lsym (s : State) : (countBit s).lsym = s.lsym := rfl
@[simp] theorem countBit_present (s : State) : (countBit s).present = s.present := rfl
@[simp] theorem countBit_code (s : State) : (countBit s).code = s.code := rfl
@[simp] theorem countBit_dstate (s : State) : (countBit s).dstate = s.dstate := rfl
@[simp] theorem countBit_cur (s : State) : (countBit s).cur = s.cur := rfl
@[simp] theorem countBit_decBitcnt (s : State) : (countBit s).decBitcnt = countUp s.decBitcnt := rfl
@[simp] theorem countBit_decSymcnt (s : State) : (countBit s).decSymcnt = s.decSymcnt := rfl
@[simp] theorem countBit_encSymcnt (s : State) : (countBit s).encSymcnt = s.encSymcnt := rfl
@[simp] theorem countBit_encBitcnt (s : State) : (countBit s).encBitcnt = s.encBitcnt := rfl
@[simp] theorem countBit_errFirst (s : State) : (countBit s).errFirst = s.errFirst := rfl
@[simp] theorem countBit_errLast (s : State) : (countBit s).errLast = s.errLast := rfl
@[simp] theorem countBit_inputs (s : State) : (countBit s).inputs = s.inputs := rfl
@[simp] theorem countBit_rsps (s : State) : (countBit s).rsps = s.rsps := rfl

/-! ### emitSymbol -/

@[simp] theorem emitSymbol_hasEncoder (b : Byte) (s : State) : (emitSymbol b s).hasEncoder = s.hasEncoder := rfl
@[simp] theorem emitSymbol_tstate (b : Byte) (s : State) : (emitSymbol b s).tstate = s.tstate := rfl
@[simp] theorem emitSymbol_nodes (b : Byte) (s : State) : (emitSymbol b s).nodes = s.nodes := rfl
@[simp] theorem emitSymbol_ncnt (b : Byte) (s : State) : (emitSymbol b s).ncnt = s.ncnt := rfl
@[simp] theorem emitSymbol_nleaf (b : Byte) (s : State) : (emitSymbol b s).nleaf = s.nleaf := rfl
@[simp] theorem emitSymbol_slots (b : Byte) (s : State) : (emitSymbol b s).slots = s.slots := rfl
@[simp] theorem emitSymbol_lsym (b : Byte) (s : State) : (emitSymbol b s).lsym = s.lsym := rfl
@[simp] theorem emitSymbol_present (b : Byte) (s : State) : (emitSymbol b s).present = s.present := rfl
@[simp] theorem emitSymbol_code (b : Byte) (s : State) : (emitSymbol b s).code = s.code := rfl
@[simp] theorem emitSymbol_dstate (b : Byte) (s : State) : (emitSymbol b s).dstate = s.dstate := rfl
@[simp] theorem emitSymbol_cur (b : Byte) (s : State) : (emitSymbol b s).cur = s.cur := rfl
@[simp] theorem emitSymbol_decBitcnt (b : Byte) (s : State) : (emitSymbol b s).decBitcnt = s.decBitcnt := rfl
@[simp] theorem emitSymbol_decSymcnt (b : Byte) (s : State) : (emitSymbol b s).decSymcnt = countUp s.decSymcnt := rfl
@[simp] theorem emitSymbol_encSymcnt (b : Byte) (s : State) : (emitSymbol b s).encSymcnt = s.encSymcnt := rfl
@[simp] theorem emitSymbol_encBitcnt (b : Byte) (s : State) : (emitSymbol b s).encBitcnt = s.encBitcnt := rfl
@[simp] theorem emitSymbol_errFirst (b : Byte) (s : State) : (emitSymbol b s).errFirst = s.errFirst := rfl
@[simp] theorem emitSymbol_errLast (b : Byte) (s : State) : (emitSymbol b s).errLast = s.errLast := rfl
@[simp] theorem emitSymbol_inputs (b : Byte) (s : State) : (emitSymbol b s).inputs = s.inputs := rfl
@[simp] theorem emitSymbol_rsps (b : Byte) (s : State) :
    (emitSymbol b s).rsps = s.rsps ++ [{ status := .ok, sv := true, sym := b }] := rfl

/-! ### emitCode -/

@[simp] theorem emitCode_hasEncoder (bits : List Bit) (s : State) : (emitCode bits s).hasEncoder = s.hasEncoder := rfl
@[simp] theorem emitCode_tstate (bits : List Bit) (s : State) : (emitCode bits s).tstate = s.tstate := rfl
@[simp] theorem emitCode_nodes (bits : List Bit) (s : State) : (emitCode bits s).nodes = s.nodes := rfl
@[simp] theorem emitCode_ncnt (bits : List Bit) (s : State) : (emitCode bits s).ncnt = s.ncnt := rfl
@[simp] theorem emitCode_nleaf (bits : List Bit) (s : State) : (emitCode bits s).nleaf = s.nleaf := rfl
@[simp] theorem emitCode_slots (bits : List Bit) (s : State) : (emitCode bits s).slots = s.slots := rfl
@[simp] theorem emitCode_lsym (bits : List Bit) (s : State) : (emitCode bits s).lsym = s.lsym := rfl
@[simp] theorem emitCode_present (bits : List Bit) (s : State) : (emitCode bits s).present = s.present := rfl
@[simp] theorem emitCode_code (bits : List Bit) (s : State) : (emitCode bits s).code = s.code := rfl
@[simp] theorem emitCode_dstate (bits : List Bit) (s : State) : (emitCode bits s).dstate = s.dstate := rfl
@[simp] theorem emitCode_cur (bits : List Bit) (s : State) : (emitCode bits s).cur = s.cur := rfl
@[simp] theorem emitCode_decBitcnt (bits : List Bit) (s : State) : (emitCode bits s).decBitcnt = s.decBitcnt := rfl
@[simp] theorem emitCode_decSymcnt (bits : List Bit) (s : State) : (emitCode bits s).decSymcnt = s.decSymcnt := rfl
@[simp] theorem emitCode_encSymcnt (bits : List Bit) (s : State) :
    (emitCode bits s).encSymcnt = countUp s.encSymcnt := rfl
@[simp] theorem emitCode_encBitcnt (bits : List Bit) (s : State) :
    (emitCode bits s).encBitcnt = s.encBitcnt + BitVec.ofNat 32 bits.length := rfl
@[simp] theorem emitCode_errFirst (bits : List Bit) (s : State) : (emitCode bits s).errFirst = s.errFirst := rfl
@[simp] theorem emitCode_errLast (bits : List Bit) (s : State) : (emitCode bits s).errLast = s.errLast := rfl
@[simp] theorem emitCode_inputs (bits : List Bit) (s : State) : (emitCode bits s).inputs = s.inputs := rfl
@[simp] theorem emitCode_rsps (bits : List Bit) (s : State) :
    (emitCode bits s).rsps = s.rsps ++ [{ status := .ok, clen := BitVec.ofNat 8 bits.length, cbits := packBits 256 bits }] := rfl

/-! ### complete -/

@[simp] theorem complete_hasEncoder (s : State) : (complete s).hasEncoder = s.hasEncoder := rfl
@[simp] theorem complete_tstate (s : State) : (complete s).tstate = .ready := rfl
@[simp] theorem complete_nodes (s : State) : (complete s).nodes = s.nodes := rfl
@[simp] theorem complete_ncnt (s : State) : (complete s).ncnt = s.ncnt := rfl
@[simp] theorem complete_nleaf (s : State) : (complete s).nleaf = s.nleaf := rfl
@[simp] theorem complete_slots (s : State) : (complete s).slots = s.slots := rfl
@[simp] theorem complete_lsym (s : State) : (complete s).lsym = s.lsym := rfl
@[simp] theorem complete_present (s : State) : (complete s).present = s.present := rfl
@[simp] theorem complete_code (s : State) : (complete s).code = if s.hasEncoder then buildCode s else s.code := rfl
@[simp] theorem complete_dstate (s : State) : (complete s).dstate = .idle := rfl
@[simp] theorem complete_cur (s : State) : (complete s).cur = 0 := rfl
@[simp] theorem complete_decBitcnt (s : State) : (complete s).decBitcnt = s.decBitcnt := rfl
@[simp] theorem complete_decSymcnt (s : State) : (complete s).decSymcnt = s.decSymcnt := rfl
@[simp] theorem complete_encSymcnt (s : State) : (complete s).encSymcnt = s.encSymcnt := rfl
@[simp] theorem complete_encBitcnt (s : State) : (complete s).encBitcnt = s.encBitcnt := rfl
@[simp] theorem complete_errFirst (s : State) : (complete s).errFirst = s.errFirst := rfl
@[simp] theorem complete_errLast (s : State) : (complete s).errLast = s.errLast := rfl
@[simp] theorem complete_inputs (s : State) : (complete s).inputs = s.inputs := rfl
@[simp] theorem complete_rsps (s : State) : (complete s).rsps = s.rsps := rfl

/-! ### raise: what every status does alike -/

@[simp] theorem raise_hasEncoder (e : Status) (s : State) : (raise e s).hasEncoder = s.hasEncoder := by cases e <;> rfl
@[simp] theorem raise_decBitcnt (e : Status) (s : State) : (raise e s).decBitcnt = s.decBitcnt := by cases e <;> rfl
@[simp] theorem raise_decSymcnt (e : Status) (s : State) : (raise e s).decSymcnt = s.decSymcnt := by cases e <;> rfl
@[simp] theorem raise_encSymcnt (e : Status) (s : State) : (raise e s).encSymcnt = s.encSymcnt := by cases e <;> rfl
@[simp] theorem raise_encBitcnt (e : Status) (s : State) : (raise e s).encBitcnt = s.encBitcnt := by cases e <;> rfl
@[simp] theorem raise_inputs (e : Status) (s : State) : (raise e s).inputs = s.inputs := by cases e <;> rfl
@[simp] theorem raise_errLast (e : Status) (s : State) : (raise e s).errLast = statusCode e := by cases e <;> rfl
@[simp] theorem raise_errFirst (e : Status) (s : State) :
    (raise e s).errFirst = if s.errFirst = 0x00 then statusCode e else s.errFirst := by cases e <;> rfl
@[simp] theorem raise_rsps (e : Status) (s : State) : (raise e s).rsps = s.rsps ++ [{ status := e }] := by
  cases e <;> rfl

end Sys2Proof.Machine
end

