-- ==== Sys2Proof/Laws/Store.lean ====
section
/-! SUPPORT. The laws of the indexed stores behind NODE and CODE, and of code bits as vectors. -/

namespace Sys2Proof.Machine

variable {α : Type}

@[simp] theorem storeRead_nil (k : Nat) : storeRead ([] : List (Nat × α)) k = none := rfl

/-- A read after a write to the same index gives the entry written. -/
@[simp] theorem storeRead_storeWrite_same (m : List (Nat × α)) (k : Nat) (v : α) :
    storeRead (storeWrite m k v) k = some v := by
  induction m with
  | nil => simp [storeWrite, storeRead]
  | cons p m ih =>
    obtain ⟨a, u⟩ := p
    simp only [storeWrite]
    split
    · simp [storeRead]
    · split
      · simp [storeRead]
      · simp [storeRead, *]

/-- A write leaves every other index alone. -/
theorem storeRead_storeWrite_other (m : List (Nat × α)) {j k : Nat} (v : α) (h : j ≠ k) :
    storeRead (storeWrite m k v) j = storeRead m j := by
  induction m with
  | nil => simp [storeWrite, storeRead, h]
  | cons p m ih =>
    obtain ⟨a, u⟩ := p
    simp only [storeWrite]
    split
    · simp [storeRead, h]
    · split
      · subst a; simp [storeRead, h]
      · simp [storeRead, ih]

/-- What a write does to every read. -/
theorem storeRead_storeWrite (m : List (Nat × α)) (j k : Nat) (v : α) :
    storeRead (storeWrite m k v) j = if j = k then some v else storeRead m j := by
  split
  · subst j; simp
  · exact storeRead_storeWrite_other m v ‹_›

theorem mem_storeWrite (m : List (Nat × α)) {k : Nat} {v : α} {p : Nat × α} (h : p ∈ storeWrite m k v) :
    p = (k, v) ∨ p ∈ m := by
  induction m with
  | nil => simpa [storeWrite] using h
  | cons q m ih =>
    obtain ⟨a, u⟩ := q
    simp only [storeWrite] at h
    split at h
    · simpa using h
    · split at h
      · rcases List.mem_cons.1 h with h | h
        · exact .inl h
        · exact .inr (List.mem_cons_of_mem _ h)
      · rcases List.mem_cons.1 h with h | h
        · exact .inr (by simp [h])
        · rcases ih h with h | h
          · exact .inl h
          · exact .inr (List.mem_cons_of_mem _ h)

/-- A write keeps the canonical form. -/
theorem storeWf_storeWrite (m : List (Nat × α)) (k : Nat) (v : α) (h : storeWf m = true) :
    storeWf (storeWrite m k v) = true := by
  induction m with
  | nil => rfl
  | cons p m ih =>
    obtain ⟨a, u⟩ := p
    simp only [storeWf, Bool.and_eq_true, List.all_eq_true, decide_eq_true_eq] at h
    simp only [storeWrite]
    split
    · rename_i hk
      simp only [storeWf, Bool.and_eq_true, List.all_eq_true, decide_eq_true_eq, List.mem_cons]
      refine ⟨?_, h⟩
      rintro q (rfl | hq)
      · exact hk
      · exact lt_trans hk (h.1 q hq)
    · split
      · subst a
        simpa [storeWf, List.all_eq_true] using h
      · simp only [storeWf, Bool.and_eq_true, List.all_eq_true, decide_eq_true_eq]
        refine ⟨fun q hq => ?_, ih h.2⟩
        rcases mem_storeWrite m hq with rfl | hq
        · simp only; omega
        · exact h.1 q hq

/-- Reading finds an entry of the list. -/
theorem mem_of_storeRead {m : List (Nat × α)} {k : Nat} {v : α} (h : storeRead m k = some v) : (k, v) ∈ m := by
  induction m with
  | nil => simp at h
  | cons p m ih =>
    obtain ⟨a, u⟩ := p
    simp only [storeRead] at h
    split at h
    · simp_all
    · exact List.mem_cons_of_mem _ (ih h)

/-- In canonical form, every entry of the list is what its index reads as. -/
theorem storeRead_of_mem {m : List (Nat × α)} (hm : storeWf m = true) {k : Nat} {v : α} (h : (k, v) ∈ m) :
    storeRead m k = some v := by
  induction m with
  | nil => simp at h
  | cons p m ih =>
    obtain ⟨a, u⟩ := p
    simp only [storeWf, Bool.and_eq_true, List.all_eq_true, decide_eq_true_eq] at hm
    simp only [storeRead]
    rcases List.mem_cons.1 h with h | h
    · simp_all
    · have := hm.1 _ h
      simp only at this
      rw [if_neg (by omega)]
      exact ih hm.2 h

/-- A store whose indices are `0 .. n - 1` is in canonical form. -/
theorem storeWf_of_range' (m : List (Nat × α)) (a n : Nat) (h : m.map Prod.fst = List.range' a n) :
    storeWf m = true := by
  induction m generalizing a n with
  | nil => rfl
  | cons p m ih =>
    obtain ⟨k, u⟩ := p
    cases n with
    | zero => simp at h
    | succ n =>
      simp only [List.map_cons, List.range'_succ, List.cons.injEq] at h
      simp only [storeWf, Bool.and_eq_true, List.all_eq_true, decide_eq_true_eq]
      refine ⟨fun q hq => ?_, ih _ _ h.2⟩
      have hq' : q.1 ∈ List.range' (a + 1) n := h.2 ▸ List.mem_map_of_mem hq
      have := List.mem_range'_1.1 hq'
      omega

theorem storeWf_of_range {m : List (Nat × α)} {n : Nat} (h : m.map Prod.fst = List.range n) :
    storeWf m = true :=
  storeWf_of_range' m 0 n (by simpa [List.range_eq_range'] using h)

/-- Such a store has an entry exactly below `n`. -/
theorem storeRead_isSome_iff {m : List (Nat × α)} {n : Nat} (h : m.map Prod.fst = List.range n) (k : Nat) :
    (storeRead m k).isSome = true ↔ k < n := by
  constructor
  · intro hs
    obtain ⟨v, hv⟩ := Option.isSome_iff_exists.1 hs
    have : k ∈ m.map Prod.fst := List.mem_map_of_mem (mem_of_storeRead hv)
    simpa [h] using this
  · intro hk
    have : k ∈ m.map Prod.fst := by rw [h]; exact List.mem_range.2 hk
    obtain ⟨⟨_, v⟩, hv, rfl⟩ := List.mem_map.1 this
    rw [storeRead_of_mem (storeWf_of_range h) hv]; rfl

/-- Writing the next index extends the store by one entry at the end. -/
theorem storeWrite_next (m : List (Nat × α)) (n : Nat) (v : α) (h : ∀ p ∈ m, p.1 < n) :
    storeWrite m n v = m ++ [(n, v)] := by
  induction m with
  | nil => rfl
  | cons p m ih =>
    obtain ⟨a, u⟩ := p
    have ha : a < n := h (a, u) (by simp)
    simp only [storeWrite]
    rw [if_neg (by omega), if_neg (by omega), ih fun q hq => h q (List.mem_cons_of_mem _ hq)]
    rfl

/-- Writing an index that is listed keeps the indices. -/
theorem storeWrite_keys (m : List (Nat × α)) (k : Nat) (v : α) (hm : storeWf m = true)
    (h : k ∈ m.map Prod.fst) : (storeWrite m k v).map Prod.fst = m.map Prod.fst := by
  induction m with
  | nil => simp at h
  | cons p m ih =>
    obtain ⟨a, u⟩ := p
    simp only [storeWf, Bool.and_eq_true, List.all_eq_true, decide_eq_true_eq] at hm
    simp only [storeWrite]
    rw [List.map_cons, List.mem_cons] at h
    rcases h with hk | hk
    · simp only at hk
      simp [hk]
    · have : a < k := by
        obtain ⟨q, hq, rfl⟩ := List.mem_map.1 hk
        exact hm.1 q hq
      rw [if_neg (by omega), if_neg (by omega)]
      simp [ih hm.2 hk]

/-- The range of indices after the next one is written. -/
theorem storeWrite_range {m : List (Nat × α)} {n : Nat} (v : α) (h : m.map Prod.fst = List.range n) :
    (storeWrite m n v).map Prod.fst = List.range (n + 1) := by
  rw [storeWrite_next m n v, List.map_append, h, List.range_succ]
  · rfl
  · intro p hp
    have : p.1 ∈ m.map Prod.fst := List.mem_map_of_mem hp
    simpa [h] using this

/-- The range of indices after a listed one is written. -/
theorem storeWrite_range_of_lt {m : List (Nat × α)} {n k : Nat} (v : α) (h : m.map Prod.fst = List.range n)
    (hk : k < n) : (storeWrite m k v).map Prod.fst = List.range n := by
  rw [storeWrite_keys m k v (storeWf_of_range h) (by rw [h]; exact List.mem_range.2 hk), h]

/-! ## Code bits -/

theorem testBit_bitsToNat (bs : List Bit) (k : Nat) : (bitsToNat bs).testBit k = bs.getD k false := by
  induction bs generalizing k with
  | nil => simp [bitsToNat]
  | cons b bs ih =>
    cases k with
    | zero => cases b <;> simp [bitsToNat, Nat.testBit_zero, Nat.add_mul_mod_self_left]
    | succ k =>
      rw [Nat.testBit_succ]
      have : (bitsToNat (b :: bs)) / 2 = bitsToNat bs := by
        cases b <;> (simp [bitsToNat]; try omega)
      rw [this, ih]; simp

/-- Bit k of a packed list is its element k (R65). -/
theorem getLsbD_packBits (n : Nat) (bs : List Bit) (k : Nat) :
    (packBits n bs).getLsbD k = (decide (k < n) && bs.getD k false) := by
  simp [packBits, BitVec.getLsbD_ofNat, testBit_bitsToNat]

@[simp] theorem length_unpackBits {n : Nat} (len : Nat) (v : BitVec n) : (unpackBits len v).length = len := by
  simp [unpackBits]

/-- Unpacking gives back a list that fits (R65). -/
theorem unpackBits_packBits {n : Nat} {bs : List Bit} (h : bs.length ≤ n) :
    unpackBits bs.length (packBits n bs) = bs := by
  apply List.ext_getElem
  · simp
  · intro k h1 h2
    simp only [unpackBits, List.getElem_map, List.getElem_range, getLsbD_packBits]
    have : k < n := by omega
    simp [this, List.getElem?_eq_getElem h2]

/-- The bits of a path's CODE entry are the path, when it fits the entry (R31, R146). -/
theorem codeBits_codeOfPath {p : List Bit} (h : p.length ≤ 255) : codeBits (codeOfPath p) = p := by
  have : (codeOfPath p).clen.toNat = p.length := by
    simp [codeOfPath, BitVec.toNat_ofNat]; omega
  rw [codeBits, this]
  exact unpackBits_packBits h

/-! ## PRESENT -/

/-- Marking a symbol present (R30). -/
theorem isPresent_markPresent (s : State) (a b : Byte) :
    isPresent (markPresent a s) b = (isPresent s b || decide (b = a)) := by
  have ha := a.isLt
  have hb := b.isLt
  simp only [isPresent, markPresent, BitVec.getLsbD_or, BitVec.getLsbD_shiftLeft, BitVec.getLsbD_one]
  congr 1
  by_cases h : b = a
  · subst h; simp; omega
  · have : b.toNat ≠ a.toNat := fun hh => h (BitVec.eq_of_toNat_eq hh)
    simp [h]; omega

end Sys2Proof.Machine
end

