-- ==== Sys2Proof/Laws/Tree.lean ====
section
/-! SUPPORT. The laws of trees in node memory: sizes, reading only inside a tree's range, parents and paths. -/

namespace Sys2Proof.Machine

/-! ## Sizes (R123, R125) -/

theorem treeSize_pos (t : Tree) : 0 < treeSize t := by
  cases t <;> simp [treeSize]

/-- A full binary tree with L leaves has 2L - 1 nodes (R123). -/
theorem treeSize_succ (t : Tree) : treeSize t + 1 = 2 * (treeSymbols t).length := by
  induction t with
  | leaf s => rfl
  | internal l r ihl ihr => simp only [treeSize, treeSymbols, List.length_append]; omega

theorem treeSymbols_ne_nil (t : Tree) : treeSymbols t ≠ [] := by
  intro h
  have := treeSize_succ t
  rw [h] at this; simp at this

/-- There are at most 256 distinct symbols (R5). -/
theorem length_le_of_nodup {l : List Byte} (h : l.Nodup) : l.length ≤ 256 := by
  have h1 : (l.map BitVec.toNat).Nodup := h.map fun a b hab => BitVec.eq_of_toNat_eq hab
  have h2 : l.map BitVec.toNat ⊆ List.range 256 := by
    intro n hn
    obtain ⟨b, _, rfl⟩ := List.mem_map.1 hn
    exact List.mem_range.2 b.isLt
  simpa using (h1.subperm h2).length_le

/-- A tree with distinct leaf symbols fits node memory (R125). -/
theorem treeSize_le {t : Tree} (h : DistinctLeaves t) : treeSize t ≤ 511 := by
  have := treeSize_succ t
  have := length_le_of_nodup h
  omega

/-! ## A tree is determined by the entries of its range -/

theorem holdsAt_congr {m m' : List (Nat × Node)} {t : Tree} {i : Nat}
    (h : ∀ k, i ≤ k → k < i + treeSize t → storeRead m' k = storeRead m k) (ht : holdsAt m i t) :
    holdsAt m' i t := by
  induction t generalizing i with
  | leaf s =>
    simp only [holdsAt] at ht ⊢
    rw [h i le_rfl (by simp [treeSize]), ht]
  | internal l r ihl ihr =>
    simp only [holdsAt] at ht ⊢
    simp only [treeSize] at h
    refine ⟨?_, ihl (fun k h1 h2 => h k (by omega) (by omega)) ht.2.1,
      ihr (fun k h1 h2 => h k (by omega) (by omega)) ht.2.2⟩
    rw [h i le_rfl (by omega), ht.1]

/-- The entry of a tree's root. -/
theorem holdsAt_root {m : List (Nat × Node)} {t : Tree} {i : Nat} (ht : holdsAt m i t) :
    ∃ e, storeRead m i = some e ∧ (e.tag = .leaf ↔ ∃ s, t = .leaf s) := by
  cases t with
  | leaf s => exact ⟨_, ht, by simp⟩
  | internal l r => exact ⟨_, ht.1, by simp⟩

theorem toNat_ofNat9 {k : Nat} (h : k < 512) : (BitVec.ofNat 9 k).toNat = k := by
  rw [BitVec.toNat_ofNat]; exact Nat.mod_eq_of_lt (by omega)

theorem ofNat9_inj {j k : Nat} (hj : j < 512) (hk : k < 512) :
    BitVec.ofNat 9 j = BitVec.ofNat 9 k ↔ j = k := by
  constructor
  · intro h
    have := congrArg BitVec.toNat h
    rwa [toNat_ofNat9 hj, toNat_ofNat9 hk] at this
  · rintro rfl; rfl

/-! ## Parents (R119) -/

/-- The parent of index `j` in a tree laid out from `base`, and the side. -/
def parentIn : Tree → Nat → Nat → Nat × Bit
  | .leaf _, base, _ => (base, false)
  | .internal l r, base, j =>
    if j = base + 1 then (base, false)
    else if j = base + 1 + treeSize l then (base, true)
    else if j < base + 1 + treeSize l then parentIn l (base + 1) j
    else parentIn r (base + 1 + treeSize l) j

/-- The bits from the root to index `j`, going down. -/
def pathIn : Tree → Nat → Nat → List Bit
  | .leaf _, _, _ => []
  | .internal l r, base, j =>
    if j = base then []
    else if j < base + 1 + treeSize l then false :: pathIn l (base + 1) j
    else true :: pathIn r (base + 1 + treeSize l) j

theorem pathIn_base (t : Tree) (base : Nat) : pathIn t base base = [] := by
  cases t <;> simp [pathIn]

/-- The parent lies before its child, inside the tree. -/
theorem parentIn_lt {t : Tree} {base j : Nat} (h1 : base < j) (h2 : j < base + treeSize t) :
    base ≤ (parentIn t base j).1 ∧ (parentIn t base j).1 < j := by
  induction t generalizing base with
  | leaf s => simp [treeSize] at h2; omega
  | internal l r ihl ihr =>
    simp only [treeSize] at h2
    simp only [parentIn]
    split
    · simp; omega
    · split
      · simp; omega
      · split
        · have := ihl (base := base + 1) (by omega) (by omega); omega
        · have := ihr (base := base + 1 + treeSize l) (by omega) (by omega); omega

/-- A path is the parent's path and one more bit (R119). -/
theorem pathIn_eq_append {t : Tree} {base j : Nat} (h1 : base < j) (h2 : j < base + treeSize t) :
    pathIn t base j = pathIn t base (parentIn t base j).1 ++ [(parentIn t base j).2] := by
  induction t generalizing base with
  | leaf s => simp [treeSize] at h2; omega
  | internal l r ihl ihr =>
    simp only [treeSize] at h2
    have hl := treeSize_pos l
    have hj : j ≠ base := by omega
    by_cases ha : j = base + 1
    · subst ha
      simp [pathIn, parentIn, pathIn_base, hl]
    · by_cases hb : j = base + 1 + treeSize l
      · subst hb
        simp [pathIn, parentIn, pathIn_base, hl.ne']
        omega
      · by_cases hc : j < base + 1 + treeSize l
        · have hp := parentIn_lt (t := l) (base := base + 1) (j := j) (by omega) (by omega)
          simp only [pathIn, parentIn, if_neg hj, if_neg ha, if_neg hb, if_pos hc]
          rw [if_neg (by omega), if_pos (by omega), ihl (base := base + 1) (by omega) (by omega)]
          rfl
        · have hp := parentIn_lt (t := r) (base := base + 1 + treeSize l) (j := j) (by omega) (by omega)
          simp only [pathIn, parentIn, if_neg hj, if_neg ha, if_neg hb, if_neg hc]
          rw [if_neg (by omega), if_neg (by omega), ihr (base := base + 1 + treeSize l) (by omega) (by omega)]
          rfl

/-- The parent's entry in node memory has the child on that side. -/
theorem childSide_parentIn {m : List (Nat × Node)} {t : Tree} {base j : Nat} (ht : holdsAt m base t)
    (hb : base + treeSize t ≤ 512) (h1 : base < j) (h2 : j < base + treeSize t) :
    ∃ e, storeRead m (parentIn t base j).1 = some e ∧
      childSide (BitVec.ofNat 9 j) e = some (parentIn t base j).2 := by
  induction t generalizing base with
  | leaf s => simp [treeSize] at h2; omega
  | internal l r ihl ihr =>
    simp only [treeSize] at h2 hb
    simp only [holdsAt] at ht
    have hl := treeSize_pos l
    simp only [parentIn]
    split
    · subst j; exact ⟨_, ht.1, by simp [childSide]⟩
    · split
      · rename_i hne heq
        subst j
        refine ⟨_, ht.1, ?_⟩
        have := (ofNat9_inj (j := base + 1) (k := base + 1 + treeSize l) (by omega) (by omega)).not.2 (by omega)
        simp [childSide, this]
      · split
        · exact ihl ht.2.1 (by omega) (by omega) (by omega)
        · exact ihr ht.2.2 (by omega) (by omega) (by omega)

/-- A child's entry determines the child: no other index of the tree has it. -/
theorem parentIn_unique {m : List (Nat × Node)} {t : Tree} {base j k : Nat} {e : Node} {x : Bit}
    (ht : holdsAt m base t) (hb : base + treeSize t ≤ 512) (hk1 : base ≤ k) (hk2 : k < base + treeSize t)
    (he : storeRead m k = some e) (hj : j < 512) (hc : childSide (BitVec.ofNat 9 j) e = some x) :
    base < j ∧ j < base + treeSize t ∧ parentIn t base j = (k, x) := by
  induction t generalizing base with
  | leaf s =>
    simp only [treeSize] at hk2
    obtain rfl : k = base := by omega
    rw [holdsAt] at ht
    rw [ht] at he
    simp only [Option.some.injEq] at he
    subst he
    simp [childSide] at hc
  | internal l r ihl ihr =>
    simp only [treeSize] at hk2 hb ⊢
    simp only [holdsAt] at ht
    have hl := treeSize_pos l
    have hr := treeSize_pos r
    by_cases hkb : k = base
    · subst hkb
      rw [ht.1, Option.some.injEq] at he
      subst he
      simp only [childSide, Option.some.injEq] at hc
      split at hc
      · rename_i h
        rw [ofNat9_inj (by omega) hj] at h
        subst h
        simp only [Option.some.injEq] at hc
        subst hc
        simp [parentIn]; omega
      · split at hc
        · rename_i h1 h
          rw [ofNat9_inj (by omega) hj] at h
          subst h
          simp only [Option.some.injEq] at hc
          subst hc
          simp [parentIn, hl.ne']; omega
        · simp at hc
    · by_cases hkl : k < base + 1 + treeSize l
      · obtain ⟨g1, g2, g3⟩ := ihl (base := base + 1) ht.2.1 (by omega) (by omega) (by omega)
        refine ⟨by omega, by omega, ?_⟩
        rw [parentIn, if_neg (by omega), if_neg (by omega), if_pos (by omega), g3]
      · obtain ⟨g1, g2, g3⟩ := ihr (base := base + 1 + treeSize l) ht.2.2 (by omega) (by omega) (by omega)
        refine ⟨by omega, by omega, ?_⟩
        rw [parentIn, if_neg (by omega), if_neg (by omega), if_neg (by omega), g3]

theorem findSome?_eq_of_unique {α β : Type} {l : List α} {f : α → Option β} {v : β}
    (h1 : ∃ a ∈ l, f a = some v) (h2 : ∀ a ∈ l, ∀ w, f a = some w → w = v) : l.findSome? f = some v := by
  induction l with
  | nil => simp at h1
  | cons a l ih =>
    rw [List.findSome?_cons]
    split
    · rename_i b hb
      rw [h2 a (by simp) b hb]
    · rename_i hn
      obtain ⟨c, hc, hfc⟩ := h1
      rcases List.mem_cons.1 hc with rfl | hc
      · simp [hn] at hfc
      · exact ih ⟨c, hc, hfc⟩ fun a ha => h2 a (List.mem_cons_of_mem _ ha)

/-- `parentOf` finds the parent in a complete tree (R119). -/
theorem parentOf_eq {s : State} {t : Tree} {j : Nat} (hk : s.nodes.map Prod.fst = List.range s.ncnt.toNat)
    (ht : holdsAt s.nodes 0 t) (hn : s.ncnt.toNat = treeSize t) (hb : treeSize t ≤ 511) (h1 : 0 < j)
    (h2 : j < treeSize t) :
    parentOf s (BitVec.ofNat 9 j) = some (BitVec.ofNat 9 (parentIn t 0 j).1, (parentIn t 0 j).2) := by
  have hwf := storeWf_of_range hk
  have hp := parentIn_lt (t := t) (base := 0) (j := j) h1 (by omega)
  apply findSome?_eq_of_unique
  · obtain ⟨e, he, hc⟩ := childSide_parentIn ht (by omega) h1 (by omega)
    refine ⟨_, mem_of_storeRead he, ?_⟩
    rw [if_pos (by simp only; omega)]
    simp [hc]
  · rintro ⟨k, e⟩ hke w hw
    simp only at hw
    split at hw
    · rename_i hlt
      obtain ⟨x, hx, rfl⟩ := Option.map_eq_some_iff.1 hw
      have := parentIn_unique ht (by omega) (Nat.zero_le k) (by omega) (storeRead_of_mem hwf hke) (by omega) hx
      rw [this.2.2]
    · simp at hw

/-- Path(i) in a complete tree is the way down to i (R119). -/
theorem pathUp_eq {s : State} {t : Tree} {j fuel : Nat} (hk : s.nodes.map Prod.fst = List.range s.ncnt.toNat)
    (ht : holdsAt s.nodes 0 t) (hn : s.ncnt.toNat = treeSize t) (hb : treeSize t ≤ 511) (h2 : j < treeSize t)
    (hf : j ≤ fuel) : pathUp s fuel (BitVec.ofNat 9 j) = pathIn t 0 j := by
  induction fuel generalizing j with
  | zero =>
    obtain rfl : j = 0 := by omega
    simp [pathUp, pathIn_base]
  | succ fuel ih =>
    rw [pathUp]
    by_cases hj : j = 0
    · subst hj; simp [pathIn_base]
    · have hp := parentIn_lt (t := t) (base := 0) (j := j) (by omega) (by omega)
      rw [if_neg, parentOf_eq hk ht hn hb (by omega) h2]
      · simp only
        rw [ih (by omega) (by omega), ← pathIn_eq_append (by omega) (by omega)]
      · intro h
        exact hj ((ofNat9_inj (j := j) (k := 0) (by omega) (by omega)).1 h)

theorem path_eq {s : State} {t : Tree} {j : Nat} (hk : s.nodes.map Prod.fst = List.range s.ncnt.toNat)
    (ht : holdsAt s.nodes 0 t) (hn : s.ncnt.toNat = treeSize t) (hb : treeSize t ≤ 511) (h2 : j < treeSize t) :
    path s (BitVec.ofNat 9 j) = pathIn t 0 j :=
  pathUp_eq hk ht hn hb h2 (by simp [Config.nodeCap]; omega)

/-! ## Leaves and codes (R215) -/

/-- The leaves of a tree laid out from `base`: index and symbol. -/
def leavesIn : Tree → Nat → List (Nat × Byte)
  | .leaf s, base => [(base, s)]
  | .internal l r, base => leavesIn l (base + 1) ++ leavesIn r (base + 1 + treeSize l)

theorem leavesIn_symbols (t : Tree) (base : Nat) : (leavesIn t base).map Prod.snd = treeSymbols t := by
  induction t generalizing base with
  | leaf s => rfl
  | internal l r ihl ihr => simp [leavesIn, treeSymbols, ihl, ihr]

theorem leavesIn_range {t : Tree} {base : Nat} {p : Nat × Byte} (h : p ∈ leavesIn t base) :
    base ≤ p.1 ∧ p.1 < base + treeSize t := by
  induction t generalizing base with
  | leaf s => simp only [leavesIn, List.mem_singleton] at h; subst h; simp [treeSize]
  | internal l r ihl ihr =>
    simp only [leavesIn, List.mem_append] at h
    simp only [treeSize]
    rcases h with h | h
    · have := ihl h; omega
    · have := ihr h; omega

/-- The leaf entries of node memory are the tree's leaves. -/
theorem mem_leavesIn_iff {m : List (Nat × Node)} {t : Tree} {base k : Nat} {e : Node} (ht : holdsAt m base t)
    (hk1 : base ≤ k) (hk2 : k < base + treeSize t) (he : storeRead m k = some e) (b : Byte) :
    (k, b) ∈ leavesIn t base ↔ e.tag = .leaf ∧ e.sym = b := by
  induction t generalizing base with
  | leaf s =>
    simp only [treeSize] at hk2
    obtain rfl : k = base := by omega
    rw [holdsAt] at ht
    rw [ht, Option.some.injEq] at he
    subst he
    simp [leavesIn, eq_comm]
  | internal l r ihl ihr =>
    simp only [treeSize] at hk2
    simp only [holdsAt] at ht
    simp only [leavesIn, List.mem_append]
    by_cases hkb : k = base
    · subst hkb
      rw [ht.1, Option.some.injEq] at he
      subst he
      simp only [reduceCtorEq, false_and, iff_false, not_or]
      refine ⟨fun h => ?_, fun h => ?_⟩ <;> have := leavesIn_range h <;> simp only at this <;> omega
    · by_cases hkl : k < base + 1 + treeSize l
      · rw [← ihl ht.2.1 (by omega) (by omega)]
        refine ⟨fun h => h.resolve_right fun h => ?_, .inl⟩
        have := leavesIn_range h; simp only at this; omega
      · rw [← ihr ht.2.2 (by omega) (by omega)]
        refine ⟨fun h => h.resolve_left fun h => ?_, .inr⟩
        have := leavesIn_range h; simp only at this; omega

theorem walkCodes_eq (t : Tree) (base : Nat) (p : List Bit) :
    walkCodes t p = (leavesIn t base).map fun q => (q.2, p ++ pathIn t base q.1) := by
  induction t generalizing base p with
  | leaf s => simp [walkCodes, leavesIn, pathIn]
  | internal l r ihl ihr =>
    rw [walkCodes, leavesIn, List.map_append, ihl (base + 1), ihr (base + 1 + treeSize l)]
    congr 1
    · apply List.map_congr_left
      intro q hq
      have := leavesIn_range hq
      simp only [pathIn]
      rw [if_neg (by omega), if_pos (by omega)]
      simp
    · apply List.map_congr_left
      intro q hq
      have := leavesIn_range hq
      simp only [pathIn]
      rw [if_neg (by omega), if_neg (by omega)]
      simp

theorem lookup_of_nodup {β : Type} {l : List (Byte × β)} {b : Byte} {v : β} (hn : (l.map Prod.fst).Nodup)
    (h : (b, v) ∈ l) : l.lookup b = some v := by
  induction l with
  | nil => simp at h
  | cons p l ih =>
    obtain ⟨c, w⟩ := p
    simp only [List.map_cons, List.nodup_cons] at hn
    rcases List.mem_cons.1 h with h | h
    · simp only [Prod.mk.injEq] at h
      simp [List.lookup, h.1, h.2]
    · have hbc : b ≠ c := fun hh => hn.1 (hh ▸ List.mem_map_of_mem (f := Prod.fst) h)
      have : (b == c) = false := by simpa using hbc
      simp only [List.lookup, this]
      exact ih hn.2 h

/-- The code of a leaf's symbol in Codes(T) is the path to the leaf (R141, R215). -/
theorem codeIn_eq {t : Tree} (hd : DistinctLeaves t) {k : Nat} {b : Byte} (h : (k, b) ∈ leavesIn t 0) :
    codeIn t b = pathIn t 0 k := by
  have h1 : codes t = (leavesIn t 0).map fun q => (q.2, [] ++ pathIn t 0 q.1) := walkCodes_eq t 0 []
  have h2 : ((codes t).map Prod.fst).Nodup := by
    rw [h1, List.map_map]
    have : (leavesIn t 0).map (Prod.fst ∘ fun q : Nat × Byte => (q.2, [] ++ pathIn t 0 q.1)) = treeSymbols t := by
      rw [← leavesIn_symbols t 0]; rfl
    rw [this]; exact hd
  have h3 : (b, pathIn t 0 k) ∈ codes t := by
    rw [h1]
    exact List.mem_map.2 ⟨(k, b), h, by simp⟩
  rw [codeIn, lookup_of_nodup h2 h3]; rfl

theorem pathIn_length_lt {t : Tree} {base j : Nat} (h1 : base ≤ j) (h2 : j < base + treeSize t) :
    (pathIn t base j).length < (treeSymbols t).length := by
  induction t generalizing base with
  | leaf s => simp [pathIn, treeSymbols]
  | internal l r ihl ihr =>
    simp only [treeSize] at h2
    simp only [treeSymbols, List.length_append, pathIn]
    have hl := List.length_pos_iff.2 (treeSymbols_ne_nil l)
    have hr := List.length_pos_iff.2 (treeSymbols_ne_nil r)
    split
    · simp; omega
    · split
      · have := ihl (base := base + 1) (by omega) (by omega)
        simp only [List.length_cons]; omega
      · have := ihr (base := base + 1 + treeSize l) (by omega) (by omega)
        simp only [List.length_cons]; omega

/-- Every symbol of a tree has a leaf. -/
theorem exists_leafIn {t : Tree} {b : Byte} (h : b ∈ treeSymbols t) (base : Nat) :
    ∃ k, (k, b) ∈ leavesIn t base := by
  rw [← leavesIn_symbols t base] at h
  obtain ⟨⟨k, c⟩, hk, rfl⟩ := List.mem_map.1 h
  exact ⟨k, hk⟩

/-- A code has at most NLEAF - 1 bits (R125). -/
theorem codeIn_length_lt {t : Tree} (hd : DistinctLeaves t) {b : Byte} (h : b ∈ treeSymbols t) :
    (codeIn t b).length < (treeSymbols t).length := by
  obtain ⟨k, hk⟩ := exists_leafIn h 0
  have := leavesIn_range hk
  rw [codeIn_eq hd hk]
  exact pathIn_length_lt (by omega) (by simpa using this.2)

/-- Each leaf symbol stands at one index. -/
theorem leafIn_index_unique {t : Tree} (hd : DistinctLeaves t) {base j k : Nat} {b : Byte}
    (hj : (j, b) ∈ leavesIn t base) (hk : (k, b) ∈ leavesIn t base) : j = k := by
  have hn : ((leavesIn t base).map Prod.snd).Nodup := by rw [leavesIn_symbols]; exact hd
  have := List.inj_on_of_nodup_map hn hj hk rfl
  simpa using this

end Sys2Proof.Machine
end

