-- ==== Sys2Proof/Laws/Loader.lean ====
section
/-! SUPPORT. The laws of the loader: what an allocation does to an incomplete tree, and what Complete writes into CODE
(spec/41_tree_load.md R115 to R119). -/

namespace Sys2Proof.Machine

/-! ## Growing a tree: an incomplete or a complete tree, and filling the top slot -/

/-- A subtree in the making: incomplete, or complete. -/
abbrev Growth := Partial ⊕ Tree

/-- An internal node whose left child is `x`. -/
def growLeft : Growth → Growth
  | .inl q => .inl (.inLeft q)
  | .inr t => .inl (.atRight t)

/-- An internal node whose left subtree is `l` and whose right child is `x`. -/
def growRight (l : Tree) : Growth → Growth
  | .inl q => .inl (.inRight l q)
  | .inr t => .inr (.internal l t)

/-- Fill the top slot of an incomplete tree. -/
def attach : Partial → Growth → Growth
  | .fresh, x => growLeft x
  | .inLeft p, x => growLeft (attach p x)
  | .atRight l, x => growRight l x
  | .inRight l p, x => growRight l (attach p x)

def growthSize : Growth → Nat
  | .inl p => partialSize p
  | .inr t => treeSize t

def growthSymbols : Growth → List Byte
  | .inl p => partialSymbols p
  | .inr t => treeSymbols t

def growthBytes : Growth → List Byte
  | .inl p => partialBytes p
  | .inr t => serialize t

def growthSlots (i : Nat) : Growth → List Slot
  | .inl p => partialSlots i p
  | .inr _ => []

def growthHolds (m : List (Nat × Node)) (i : Nat) : Growth → Prop
  | .inl p => partialHolds m i p
  | .inr t => holdsAt m i t

theorem growLeft_size (x : Growth) : growthSize (growLeft x) = 1 + growthSize x := by
  cases x <;> rfl

theorem growRight_size (l : Tree) (x : Growth) : growthSize (growRight l x) = 1 + treeSize l + growthSize x := by
  cases x <;> rfl

theorem attach_size (p : Partial) (x : Growth) : growthSize (attach p x) = partialSize p + growthSize x := by
  induction p with
  | fresh => rw [attach, growLeft_size]; rfl
  | inLeft p ih => rw [attach, growLeft_size, ih]; simp only [partialSize]; omega
  | atRight l => rw [attach, growRight_size]; rfl
  | inRight l p ih => rw [attach, growRight_size, ih]; simp only [partialSize]; omega

theorem attach_symbols (p : Partial) (x : Growth) :
    growthSymbols (attach p x) = partialSymbols p ++ growthSymbols x := by
  have hl : ∀ x, growthSymbols (growLeft x) = growthSymbols x := by intro x; cases x <;> rfl
  have hr : ∀ l x, growthSymbols (growRight l x) = treeSymbols l ++ growthSymbols x := by
    intro l x; cases x <;> rfl
  induction p with
  | fresh => rw [attach, hl]; rfl
  | inLeft p ih => rw [attach, hl, ih]; rfl
  | atRight l => rw [attach, hr]; rfl
  | inRight l p ih => rw [attach, hr, ih]; simp [partialSymbols]

/-- The bytes that make the filled tree are those of the incomplete tree, then those of what fills the slot (R121). -/
theorem attach_bytes (p : Partial) (x : Growth) :
    growthBytes (attach p x) = partialBytes p ++ growthBytes x := by
  have hl : ∀ x, growthBytes (growLeft x) = 0x30 :: growthBytes x := by intro x; cases x <;> rfl
  have hr : ∀ l x, growthBytes (growRight l x) = 0x30 :: (serialize l ++ growthBytes x) := by
    intro l x; cases x <;> rfl
  induction p with
  | fresh => rw [attach, hl]; rfl
  | inLeft p ih => rw [attach, hl, ih]; rfl
  | atRight l => rw [attach, hr]; rfl
  | inRight l p ih => rw [attach, hr, ih]; simp [partialBytes]

theorem partialSize_pos (p : Partial) : 0 < partialSize p := by
  cases p <;> simp [partialSize]

theorem growthSize_pos (x : Growth) : 0 < growthSize x := by
  cases x with
  | inl p => exact partialSize_pos p
  | inr t => exact treeSize_pos t

/-- Filling with an incomplete subtree leaves an incomplete tree. -/
theorem attach_inl (p q : Partial) : ∃ r, attach p (.inl q) = .inl r := by
  induction p with
  | fresh => exact ⟨_, rfl⟩
  | inLeft p ih => obtain ⟨r, hr⟩ := ih; exact ⟨.inLeft r, by rw [attach, hr]; rfl⟩
  | atRight l => exact ⟨_, rfl⟩
  | inRight l p ih => obtain ⟨r, hr⟩ := ih; exact ⟨.inRight l r, by rw [attach, hr]; rfl⟩

/-- Filling the slot of what filled a slot. -/
theorem attach_attach {p q r : Partial} (h : attach p (.inl q) = .inl r) (x : Growth) :
    attach r x = attach p (attach q x) := by
  induction p generalizing r with
  | fresh => rw [attach, growLeft, Sum.inl.injEq] at h; subst h; rfl
  | inLeft p ih =>
    obtain ⟨r', hr'⟩ := attach_inl p q
    rw [attach, hr', growLeft, Sum.inl.injEq] at h; subst h
    rw [attach, attach, ih hr']
  | atRight l => rw [attach, growRight, Sum.inl.injEq] at h; subst h; rfl
  | inRight l p ih =>
    obtain ⟨r', hr'⟩ := attach_inl p q
    rw [attach, hr', growRight, Sum.inl.injEq] at h; subst h
    rw [attach, attach, ih hr']

/-! ## Slots -/

/-- The top slot of an incomplete tree: the node and the side that the next allocation fills (R28). -/
def topSlot : Nat → Partial → Nat × Bit
  | i, .fresh => (i, false)
  | i, .inLeft p => topSlot (i + 1) p
  | i, .atRight _ => (i, true)
  | i, .inRight l p => topSlot (i + 1 + treeSize l) p

theorem partialSlots_eq (i : Nat) (p : Partial) :
    partialSlots i p = ⟨BitVec.ofNat 9 (topSlot i p).1, (topSlot i p).2⟩ :: (partialSlots i p).tail := by
  induction p generalizing i with
  | fresh => rfl
  | inLeft p ih => rw [partialSlots, ih]; simp [topSlot]
  | atRight l => rfl
  | inRight l p ih => rw [partialSlots, ih]; simp [topSlot]

theorem partialSlots_ne_nil (i : Nat) (p : Partial) : partialSlots i p ≠ [] := by
  rw [partialSlots_eq]; simp

theorem topSlot_range (i : Nat) (p : Partial) : i ≤ (topSlot i p).1 ∧ (topSlot i p).1 < i + partialSize p := by
  induction p generalizing i with
  | fresh => simp [topSlot, partialSize]
  | inLeft p ih => have := ih (i + 1); simp only [topSlot, partialSize]; omega
  | atRight l => simp [topSlot, partialSize]
  | inRight l p ih => have := ih (i + 1 + treeSize l); simp only [topSlot, partialSize]; omega

/-- The slots after the top one is filled: those of what filled it, then the rest (R115, R116). -/
theorem attach_slots (i : Nat) (p : Partial) (x : Growth) :
    growthSlots i (attach p x) = growthSlots (i + partialSize p) x ++ (partialSlots i p).tail := by
  have hl : ∀ i x, growthSlots i (growLeft x) = growthSlots (i + 1) x ++ [⟨BitVec.ofNat 9 i, true⟩] := by
    intro i x; cases x <;> rfl
  have hr : ∀ i l x, growthSlots i (growRight l x) = growthSlots (i + 1 + treeSize l) x := by
    intro i l x; cases x <;> rfl
  induction p generalizing i with
  | fresh => rw [attach, hl]; rfl
  | inLeft p ih =>
    rw [attach, hl, ih, partialSize, partialSlots, List.tail_append_of_ne_nil (partialSlots_ne_nil _ _)]
    simp [Nat.add_assoc]
  | atRight l => rw [attach, hr]; simp [partialSize, partialSlots, Nat.add_assoc]
  | inRight l p ih => rw [attach, hr, ih]; simp [partialSize, partialSlots, Nat.add_assoc]

theorem partialSlots_length (i : Nat) (p : Partial) :
    (partialSlots i p).length + 2 * (partialSymbols p).length = partialSize p + 1 := by
  induction p generalizing i with
  | fresh => rfl
  | inLeft p ih => have := ih (i + 1); simp only [partialSlots, partialSymbols, partialSize, List.length_append,
      List.length_singleton]; omega
  | atRight l =>
    have := treeSize_succ l
    simp only [partialSlots, partialSymbols, partialSize, List.length_singleton]; omega
  | inRight l p ih =>
    have := ih (i + 1 + treeSize l)
    have := treeSize_succ l
    simp only [partialSlots, partialSymbols, partialSize, List.length_append]; omega

/-! ## Holding: writing the next node and linking it -/

theorem partialHolds_congr {m m' : List (Nat × Node)} {p : Partial} {i : Nat}
    (h : ∀ k, i ≤ k → k < i + partialSize p → storeRead m' k = storeRead m k) (hp : partialHolds m i p) :
    partialHolds m' i p := by
  induction p generalizing i with
  | fresh =>
    simp only [partialHolds] at hp ⊢
    rw [h i le_rfl (by simp [partialSize]), hp]
  | inLeft p ih =>
    simp only [partialHolds, partialSize] at hp h ⊢
    exact ⟨by rw [h i le_rfl (by omega), hp.1], ih (fun k h1 h2 => h k (by omega) (by omega)) hp.2⟩
  | atRight l =>
    simp only [partialHolds, partialSize] at hp h ⊢
    exact ⟨by rw [h i le_rfl (by omega), hp.1],
      holdsAt_congr (fun k h1 h2 => h k (by omega) (by omega)) hp.2⟩
  | inRight l p ih =>
    simp only [partialHolds, partialSize] at hp h ⊢
    exact ⟨by rw [h i le_rfl (by omega), hp.1],
      holdsAt_congr (fun k h1 h2 => h k (by omega) (by omega)) hp.2.1,
      ih (fun k h1 h2 => h k (by omega) (by omega)) hp.2.2⟩

/-- The entry of the top slot's node. -/
theorem partialHolds_top {m : List (Nat × Node)} {p : Partial} {i : Nat} (hp : partialHolds m i p) :
    ∃ e, storeRead m (topSlot i p).1 = some e ∧ e.tag = .internal ∧
      (if (topSlot i p).2 then e.right else e.left) = none := by
  induction p generalizing i with
  | fresh => exact ⟨_, hp, rfl, rfl⟩
  | inLeft p ih => exact ih hp.2
  | atRight l => exact ⟨_, hp.1, rfl, rfl⟩
  | inRight l p ih => exact ih hp.2.2

/-- If the top slot's node is linked to the index after the tree, and `x` stands there, the filled tree is held. -/
theorem attach_holds {m m' : List (Nat × Node)} {p : Partial} {i : Nat} {x : Growth} (hp : partialHolds m i p)
    (hx : growthHolds m' (i + partialSize p) x)
    (hr : ∀ k, i ≤ k → k < i + partialSize p → storeRead m' k =
      if k = (topSlot i p).1 then
        (storeRead m k).map (setChild (topSlot i p).2 (BitVec.ofNat 9 (i + partialSize p)))
      else storeRead m k) :
    growthHolds m' i (attach p x) := by
  induction p generalizing i with
  | fresh =>
    have h0 := hr i le_rfl (by simp [partialSize])
    rw [partialHolds] at hp
    simp [topSlot, hp, partialSize, setChild] at h0
    cases x with
    | inl q => exact ⟨h0, hx⟩
    | inr t => exact ⟨h0, hx⟩
  | inLeft p ih =>
    rw [partialHolds] at hp
    have ht := topSlot_range (i + 1) p
    have h0 := hr i le_rfl (by simp [partialSize])
    rw [topSlot, if_neg (by omega), hp.1] at h0
    rw [partialSize, ← Nat.add_assoc] at hx hr
    have := ih hp.2 hx fun k h1 h2 => hr k (by omega) (by omega)
    rw [attach]
    revert this
    cases attach p x with
    | inl q => exact fun h => ⟨h0, h⟩
    | inr t => exact fun h => ⟨h0, h⟩
  | atRight l =>
    rw [partialHolds] at hp
    have h0 := hr i le_rfl (by simp [partialSize])
    simp [topSlot, hp, partialSize, setChild, ← Nat.add_assoc] at h0
    have hl : holdsAt m' (i + 1) l := holdsAt_congr (fun k h1 h2 => by
      rw [hr k (by omega) (by simp only [partialSize]; omega), topSlot, if_neg (by omega)]) hp.2
    rw [partialSize, ← Nat.add_assoc] at hx
    cases x with
    | inl q => exact ⟨h0, hl, hx⟩
    | inr t => exact ⟨h0, hl, hx⟩
  | inRight l p ih =>
    rw [partialHolds] at hp
    have ht := topSlot_range (i + 1 + treeSize l) p
    have h0 := hr i le_rfl (by simp only [partialSize]; omega)
    rw [topSlot, if_neg (by omega), hp.1] at h0
    have hl : holdsAt m' (i + 1) l := holdsAt_congr (fun k h1 h2 => by
      rw [hr k (by omega) (by simp only [partialSize]; omega), topSlot, if_neg (by omega)]) hp.2.1
    rw [partialSize, ← Nat.add_assoc, ← Nat.add_assoc] at hx hr
    have := ih hp.2.2 hx fun k h1 h2 => hr k (by omega) (by omega)
    rw [attach]
    revert this
    cases attach p x with
    | inl q => exact fun h => ⟨h0, hl, h⟩
    | inr t => exact fun h => ⟨h0, hl, h⟩

end Sys2Proof.Machine
end

