-- ==== Sys2Proof/Laws/Alloc.lean ====
section
/-! SUPPORT. What Alloc and Complete do to a state that loads a tree: one lemma each (spec/41_tree_load.md R115,
R118). -/

namespace Sys2Proof.Machine

/-- What an allocated node is before anything fills its slots. -/
def seed : Tag → Byte → Growth
  | .internal, _ => .inl .fresh
  | .leaf, b => .inr (.leaf b)

/-- The state holds exactly a tree in the making: its entries, its pending slots, its counts (R115). -/
structure Grown (s : State) (x : Growth) : Prop where
  keys : s.nodes.map Prod.fst = List.range s.ncnt.toNat
  holds : growthHolds s.nodes 0 x
  slots : s.slots = growthSlots 0 x
  counts : CountsLeaves s (growthSize x) (growthSymbols x)

theorem toNat_ncnt_succ {n : BitVec 10} (h : n.toNat < 1023) : (n + 1).toNat = n.toNat + 1 := by
  rw [BitVec.toNat_add]; simp; omega

theorem toNat_nleaf_succ {n : BitVec 9} (h : n.toNat < 511) : (n + 1).toNat = n.toNat + 1 := by
  rw [BitVec.toNat_add]; simp; omega

/-- The index of the next node, as a node index (R115). -/
theorem ncnt_setWidth {n : BitVec 10} : n.setWidth 9 = BitVec.ofNat 9 n.toNat := by
  apply BitVec.eq_of_toNat_eq; simp

/-- What `growTree` adds to the counts, once the new node is counted. -/
theorem growTree_counts {s t : State} {tag : Tag} {b : Byte} {n : NodeIdx} {size : Nat} {syms : List Byte}
    (hc : CountsLeaves s size syms) (hsize : size < 511) (hb : tag = .leaf → b ∉ syms)
    (h1 : t.ncnt = s.ncnt + 1) (h2 : t.nleaf = s.nleaf) (h3 : t.present = s.present) :
    CountsLeaves (growTree tag b n t) (size + growthSize (seed tag b)) (syms ++ growthSymbols (seed tag b)) := by
  have hn : t.ncnt.toNat = size + 1 := by rw [h1, toNat_ncnt_succ (by rw [hc.ncnt]; omega), hc.ncnt]
  have hp : ∀ a : Byte, isPresent t a = isPresent s a := by intro a; simp [isPresent, h3]
  have hle := length_le_of_nodup hc.distinct
  cases tag with
  | internal =>
    refine ⟨hn, ?_, ?_, ?_⟩
    · simp [growTree, seed, growthSymbols, partialSymbols, h2, hc.nleaf]
    · simpa [seed, growthSymbols, partialSymbols] using hc.distinct
    · intro a
      simp only [seed, growthSymbols, partialSymbols, List.append_nil]
      rw [← hc.present a, ← hp a]; rfl
  | leaf =>
    have hnot := hb rfl
    refine ⟨hn, ?_, ?_, ?_⟩
    · simp only [growTree, seed, growthSymbols, treeSymbols, List.length_append, List.length_singleton, h2]
      rw [toNat_nleaf_succ (by rw [hc.nleaf]; omega), hc.nleaf]
    · simp only [seed, growthSymbols, treeSymbols]
      exact List.nodup_append.2 ⟨hc.distinct, by simp, by
        intro a ha c hcc hac
        simp only [List.mem_singleton] at hcc
        exact hnot (hcc ▸ hac ▸ ha)⟩
    · intro a
      have : isPresent (growTree .leaf b n t) a = isPresent (markPresent b t) a := rfl
      rw [this, isPresent_markPresent, hp a]
      simp [seed, growthSymbols, treeSymbols, hc.present a]

/-- The first node of a stream (R115). -/
theorem allocNode_first {s : State} (hk : s.nodes.map Prod.fst = List.range s.ncnt.toNat) (hn : NoNodes s)
    (tag : Tag) (b : Byte) : Grown (allocNode tag b s) (seed tag b) := by
  have hnil : s.nodes = [] := by rw [hn.ncnt] at hk; simpa using hk
  have hc : CountsLeaves s 0 [] :=
    ⟨by simp [hn.ncnt], by simp [hn.nleaf], by simp, by intro a; simp [isPresent, hn.present]⟩
  have hidx : nextIndex s = 0 := by simp [nextIndex, hn.ncnt]
  have hplace : placeNode tag b (nextIndex s) s = nodeWrite 0 (newNode tag b) s := by
    rw [placeNode, if_pos hn.ncnt, hidx]
  have hcount := growTree_counts (tag := tag) (b := b) (n := nextIndex s)
    (t := countNode (nodeWrite 0 (newNode tag b) s)) hc (by omega) (by simp) rfl rfl rfl
  rw [allocNode, hplace]
  refine ⟨?_, ?_, ?_, by simpa using hcount⟩
  · cases tag <;> simp [growTree, countNode, markPresent, hnil, hn.ncnt, storeWrite]
  · cases tag <;> simp [growTree, countNode, markPresent, hnil, storeWrite, seed, growthHolds, holdsAt,
      partialHolds, storeRead, newNode]
  · cases tag <;> simp [growTree, countNode, hn.slots, hidx, seed, growthSlots, partialSlots]

/-- A later node: it is linked into the top slot (R115). -/
theorem allocNode_next {s : State} {p : Partial} (hk : s.nodes.map Prod.fst = List.range s.ncnt.toNat)
    (hp : LoadsPartial s p) (hsize : partialSize p < 511) (tag : Tag) (b : Byte)
    (hb : tag = .leaf → b ∉ partialSymbols p) : Grown (allocNode tag b s) (attach p (seed tag b)) := by
  have hn := hp.counts.ncnt
  have hpos := partialSize_pos p
  have htop := topSlot_range 0 p
  set n := partialSize p with hndef
  set e : Node := newNode tag b with hedef
  have hn0 : s.ncnt ≠ 0 := by
    intro h; rw [h] at hn; simp at hn; omega
  have hidx : nextIndex s = BitVec.ofNat 9 n := by rw [nextIndex, ncnt_setWidth, hn]
  have hidxNat : (BitVec.ofNat 9 n).toNat = n := toNat_ofNat9 (by omega)
  have hparNat : (BitVec.ofNat 9 (topSlot 0 p).1).toNat = (topSlot 0 p).1 := toNat_ofNat9 (by omega)
  obtain ⟨pe, hpe, -, -⟩ := partialHolds_top hp.holds
  -- the state before the new node is counted
  let w : State := nodeWrite (BitVec.ofNat 9 n) e s
  let l : State := linkChild (BitVec.ofNat 9 (topSlot 0 p).1) (topSlot 0 p).2 (BitVec.ofNat 9 n)
    { w with slots := (partialSlots 0 p).tail }
  have hlink : linkTop (BitVec.ofNat 9 n) w = l := by
    have : w.slots = ⟨BitVec.ofNat 9 (topSlot 0 p).1, (topSlot 0 p).2⟩ :: (partialSlots 0 p).tail := by
      rw [← partialSlots_eq]; exact hp.slots
    simp only [linkTop, this, l]
  have heq : allocNode tag b s = growTree tag b (BitVec.ofNat 9 n) (countNode l) := by
    rw [allocNode, hidx, placeNode, if_neg hn0]
    change growTree tag b _ (countNode (linkTop (BitVec.ofNat 9 n) w)) = _
    rw [hlink]
  have hw : ∀ k, storeRead w.nodes k = if k = n then some e else storeRead s.nodes k := by
    intro k
    simp only [w, nodeWrite_nodes, storeRead_storeWrite, hidxNat]
  have hread : nodeRead { w with slots := (partialSlots 0 p).tail } (BitVec.ofNat 9 (topSlot 0 p).1) = pe := by
    simp only [nodeRead, hparNat]
    rw [hw, if_neg (by omega), hpe]; rfl
  have hl : ∀ k, storeRead l.nodes k =
      if k = (topSlot 0 p).1 then some (setChild (topSlot 0 p).2 (BitVec.ofNat 9 n) pe)
      else if k = n then some e else storeRead s.nodes k := by
    intro k
    simp only [l, linkChild_nodes, storeRead_storeWrite, hparNat, hread]
    split
    · rfl
    · exact hw k
  have hlk : l.nodes.map Prod.fst = List.range (n + 1) := by
    simp only [l, linkChild_nodes, hparNat]
    refine storeWrite_range_of_lt _ ?_ (by omega)
    simp only [w, nodeWrite_nodes, hidxNat]
    exact storeWrite_range _ (by rw [hk, hn])
  have hgn : (growTree tag b (BitVec.ofNat 9 n) (countNode l)).nodes = l.nodes := by
    cases tag <;> rfl
  have hgs : (growTree tag b (BitVec.ofNat 9 n) (countNode l)).slots =
      growthSlots n (seed tag b) ++ (partialSlots 0 p).tail := by
    cases tag <;> rfl
  have hcount := growTree_counts (tag := tag) (b := b) (n := BitVec.ofNat 9 n)
    (t := (countNode l)) hp.counts hsize hb rfl rfl rfl
  rw [heq]
  refine ⟨?_, ?_, ?_, ?_⟩
  · rw [hgn, hlk]
    have : (growTree tag b (BitVec.ofNat 9 n) (countNode l)).ncnt = s.ncnt + 1 := by
      cases tag <;> rfl
    rw [this, toNat_ncnt_succ (by omega), hn]
  · rw [hgn]
    refine attach_holds hp.holds ?_ ?_
    · have hnew : storeRead l.nodes n = some e := by rw [hl, if_neg (by omega), if_pos rfl]
      rw [Nat.zero_add]
      cases tag <;> exact hnew
    · intro k _ hk2
      rw [hl]
      rw [Nat.zero_add]
      split
      · rename_i h; rw [h, hpe]; rfl
      · rw [if_neg (by omega)]
  · rw [hgs, attach_slots, Nat.zero_add]
  · rw [attach_size, attach_symbols]; exact hcount

/-! ## What an allocation leaves alone -/

@[simp] theorem linkTop_hasEncoder (n : NodeIdx) (s : State) : (linkTop n s).hasEncoder = s.hasEncoder := by
  unfold linkTop; split <;> rfl
@[simp] theorem allocNode_hasEncoder (tag : Tag) (b : Byte) (s : State) : (allocNode tag b s).hasEncoder = s.hasEncoder := by
  unfold allocNode placeNode; cases tag <;> simp only [growTree, countNode, markPresent] <;> split <;> simp
@[simp] theorem linkTop_tstate (n : NodeIdx) (s : State) : (linkTop n s).tstate = s.tstate := by
  unfold linkTop; split <;> rfl
@[simp] theorem allocNode_tstate (tag : Tag) (b : Byte) (s : State) : (allocNode tag b s).tstate = s.tstate := by
  unfold allocNode placeNode; cases tag <;> simp only [growTree, countNode, markPresent] <;> split <;> simp
@[simp] theorem linkTop_lsym (n : NodeIdx) (s : State) : (linkTop n s).lsym = s.lsym := by
  unfold linkTop; split <;> rfl
@[simp] theorem allocNode_lsym (tag : Tag) (b : Byte) (s : State) : (allocNode tag b s).lsym = s.lsym := by
  unfold allocNode placeNode; cases tag <;> simp only [growTree, countNode, markPresent] <;> split <;> simp
@[simp] theorem linkTop_code (n : NodeIdx) (s : State) : (linkTop n s).code = s.code := by
  unfold linkTop; split <;> rfl
@[simp] theorem allocNode_code (tag : Tag) (b : Byte) (s : State) : (allocNode tag b s).code = s.code := by
  unfold allocNode placeNode; cases tag <;> simp only [growTree, countNode, markPresent] <;> split <;> simp
@[simp] theorem linkTop_dstate (n : NodeIdx) (s : State) : (linkTop n s).dstate = s.dstate := by
  unfold linkTop; split <;> rfl
@[simp] theorem allocNode_dstate (tag : Tag) (b : Byte) (s : State) : (allocNode tag b s).dstate = s.dstate := by
  unfold allocNode placeNode; cases tag <;> simp only [growTree, countNode, markPresent] <;> split <;> simp
@[simp] theorem linkTop_cur (n : NodeIdx) (s : State) : (linkTop n s).cur = s.cur := by
  unfold linkTop; split <;> rfl
@[simp] theorem allocNode_cur (tag : Tag) (b : Byte) (s : State) : (allocNode tag b s).cur = s.cur := by
  unfold allocNode placeNode; cases tag <;> simp only [growTree, countNode, markPresent] <;> split <;> simp
@[simp] theorem linkTop_decBitcnt (n : NodeIdx) (s : State) : (linkTop n s).decBitcnt = s.decBitcnt := by
  unfold linkTop; split <;> rfl
@[simp] theorem allocNode_decBitcnt (tag : Tag) (b : Byte) (s : State) : (allocNode tag b s).decBitcnt = s.decBitcnt := by
  unfold allocNode placeNode; cases tag <;> simp only [growTree, countNode, markPresent] <;> split <;> simp
@[simp] theorem linkTop_decSymcnt (n : NodeIdx) (s : State) : (linkTop n s).decSymcnt = s.decSymcnt := by
  unfold linkTop; split <;> rfl
@[simp] theorem allocNode_decSymcnt (tag : Tag) (b : Byte) (s : State) : (allocNode tag b s).decSymcnt = s.decSymcnt := by
  unfold allocNode placeNode; cases tag <;> simp only [growTree, countNode, markPresent] <;> split <;> simp
@[simp] theorem linkTop_encSymcnt (n : NodeIdx) (s : State) : (linkTop n s).encSymcnt = s.encSymcnt := by
  unfold linkTop; split <;> rfl
@[simp] theorem allocNode_encSymcnt (tag : Tag) (b : Byte) (s : State) : (allocNode tag b s).encSymcnt = s.encSymcnt := by
  unfold allocNode placeNode; cases tag <;> simp only [growTree, countNode, markPresent] <;> split <;> simp
@[simp] theorem linkTop_encBitcnt (n : NodeIdx) (s : State) : (linkTop n s).encBitcnt = s.encBitcnt := by
  unfold linkTop; split <;> rfl
@[simp] theorem allocNode_encBitcnt (tag : Tag) (b : Byte) (s : State) : (allocNode tag b s).encBitcnt = s.encBitcnt := by
  unfold allocNode placeNode; cases tag <;> simp only [growTree, countNode, markPresent] <;> split <;> simp
@[simp] theorem linkTop_errFirst (n : NodeIdx) (s : State) : (linkTop n s).errFirst = s.errFirst := by
  unfold linkTop; split <;> rfl
@[simp] theorem allocNode_errFirst (tag : Tag) (b : Byte) (s : State) : (allocNode tag b s).errFirst = s.errFirst := by
  unfold allocNode placeNode; cases tag <;> simp only [growTree, countNode, markPresent] <;> split <;> simp
@[simp] theorem linkTop_errLast (n : NodeIdx) (s : State) : (linkTop n s).errLast = s.errLast := by
  unfold linkTop; split <;> rfl
@[simp] theorem allocNode_errLast (tag : Tag) (b : Byte) (s : State) : (allocNode tag b s).errLast = s.errLast := by
  unfold allocNode placeNode; cases tag <;> simp only [growTree, countNode, markPresent] <;> split <;> simp
@[simp] theorem linkTop_inputs (n : NodeIdx) (s : State) : (linkTop n s).inputs = s.inputs := by
  unfold linkTop; split <;> rfl
@[simp] theorem allocNode_inputs (tag : Tag) (b : Byte) (s : State) : (allocNode tag b s).inputs = s.inputs := by
  unfold allocNode placeNode; cases tag <;> simp only [growTree, countNode, markPresent] <;> split <;> simp
@[simp] theorem linkTop_rsps (n : NodeIdx) (s : State) : (linkTop n s).rsps = s.rsps := by
  unfold linkTop; split <;> rfl
@[simp] theorem allocNode_rsps (tag : Tag) (b : Byte) (s : State) : (allocNode tag b s).rsps = s.rsps := by
  unfold allocNode placeNode; cases tag <;> simp only [growTree, countNode, markPresent] <;> split <;> simp

/-! ## Complete (R118) -/

theorem recordCode_leaf {s : State} {c : List (Nat × Code)} {i : Nat} {e : Node}
    (he : nodeRead s (BitVec.ofNat 9 i) = e) (ht : e.tag = .leaf) :
    recordCode s c i = storeWrite c e.sym.toNat (codeOfPath (path s (BitVec.ofNat 9 i))) := by
  simp only [recordCode, he, ht]

theorem recordCode_internal {s : State} {c : List (Nat × Code)} {i : Nat} {e : Node}
    (he : nodeRead s (BitVec.ofNat 9 i) = e) (ht : e.tag = .internal) : recordCode s c i = c := by
  simp only [recordCode, he, ht]

theorem storeWf_recordCode {s : State} {c : List (Nat × Code)} (i : Nat) (hc : storeWf c = true) :
    storeWf (recordCode s c i) = true := by
  cases ht : (nodeRead s (BitVec.ofNat 9 i)).tag with
  | leaf => rw [recordCode_leaf rfl ht]; exact storeWf_storeWrite _ _ _ hc
  | internal => rw [recordCode_internal rfl ht]; exact hc

theorem storeWf_buildCode {s : State} (hc : storeWf s.code = true) : storeWf (buildCode s) = true := by
  have : ∀ (l : List Nat) (c : List (Nat × Code)), storeWf c = true →
      storeWf (l.foldl (recordCode s) c) = true := by
    intro l
    induction l with
    | nil => exact fun c h => h
    | cons i l ih => exact fun c h => ih _ (storeWf_recordCode i h)
  exact this _ _ hc

/-- The CODE table that Complete builds holds the path of every leaf, when the leaves' symbols are distinct (R118). -/
theorem storeRead_buildCode {s : State}
    (hd : ∀ i j, i < s.ncnt.toNat → j < s.ncnt.toNat → (nodeRead s (BitVec.ofNat 9 i)).tag = .leaf →
      (nodeRead s (BitVec.ofNat 9 j)).tag = .leaf →
      (nodeRead s (BitVec.ofNat 9 i)).sym = (nodeRead s (BitVec.ofNat 9 j)).sym → i = j)
    {i : Nat} (hi : i < s.ncnt.toNat) (ht : (nodeRead s (BitVec.ofNat 9 i)).tag = .leaf) :
    storeRead (buildCode s) (nodeRead s (BitVec.ofNat 9 i)).sym.toNat =
      some (codeOfPath (path s (BitVec.ofNat 9 i))) := by
  have key : ∀ m, m ≤ s.ncnt.toNat → i < m →
      storeRead ((List.range m).foldl (recordCode s) s.code) (nodeRead s (BitVec.ofNat 9 i)).sym.toNat =
        some (codeOfPath (path s (BitVec.ofNat 9 i))) := by
    intro m
    induction m with
    | zero => intro _ h; omega
    | succ m ih =>
      intro hm him
      rw [List.range_succ, List.foldl_append]
      simp only [List.foldl_cons, List.foldl_nil]
      by_cases him' : i = m
      · subst him'
        rw [recordCode_leaf rfl ht]; simp
      · cases htm : (nodeRead s (BitVec.ofNat 9 m)).tag with
        | internal => rw [recordCode_internal rfl htm]; exact ih (by omega) (by omega)
        | leaf =>
          rw [recordCode_leaf rfl htm, storeRead_storeWrite_other]
          · exact ih (by omega) (by omega)
          · intro hs
            exact him' (hd i m (by omega) (by omega) ht htm (BitVec.eq_of_toNat_eq hs))
  exact key _ le_rfl hi

/-- Complete makes a grown tree usable: the tree is held, and CODE holds its codes (R118, R119). -/
theorem complete_holdsTree {s : State} {t : Tree} (hg : Grown s (.inr t)) : HoldsTree (complete s) t := by
  have hn : s.ncnt.toNat = treeSize t := hg.counts.ncnt
  have hd : DistinctLeaves t := hg.counts.distinct
  have hle := treeSize_le hd
  have hh : holdsAt s.nodes 0 t := hg.holds
  have hread : ∀ i, i < treeSize t → ∃ e, storeRead s.nodes i = some e ∧ nodeRead s (BitVec.ofNat 9 i) = e := by
    intro i hi
    have h1 := (storeRead_isSome_iff hg.keys i).2 (by omega)
    obtain ⟨e, he⟩ := Option.isSome_iff_exists.1 h1
    exact ⟨e, he, by simp [nodeRead, toNat_ofNat9 (show i < 512 by omega), he]⟩
  have hleaf : ∀ i b, i < treeSize t → ((i, b) ∈ leavesIn t 0 ↔
      (nodeRead s (BitVec.ofNat 9 i)).tag = .leaf ∧ (nodeRead s (BitVec.ofNat 9 i)).sym = b) := by
    intro i b hi
    obtain ⟨e, he, hre⟩ := hread i hi
    rw [hre]
    exact mem_leavesIn_iff hh (Nat.zero_le _) (by omega) he b
  refine ⟨hh, ⟨hg.counts.ncnt, hg.counts.nleaf, hg.counts.distinct, hg.counts.present⟩, ?_⟩
  intro henc b hb
  have henc' : s.hasEncoder = true := henc
  obtain ⟨k, hk⟩ := exists_leafIn hb 0
  have hkr := leavesIn_range hk
  simp only at hkr
  obtain ⟨ht, hs⟩ := (hleaf k b (by omega)).1 hk
  have hbuild := storeRead_buildCode (s := s) (i := k) (by
    intro i j hi hj hti htj hij
    refine leafIn_index_unique hd (base := 0) (b := (nodeRead s (BitVec.ofNat 9 i)).sym) ?_ ?_
    · exact (hleaf i _ (by omega)).2 ⟨hti, rfl⟩
    · exact (hleaf j _ (by omega)).2 ⟨htj, hij.symm⟩) (by omega) ht
  rw [complete_code, if_pos henc', ← hs, hbuild, hs, codeIn_eq hd hk,
    path_eq hg.keys hh hn hle (by omega)]

end Sys2Proof.Machine
end

