-- ==== Sys2Proof/Laws/Effect.lean ====
section
/-! SUPPORT. Everything a command can do, once: the cases of `exec`, each with its conditions and the next state. -/

namespace Sys2Proof.Machine

/-- The command hands the decoder the bit `t`: DEC_BIT t, or DEC_CHAR of its character (R171). -/
def Feeds (i : Instr) (t : Bit) : Prop := i = .decBit t ∨ ∃ c, i = .decChar c ∧ payloadBit c = some t

/-- The command is one of those that need a running session (R163 to R165). -/
def NeedsSession (i : Instr) : Prop := (∃ t, i = .decBit t) ∨ (∃ c, i = .decChar c) ∨ i = .decEnd

/-- The cases of a command: its conditions on the state, and the next state. -/
inductive Effect : Instr → State → State → Prop where
  | nop (s : State) : Effect .nop s (respondOk s)
  | reset (s : State) : Effect .reset s (respondOk (resetProcedure s))
  | clrErr (s : State) : Effect .clrErr s (respondOk { s with errFirst := 0x00, errLast := 0x00 })
  | readReg {r : Byte} {g : Reg} (s : State) (hr : regOf r = some g) :
    Effect (.readReg r) s (respond { status := .ok, data := regValue s g } s)
  | badRegister {r : Byte} (s : State) (hr : regOf r = none) : Effect (.readReg r) s (raise .badRegister s)
  | treeStart (s : State) : Effect .treeStart s (respondOk
      { s with
        tstate := .loading
        nodes := [], ncnt := 0, nleaf := 0, slots := [], lsym := false, present := 0, code := []
        dstate := .idle, cur := 0
        decBitcnt := 0, decSymcnt := 0, encSymcnt := 0, encBitcnt := 0 })
  | byteOutside {b : Byte} {s : State} (ht : s.tstate ≠ .loading) : Effect (.treeByte b) s (raise .badState s)
  | leafMarker {s : State} (ht : s.tstate = .loading) (hl : s.lsym = false) :
    Effect (.treeByte 0x31) s (respondOk { s with lsym := true })
  | badMarker {b : Byte} {s : State} (ht : s.tstate = .loading) (hl : s.lsym = false) (h0 : b ≠ 0x30)
    (h1 : b ≠ 0x31) : Effect (.treeByte b) s (raise .treeBadMarker s)
  | dupSymbol {b : Byte} {s : State} (ht : s.tstate = .loading) (hl : s.lsym = true) (hp : isPresent s b = true) :
    Effect (.treeByte b) s (raise .treeDupSymbol s)
  | overflow {b : Byte} {s : State} (ht : s.tstate = .loading)
    (hb : (s.lsym = false ∧ b = 0x30) ∨ (s.lsym = true ∧ isPresent s b = false)) (hn : s.ncnt = 511) :
    Effect (.treeByte b) s (raise .treeOverflow s)
  | allocInternal {s : State} (ht : s.tstate = .loading) (hl : s.lsym = false) (hn : s.ncnt ≠ 511) :
    Effect (.treeByte 0x30) s (respondOk (allocNode .internal 0x00 s))
  | allocLeaf {b : Byte} {s : State} (ht : s.tstate = .loading) (hl : s.lsym = true) (hp : isPresent s b = false)
    (hn : s.ncnt ≠ 511) (hs : (allocNode .leaf b { s with lsym := false }).slots ≠ []) :
    Effect (.treeByte b) s (respondOk (allocNode .leaf b { s with lsym := false }))
  | completes {b : Byte} {s : State} (ht : s.tstate = .loading) (hl : s.lsym = true) (hp : isPresent s b = false)
    (hn : s.ncnt ≠ 511) (hs : (allocNode .leaf b { s with lsym := false }).slots = []) :
    Effect (.treeByte b) s (respondOk (complete (allocNode .leaf b { s with lsym := false })))
  | endEmpty {s : State} (ht : s.tstate = .empty) : Effect .treeEnd s (raise .badState s)
  | endLoading {s : State} (ht : s.tstate = .loading) : Effect .treeEnd s (raise .treeTruncated s)
  | endReady {s : State} (ht : s.tstate = .ready) : Effect .treeEnd s (respondOk s)
  | startNoTree {s : State} (ht : s.tstate ≠ .ready) : Effect .decStart s (raise .noTree s)
  | start {s : State} (ht : s.tstate = .ready) :
    Effect .decStart s (respondOk { s with dstate := .run, cur := 0, decBitcnt := 0, decSymcnt := 0 })
  | noTree {i : Instr} {s : State} (hi : NeedsSession i) (ht : s.tstate ≠ .ready) : Effect i s (raise .noTree s)
  | halted {i : Instr} {s : State} (hi : NeedsSession i) (ht : s.tstate = .ready) (hd : s.dstate = .halted) :
    Effect i s (raise .decoderHalted s)
  | idle {i : Instr} {s : State} (hi : NeedsSession i) (ht : s.tstate = .ready) (hd : s.dstate = .idle) :
    Effect i s (raise .badState s)
  | degenZero {i : Instr} {s : State} (hi : Feeds i false) (ht : s.tstate = .ready) (hd : s.dstate = .run)
    (hg : degen s = true) : Effect i s (emitSymbol (nodeRead s 0).sym (countBit s))
  | degenOne {i : Instr} {s : State} (hi : Feeds i true) (ht : s.tstate = .ready) (hd : s.dstate = .run)
    (hg : degen s = true) : Effect i s (raise .undecodableBit s)
  | walkLeaf {i : Instr} {t : Bit} {s : State} (hi : Feeds i t) (ht : s.tstate = .ready) (hd : s.dstate = .run)
    (hg : degen s = false) (hx : (nodeRead s (nodeChild s s.cur t)).tag = .leaf) :
    Effect i s (emitSymbol (nodeRead s (nodeChild s s.cur t)).sym { countBit s with cur := 0 })
  | walkInternal {i : Instr} {t : Bit} {s : State} (hi : Feeds i t) (ht : s.tstate = .ready) (hd : s.dstate = .run)
    (hg : degen s = false) (hx : (nodeRead s (nodeChild s s.cur t)).tag = .internal) :
    Effect i s (respondOk { countBit s with cur := nodeChild s s.cur t })
  | invalidBit {c : Byte} {s : State} (hc : payloadBit c = none) (ht : s.tstate = .ready) (hd : s.dstate = .run) :
    Effect (.decChar c) s (raise .invalidBit s)
  | truncated {s : State} (ht : s.tstate = .ready) (hd : s.dstate = .run) (hc : s.cur ≠ 0) :
    Effect .decEnd s (raise .truncatedCode s)
  | ends {s : State} (ht : s.tstate = .ready) (hd : s.dstate = .run) (hc : s.cur = 0) :
    Effect .decEnd s (respond { status := .ok, data := s.decSymcnt } { s with dstate := .idle })
  | noEncoder {b : Byte} {s : State} (he : s.hasEncoder = false) : Effect (.encSym b) s (raise .illegalCommand s)
  | encNoTree {b : Byte} {s : State} (he : s.hasEncoder = true) (ht : s.tstate ≠ .ready) :
    Effect (.encSym b) s (raise .noTree s)
  | unknownSymbol {b : Byte} {s : State} (he : s.hasEncoder = true) (ht : s.tstate = .ready)
    (hp : isPresent s b = false) : Effect (.encSym b) s (raise .unknownSymbol s)
  | encodes {b : Byte} {s : State} (he : s.hasEncoder = true) (ht : s.tstate = .ready) (hp : isPresent s b = true) :
    Effect (.encSym b) s (emitCode (encBits b s) s)

/-- TREE_OVERFLOW leaves the same state whether LSYM was cleared first or not (R246). -/
theorem raise_overflow_lsym (s : State) : raise .treeOverflow { s with lsym := false } = raise .treeOverflow s := rfl

theorem allocNode_internal_slots (b : Byte) (s : State) : (allocNode .internal b s).slots ≠ [] := by
  simp [allocNode, growTree]

theorem decodeBit_effect {i : Instr} {t : Bit} {s : State} (hi : Feeds i t) (ht : s.tstate = .ready)
    (hd : s.dstate = .run) : Effect i s (decodeBit t s) := by
  unfold decodeBit
  split
  · rename_i hg
    unfold degenBit
    cases t
    · exact .degenZero hi ht hd hg
    · exact .degenOne hi ht hd hg
  · rename_i hg
    have hg' : degen s = false := by simpa using hg
    simp only [walkBit]
    split
    · exact .walkLeaf hi ht hd hg' ‹_›
    · exact .walkInternal hi ht hd hg' ‹_›

theorem inSession_effect {i : Instr} {s : State} {act : State → State} (hi : NeedsSession i)
    (ha : s.tstate = .ready → s.dstate = .run → Effect i s (act s)) : Effect i s (inSession act s) := by
  unfold inSession
  split
  · exact .noTree hi ‹_›
  · have ht : s.tstate = .ready := not_not.1 ‹_›
    split
    · exact .halted hi ht ‹_›
    · exact .idle hi ht ‹_›
    · exact ha ht ‹_›

theorem markerByte_effect {b : Byte} {s : State} (ht : s.tstate = .loading) (hl : s.lsym = false) :
    Effect (.treeByte b) s (markerByte b s) := by
  unfold markerByte
  split
  · rename_i hb
    have hb : b = 0x30 := by
      unfold markerOf at hb
      split at hb
      · assumption
      · split at hb <;> simp at hb
    subst hb
    unfold alloc
    split
    · exact .overflow ht (.inl ⟨hl, rfl⟩) ‹_›
    · simp only [if_neg (allocNode_internal_slots _ s)]
      exact .allocInternal ht hl ‹_›
  · rename_i hb
    have hb : b = 0x31 := by
      unfold markerOf at hb
      split at hb
      · simp at hb
      · split at hb
        · assumption
        · simp at hb
    subst hb
    exact .leafMarker ht hl
  · rename_i hb
    unfold markerOf at hb
    split at hb
    · simp at hb
    · split at hb
      · simp at hb
      · exact .badMarker ht hl ‹_› ‹_›

theorem symbolByte_effect {b : Byte} {s : State} (ht : s.tstate = .loading) (hl : s.lsym = true) :
    Effect (.treeByte b) s (symbolByte b s) := by
  unfold symbolByte
  split
  · exact .dupSymbol ht hl ‹_›
  · have hp : isPresent s b = false := by simpa using ‹¬isPresent s b = true›
    unfold alloc
    split
    · rw [raise_overflow_lsym]
      exact .overflow ht (.inr ⟨hl, hp⟩) ‹_›
    · simp only []
      split
      · exact .completes ht hl hp ‹_› ‹_›
      · exact .allocLeaf ht hl hp ‹_› ‹_›

/-- Every command answers a next state, by one of the cases. -/
theorem exec_effect (i : Instr) (s : State) : ∃ t, exec i s = .next t ∧ Effect i s t := by
  cases i with
  | nop => exact ⟨_, rfl, .nop s⟩
  | reset => exact ⟨_, rfl, .reset s⟩
  | clrErr => exact ⟨_, rfl, .clrErr s⟩
  | readReg r =>
    simp only [exec, execReadReg]
    split
    · exact ⟨_, rfl, .badRegister s ‹_›⟩
    · exact ⟨_, rfl, .readReg s ‹_›⟩
  | treeStart => exact ⟨_, rfl, .treeStart s⟩
  | treeByte b =>
    simp only [exec, execTreeByte]
    split
    · exact ⟨_, rfl, .byteOutside ‹_›⟩
    · have ht : s.tstate = .loading := not_not.1 ‹_›
      split
      · exact ⟨_, rfl, symbolByte_effect ht ‹_›⟩
      · exact ⟨_, rfl, markerByte_effect ht (by simpa using ‹¬s.lsym = true›)⟩
  | treeEnd =>
    simp only [exec, execTreeEnd]
    split
    · exact ⟨_, rfl, .endEmpty ‹_›⟩
    · exact ⟨_, rfl, .endLoading ‹_›⟩
    · exact ⟨_, rfl, .endReady ‹_›⟩
  | decStart =>
    simp only [exec, execDecStart]
    split
    · exact ⟨_, rfl, .startNoTree ‹_›⟩
    · exact ⟨_, rfl, .start (not_not.1 ‹_›)⟩
  | decBit t =>
    exact ⟨_, rfl, inSession_effect (.inl ⟨t, rfl⟩) fun ht hd => decodeBit_effect (.inl rfl) ht hd⟩
  | decChar c =>
    refine ⟨_, rfl, inSession_effect (.inr (.inl ⟨c, rfl⟩)) fun ht hd => ?_⟩
    unfold payloadChar
    split
    · exact decodeBit_effect (.inr ⟨c, rfl, ‹_›⟩) ht hd
    · exact .invalidBit ‹_› ht hd
  | decEnd =>
    refine ⟨_, rfl, inSession_effect (.inr (.inr rfl)) fun ht hd => ?_⟩
    unfold payloadEnd
    split
    · exact .truncated ht hd ‹_›
    · exact .ends ht hd (not_not.1 ‹_›)
  | encSym b =>
    simp only [exec, execEncSym]
    split
    · exact ⟨_, rfl, .noEncoder ‹_›⟩
    · have he : s.hasEncoder = true := by simpa using ‹¬s.hasEncoder = false›
      split
      · exact ⟨_, rfl, .encNoTree he ‹_›⟩
      · have ht : s.tstate = .ready := not_not.1 ‹_›
        split
        · exact ⟨_, rfl, .unknownSymbol he ht ‹_›⟩
        · exact ⟨_, rfl, .encodes he ht (by simpa using ‹¬isPresent s b = false›)⟩

/-- If a command answers `t`, it is by one of the cases. -/
theorem effect_of_exec {i : Instr} {s t : State} (h : exec i s = .next t) : Effect i s t := by
  obtain ⟨u, hu, he⟩ := exec_effect i s
  rw [hu] at h
  cases h
  exact he

theorem payloadBit_iff {c : Byte} {t : Bit} : payloadBit c = some t ↔ c = if t then 0x31 else 0x30 := by
  unfold payloadBit
  by_cases h0 : c = 0x30
  · subst h0; cases t <;> simp
  · by_cases h1 : c = 0x31
    · subst h1; cases t <;> simp
    · rw [if_neg h0, if_neg h1]
      exact ⟨fun h => (by cases h), fun h => (by cases t <;> first | exact absurd h h0 | exact absurd h h1)⟩

/-- A command that feeds a bit runs DecodeBit in a running session. -/
theorem exec_of_feeds {i : Instr} {t : Bit} {s : State} (hi : Feeds i t) (ht : s.tstate = .ready)
    (hd : s.dstate = .run) : exec i s = .next (decodeBit t s) := by
  rcases hi with rfl | ⟨c, rfl, hc⟩
  · simp only [exec, execDecBit, inSession, hd]
    rw [if_neg (by simp [ht])]
  · simp only [exec, execDecChar, inSession, hd, payloadChar, hc]
    rw [if_neg (by simp [ht])]

/-- A command that needs a session answers its state checks in order. -/
theorem exec_of_needsSession {i : Instr} {s : State} (hi : NeedsSession i) :
    (s.tstate ≠ .ready → exec i s = .next (raise .noTree s)) ∧
      (s.tstate = .ready → s.dstate = .halted → exec i s = .next (raise .decoderHalted s)) ∧
      (s.tstate = .ready → s.dstate = .idle → exec i s = .next (raise .badState s)) := by
  rcases hi with ⟨t, rfl⟩ | ⟨c, rfl⟩ | rfl <;>
    refine ⟨fun h => ?_, fun h h2 => ?_, fun h h2 => ?_⟩ <;>
    simp only [exec, execDecBit, execDecChar, execDecEnd, inSession] <;>
    first
    | rw [if_pos h]
    | (rw [if_neg (by simp [h]), h2])

/-- Each case is what the command answers: the cases do not overlap. -/
theorem exec_of_effect {i : Instr} {s t : State} (h : Effect i s t) : exec i s = .next t := by
  cases h with
  | nop => rfl
  | reset => rfl
  | clrErr => rfl
  | readReg _ hr => simp only [exec, execReadReg, hr]
  | badRegister _ hr => simp only [exec, execReadReg, hr]
  | treeStart => rfl
  | byteOutside ht => simp only [exec, execTreeByte, if_pos ht]
  | leafMarker ht hl => simp [exec, execTreeByte, ht, hl, markerByte, markerOf]
  | @badMarker b s ht hl h0 h1 =>
    have : markerOf b = none := by rw [markerOf, if_neg h0, if_neg h1]
    simp [exec, execTreeByte, ht, hl, markerByte, this]
  | dupSymbol ht hl hp => simp [exec, execTreeByte, ht, hl, symbolByte, hp]
  | overflow ht hb hn =>
    rcases hb with ⟨hl, rfl⟩ | ⟨hl, hp⟩
    · simp [exec, execTreeByte, ht, hl, markerByte, markerOf, alloc, hn]
    · simp only [exec, execTreeByte, ht, hl, symbolByte, hp, alloc, hn]
      rfl
  | allocInternal ht hl hn =>
    simp only [exec, execTreeByte, markerByte, show markerOf 0x30 = some .internal from rfl, alloc]
    rw [if_neg (by simp [ht]), if_neg (by simp [hl]), if_neg hn, if_neg (allocNode_internal_slots _ _)]
  | allocLeaf ht hl hp hn hs =>
    simp only [exec, execTreeByte, symbolByte, alloc]
    rw [if_neg (by simp [ht]), if_pos hl, if_neg (by simp [hp]), if_neg hn, if_neg hs]
  | completes ht hl hp hn hs =>
    simp only [exec, execTreeByte, symbolByte, alloc]
    rw [if_neg (by simp [ht]), if_pos hl, if_neg (by simp [hp]), if_neg hn, if_pos hs]
  | endEmpty ht => simp only [exec, execTreeEnd, ht]
  | endLoading ht => simp only [exec, execTreeEnd, ht]
  | endReady ht => simp only [exec, execTreeEnd, ht]
  | startNoTree ht => simp only [exec, execDecStart, if_pos ht]
  | start ht => simp only [exec, execDecStart]; rw [if_neg (by simp [ht])]
  | noTree hi ht => exact (exec_of_needsSession hi).1 ht
  | halted hi ht hd => exact (exec_of_needsSession hi).2.1 ht hd
  | idle hi ht hd => exact (exec_of_needsSession hi).2.2 ht hd
  | degenZero hi ht hd hg => rw [exec_of_feeds hi ht hd]; simp [decodeBit, hg, degenBit]
  | degenOne hi ht hd hg => rw [exec_of_feeds hi ht hd]; simp [decodeBit, hg, degenBit]
  | walkLeaf hi ht hd hg hx => rw [exec_of_feeds hi ht hd]; simp [decodeBit, hg, walkBit, hx]
  | walkInternal hi ht hd hg hx => rw [exec_of_feeds hi ht hd]; simp [decodeBit, hg, walkBit, hx]
  | invalidBit hc ht hd =>
    simp only [exec, execDecChar, inSession, hd, payloadChar, hc]
    rw [if_neg (by simp [ht])]
  | truncated ht hd hc =>
    simp only [exec, execDecEnd, inSession, hd, payloadEnd]
    rw [if_neg (by simp [ht]), if_pos hc]
  | ends ht hd hc =>
    simp only [exec, execDecEnd, inSession, hd, payloadEnd]
    rw [if_neg (by simp [ht]), if_neg (by simp [hc])]
  | noEncoder he => simp only [exec, execEncSym, if_pos he]
  | encNoTree he ht =>
    simp only [exec, execEncSym]
    rw [if_neg (by simp [he]), if_pos ht]
  | unknownSymbol he ht hp =>
    simp only [exec, execEncSym]
    rw [if_neg (by simp [he]), if_neg (by simp [ht]), if_pos hp]
  | encodes he ht hp =>
    simp only [exec, execEncSym]
    rw [if_neg (by simp [he]), if_neg (by simp [ht]), if_neg (by simp [hp])]

end Sys2Proof.Machine
end

