-- ==== Sys2Proof/Laws/Raise.lean ====
section
/-! SUPPORT. What raising a status leaves, by effect class (spec/60_exceptions.md R242, R243), and the derived
predicates DEGEN and MIDCODE as propositions (spec/10_state.md R34, R35). -/

namespace Sys2Proof.Machine

/-- A status of class None changes only ERR. -/
theorem raise_none {e : Status} (s : State) (h : effectClass e = .none) : raise e s = reported e s := by
  rw [raise, h]; rfl

/-- A status of class Discard clears the tree and closes the session. -/
theorem raise_discard {e : Status} (s : State) (h : effectClass e = .discard) :
    raise e s = reported e (discardTree s) := by
  rw [raise, h]; rfl

/-- A status of class Halt halts the session. -/
theorem raise_halt {e : Status} (s : State) (h : effectClass e = .halt) :
    raise e s = reported e { s with dstate := .halted } := by
  rw [raise, h]; rfl

theorem degen_iff {s : State} : degen s = true ↔ s.tstate = .ready ∧ s.ncnt = 1 := by
  unfold degen; exact decide_eq_true_iff

theorem degen_eq_false {s : State} (h : s.ncnt ≠ 1) : degen s = false :=
  Bool.eq_false_iff.2 fun hd => h (degen_iff.1 hd).2

theorem midcode_iff {s : State} : midcode s = true ↔ s.dstate = .run ∧ s.cur ≠ 0 := by
  unfold midcode; exact decide_eq_true_iff

end Sys2Proof.Machine
end

