-- ==== Sys2Proof/Laws/Invariant.lean ====
section
/-! SUPPORT. The parts of the invariant (spec/10_state.md R48, R49): which fields each rests on,
    and what it says of node
memory in a state whose tree is READY. -/

namespace Sys2Proof.Machine

/-! ## Which fields each part rests on -/

/-- The tree elements of two states are the same. -/
structure SameTree (s t : State) : Prop where
  hasEncoder : t.hasEncoder = s.hasEncoder
  nodes : t.nodes = s.nodes
  ncnt : t.ncnt = s.ncnt
  nleaf : t.nleaf = s.nleaf
  slots : t.slots = s.slots
  present : t.present = s.present
  code : t.code = s.code

theorem SameTree.isPresent {s t : State} (h : SameTree s t) (b : Byte) :
    Machine.isPresent t b = Machine.isPresent s b := by
  simp [Machine.isPresent, h.present]

theorem SameTree.countsLeaves {s t : State} (h : SameTree s t) {n : Nat} {l : List Byte} (hc : CountsLeaves s n l) :
    CountsLeaves t n l :=
  ⟨by rw [h.ncnt, hc.ncnt], by rw [h.nleaf, hc.nleaf], hc.distinct, fun b => by rw [h.isPresent, hc.present]⟩

theorem SameTree.holdsTree {s t : State} (h : SameTree s t) {T : Tree} (ht : HoldsTree s T) : HoldsTree t T :=
  ⟨h.nodes ▸ ht.holds, h.countsLeaves ht.counts, fun he b hb => by
    rw [h.code]; exact ht.code (h.hasEncoder ▸ he) b hb⟩

theorem SameTree.loadsPartial {s t : State} (h : SameTree s t) {p : Partial} (hp : LoadsPartial s p) :
    LoadsPartial t p :=
  ⟨h.nodes ▸ hp.holds, h.slots.trans hp.slots, h.countsLeaves hp.counts, hp.small⟩

theorem SameTree.noNodes {s t : State} (h : SameTree s t) (hn : NoNodes s) : NoNodes t :=
  ⟨h.ncnt.trans hn.ncnt, h.nleaf.trans hn.nleaf, h.slots.trans hn.slots, h.present.trans hn.present⟩

theorem SameTree.nodeRead {s t : State} (h : SameTree s t) (i : NodeIdx) :
    Machine.nodeRead t i = Machine.nodeRead s i := by
  simp only [Machine.nodeRead, h.nodes]

/-- What the invariant says of ERR (R38). -/
abbrev errOk (s : State) : Prop :=
  (∃ e, s.errFirst = statusCode e) ∧ (∃ e, s.errLast = statusCode e) ∧ (s.errFirst = 0x00 ↔ s.errLast = 0x00)

/-- Recording a status other than OK keeps what the invariant says of ERR (R38, R242). -/
theorem errOk_record {s t : State} {e : Status} (h : errOk s) (he : e ≠ .ok) (hl : t.errLast = statusCode e)
    (hf : t.errFirst = if s.errFirst = 0x00 then statusCode e else s.errFirst) : errOk t := by
  have hne : statusCode e ≠ 0x00 := by cases e <;> first | exact absurd rfl he | decide
  rw [errOk, hl, hf]
  refine ⟨?_, ⟨e, rfl⟩, ?_⟩
  · split
    · exact ⟨e, rfl⟩
    · exact h.1
  · split
    · exact Iff.rfl
    · exact ⟨fun h1 => absurd h1 ‹_›, fun h1 => absurd h1 hne⟩

/-- The invariant of a READY state, after a change that leaves the tree alone. -/
theorem Inv.of_ready {s t : State} (h : Inv s) (hs : SameTree s t) (hts : s.tstate = .ready) (htt :
    t.tstate = .ready)
    (hl : t.lsym = s.lsym)
    (hc : s.hasEncoder = false → t.encSymcnt = s.encSymcnt ∧ t.encBitcnt = s.encBitcnt) (he : errOk t)
    (hd : sessionOk t) : Inv t := by
  have htree := h.tree
  rw [treeOk, hts] at htree
  obtain ⟨⟨T, hT⟩, hsl, hls, -⟩ := htree
  refine ⟨by rw [hs.nodes, hs.ncnt, h.nodes], by rw [hs.code, h.code], fun hn => ?_, he, ?_⟩
  · rw [hs.hasEncoder] at hn
    obtain ⟨h1, h2, h3⟩ := h.noEncoder hn
    obtain ⟨h4, h5⟩ := hc hn
    exact ⟨hs.code.trans h1, h4.trans h2, h5.trans h3⟩
  · rw [treeOk, htt]
    exact ⟨⟨T, hs.holdsTree hT⟩, hs.slots.trans hsl, hl.trans hls, hd⟩

/-- The invariant after a change that leaves everything but ERR, LSYM in LOADING, and the port alone. -/
theorem Inv.of_same {s t : State} (h : Inv s) (hs : SameTree s t) (ht : t.tstate = s.tstate)
    (hl : t.lsym = s.lsym ∨ s.tstate = .loading)
    (hd : t.dstate = s.dstate ∧ t.cur = s.cur ∧ t.decBitcnt = s.decBitcnt ∧ t.decSymcnt = s.decSymcnt ∧
      t.encSymcnt = s.encSymcnt ∧ t.encBitcnt = s.encBitcnt) (he : errOk t) : Inv t := by
  obtain ⟨d1, d2, d3, d4, d5, d6⟩ := hd
  have hns : NoSession s → NoSession t := fun hn =>
    ⟨d1.trans hn.dstate, d2.trans hn.cur, d3.trans hn.decBitcnt, d4.trans hn.decSymcnt, d5.trans hn.encSymcnt,
      d6.trans hn.encBitcnt, hs.code.trans hn.code⟩
  have htree := h.tree
  refine ⟨by rw [hs.nodes, hs.ncnt, h.nodes], by rw [hs.code, h.code], fun hn => ?_, he, ?_⟩
  · rw [hs.hasEncoder] at hn
    obtain ⟨h1, h2, h3⟩ := h.noEncoder hn
    exact ⟨hs.code.trans h1, d5.trans h2, d6.trans h3⟩
  · rw [treeOk] at htree ⊢
    rw [ht]
    split at htree
    · rename_i hst
      exact ⟨hs.noNodes htree.1, (hl.resolve_right (by simp [hst])).trans htree.2.1, hns htree.2.2⟩
    · exact ⟨htree.1.imp hs.noNodes fun ⟨p, hp⟩ => ⟨p, hs.loadsPartial hp⟩, hns htree.2⟩
    · rename_i hst
      obtain ⟨⟨T, hT⟩, hsl, hls, hse⟩ := htree
      refine ⟨⟨T, hs.holdsTree hT⟩, hs.slots.trans hsl, (hl.resolve_right (by simp [hst])).trans hls, ?_⟩
      have hg : degen t = degen s := by unfold degen; rw [ht, hs.ncnt]
      rw [sessionOk, d1, d2, hg, hs.ncnt, hs.nodeRead]
      exact hse

/-! ## Node memory of a READY tree -/

/-- A READY state that meets the invariant holds a tree. -/
theorem Inv.exists_tree {s : State} (h : Inv s) (ht : s.tstate = .ready) : ∃ T, HoldsTree s T := by
  have := h.tree
  rw [treeOk, ht] at this
  exact this.1

theorem Inv.session {s : State} (h : Inv s) (ht : s.tstate = .ready) : sessionOk s := by
  have := h.tree
  rw [treeOk, ht] at this
  exact this.2.2.2

/-- The entry at an index below NCNT is specified, and `nodeRead` gives it. -/
theorem Inv.read {s : State} (h : Inv s) {i : NodeIdx} (hi : i.toNat < s.ncnt.toNat) :
    storeRead s.nodes i.toNat = some (nodeRead s i) := by
  obtain ⟨e, he⟩ := Option.isSome_iff_exists.1 ((storeRead_isSome_iff h.nodes i.toNat).2 hi)
  simp [nodeRead, he]

/-- An entry is specified only below NCNT. -/
theorem Inv.lt_of_read {s : State} (h : Inv s) {i : Nat} {e : Node} (he : storeRead s.nodes i = some e) :
    i < s.ncnt.toNat :=
  (storeRead_isSome_iff h.nodes i).1 (by simp [he])

theorem HoldsTree.size_le {s : State} {T : Tree} (h : HoldsTree s T) : treeSize T ≤ 511 :=
  treeSize_le h.counts.distinct

/-- What an internal entry of a tree holds: LEFT is the next index, where the left subtree stands, and RIGHT follows that
subtree, inside the tree (R122). -/
theorem internal_children {m : List (Nat × Node)} {T : Tree} {base k : Nat} {e : Node} (hh : holdsAt m base T)
    (hk1 : base ≤ k) (hk2 : k < base + treeSize T) (he : storeRead m k = some e) (hi : e.tag = .internal) :
    ∃ l, holdsAt m (k + 1) l ∧ e.left = some (BitVec.ofNat 9 (k + 1)) ∧
      e.right = some (BitVec.ofNat 9 (k + 1 + treeSize l)) ∧ k + 1 + treeSize l < base + treeSize T := by
  induction T generalizing base with
  | leaf s =>
    simp only [treeSize] at hk2
    obtain rfl : k = base := by omega
    rw [holdsAt] at hh; rw [hh] at he; cases he; simp at hi
  | internal l r ihl ihr =>
    simp only [treeSize] at hk2 ⊢
    simp only [holdsAt] at hh
    have := treeSize_pos r
    by_cases hkb : k = base
    · subst hkb
      rw [hh.1] at he; cases he
      exact ⟨l, hh.2.1, rfl, rfl, by omega⟩
    · by_cases hkl : k < base + 1 + treeSize l
      · obtain ⟨c, h1, h2, h3, h4⟩ := ihl hh.2.1 (by omega) (by omega); exact ⟨c, h1, h2, h3, by omega⟩
      · obtain ⟨c, h1, h2, h3, h4⟩ := ihr hh.2.2 (by omega) (by omega); exact ⟨c, h1, h2, h3, by omega⟩

/-- RIGHT of an internal entry lies above LEFT, inside the tree (R122). -/
theorem internal_entry {m : List (Nat × Node)} {T : Tree} {base k : Nat} {e : Node} (hh : holdsAt m base T)
    (hk1 : base ≤ k) (hk2 : k < base + treeSize T) (he : storeRead m k = some e) (hi : e.tag = .internal) :
    ∃ n, 0 < n ∧ e.left = some (BitVec.ofNat 9 (k + 1)) ∧ e.right = some (BitVec.ofNat 9 (k + 1 + n)) ∧
      k + 1 + n < base + treeSize T := by
  obtain ⟨l, -, h2, h3, h4⟩ := internal_children hh hk1 hk2 he hi
  exact ⟨treeSize l, treeSize_pos l, h2, h3, h4⟩

/-- A tree that NODE holds at `k` is the subtree rooted there, of the tree's size (R122). -/
theorem subtreeSize_of_holdsAt {s : State} {T : Tree} {k : Nat} (hh : holdsAt s.nodes k T)
    (hk : k + treeSize T ≤ 512) : SubtreeSize s (BitVec.ofNat 9 k) (treeSize T) := by
  induction T generalizing k with
  | leaf b =>
    simp only [treeSize] at hk
    exact .leaf (by rw [toNat_ofNat9 (by omega)]; exact hh) rfl
  | internal l r ihl ihr =>
    simp only [treeSize] at hk ⊢
    simp only [holdsAt] at hh
    exact .internal (by rw [toNat_ofNat9 (by omega)]; exact hh.1) rfl rfl rfl (ihl hh.2.1 (by omega))
      (ihr hh.2.2 (by omega))

/-- The child field that `childSide` found. -/
theorem side_of_childSide {c : NodeIdx} {e : Node} {x : Bit} (h : childSide c e = some x) : e.tag = .internal ∧
    (if x then e.right else e.left) = some c := by
  unfold childSide at h
  split at h
  · simp at h
  · split at h
    · simp at h; subst h; exact ⟨‹_›, ‹_›⟩
    · split at h
      · simp at h; subst h; exact ⟨‹_›, ‹_›⟩
      · simp at h

/-- The way down to a node is a path of it (R119). -/
theorem isPath_pathIn {s : State} {T : Tree} (hT : HoldsTree s T) : ∀ j, j < treeSize T →
    IsPath s (BitVec.ofNat 9 j) (pathIn T 0 j) := by
  have hn := hT.counts.ncnt
  have hle := hT.size_le
  intro j
  induction j using Nat.strong_induction_on with
  | _ j ih =>
    intro hj
    by_cases h0 : j = 0
    · subst h0; rw [pathIn_base]; exact .root
    · have hp := parentIn_lt (t := T) (base := 0) (j := j) (by omega) (by omega)
      obtain ⟨e, he, hcs⟩ := childSide_parentIn hT.holds (by omega) (show 0 < j by omega) (by omega)
      obtain ⟨h1, h2⟩ := side_of_childSide hcs
      have hi : (BitVec.ofNat 9 j) ≠ 0 := fun hh => h0 ((ofNat9_inj (by omega) (by omega)).1 hh)
      have := ih _ hp.2 (by omega)
      rw [pathIn_eq_append (by omega) (by omega)]
      cases hx : (parentIn T 0 j).2
      · rw [hx] at h2
        exact .left (by rw [toNat_ofNat9 (by omega)]; omega) (by rw [toNat_ofNat9 (by omega)]; exact he)
            h1 hi h2 this
      · rw [hx] at h2
        exact .right (by rw [toNat_ofNat9 (by omega)]; omega) (by rw [toNat_ofNat9 (by omega)]; exact he)
            h1 hi h2 this

/-- A node of a complete tree has one path, the way down to it (R119). -/
theorem isPath_eq {s : State} {T : Tree} (hT : HoldsTree s T) {i : NodeIdx} {q : List Bit} (hq : IsPath s i q) :
    i.toNat < treeSize T ∧ q = pathIn T 0 i.toNat := by
  have hn := hT.counts.ncnt
  have hle := hT.size_le
  induction hq with
  | root => exact ⟨by simp [treeSize_pos], by simp [pathIn_base]⟩
  | @left p i q e hp he ht hi hc hq ih =>
    obtain ⟨n, h1, h2, h3, h4⟩ := internal_entry hT.holds (Nat.zero_le _) (by omega) he ht
    have hc' := hc
    rw [h2, Option.some.injEq] at hc'
    have hit : i.toNat = p.toNat + 1 := by rw [← hc', toNat_ofNat9 (by omega)]
    have hcs : childSide (BitVec.ofNat 9 i.toNat) e = some false := by simp [childSide, ht, hc]
    have hpu := parentIn_unique hT.holds (by omega) (Nat.zero_le _) (by omega) he (by omega) hcs
    refine ⟨by omega, ?_⟩
    rw [pathIn_eq_append hpu.1 hpu.2.1, hpu.2.2, ← ih.2]
  | @right p i q e hp he ht hi hc hq ih =>
    obtain ⟨n, h1, h2, h3, h4⟩ := internal_entry hT.holds (Nat.zero_le _) (by omega) he ht
    have hc' := hc
    rw [h3, Option.some.injEq] at hc'
    have hit : i.toNat = p.toNat + 1 + n := by rw [← hc', toNat_ofNat9 (by omega)]
    have hne : e.left ≠ some i := by
      rw [h2]; intro hh; rw [Option.some.injEq] at hh; rw [← hh, toNat_ofNat9 (by omega)] at hit; omega
    have hcs : childSide (BitVec.ofNat 9 i.toNat) e = some true := by simp [childSide, ht, hc, hne]
    have hpu := parentIn_unique hT.holds (by omega) (Nat.zero_le _) (by omega) he (by omega) hcs
    refine ⟨by omega, ?_⟩
    rw [pathIn_eq_append hpu.1 hpu.2.1, hpu.2.2, ← ih.2]

/-- A CODE entry is the length of its path and the path's bits in emission order (R31). -/
theorem code_of_path {p : List Bit} (h : p.length ≤ 255) : (codeOfPath p).clen.toNat = p.length ∧ ∀ k,
    (codeOfPath p).cbits.getLsbD k = p.getD k false := by
  refine ⟨by simp [codeOfPath]; omega, fun k => ?_⟩
  rw [codeOfPath, getLsbD_packBits]
  by_cases hk : k < 255
  · simp [hk]
  · simp [hk]; rw [List.getElem?_eq_none (by omega)]; rfl

/-! ## What keeps the invariant -/

/-- A status of class None keeps the invariant. -/
theorem inv_raise_none {s : State} {e : Status} (h : Inv s) (he : effectClass e = .none) (hn : e ≠ .ok) :
    Inv (raise e s) := by
  rw [raise_none s he]
  exact h.of_same ⟨rfl, rfl, rfl, rfl, rfl, rfl, rfl⟩ rfl (.inl rfl) ⟨rfl, rfl, rfl, rfl, rfl, rfl⟩
      (errOk_record h.err hn rfl rfl)

/-- In LOADING no session is open and nothing is counted. -/
theorem noSession_of_loading {s : State} (h : Inv s) (ht : s.tstate = .loading) : NoSession s := by
  have := h.tree; rw [treeOk, ht] at this; exact this.2

/-- A status of class Discard, raised in LOADING, keeps the invariant (R114). -/
theorem inv_raise_discard {s : State} {e : Status} (h : Inv s) (he : effectClass e = .discard) (hn : e ≠ .ok)
    (ht : s.tstate = .loading) : Inv (raise e s) := by
  rw [raise_discard s he]
  have hs := noSession_of_loading h ht
  refine ⟨rfl, rfl, fun hne => ⟨rfl, hs.encSymcnt, hs.encBitcnt⟩, errOk_record h.err hn rfl rfl, ?_⟩
  exact ⟨⟨rfl, rfl, rfl, rfl⟩, rfl, ⟨rfl, rfl, hs.decBitcnt, hs.decSymcnt, hs.encSymcnt, hs.encBitcnt, rfl⟩⟩

/-- A status of class Halt, raised in a running session, keeps the invariant (R243). -/
theorem inv_raise_halt {s : State} {e : Status} (h : Inv s) (he : effectClass e = .halt) (hn : e ≠ .ok)
    (ht : s.tstate = .ready) (hd : s.dstate = .run) : Inv (raise e s) := by
  rw [raise_halt s he]
  refine h.of_ready ⟨rfl, rfl, rfl, rfl, rfl, rfl, rfl⟩ ht ht rfl (fun _ => ⟨rfl, rfl⟩)
      (errOk_record h.err hn rfl rfl) ?_
  exact ⟨fun h => by simp at h, fun _ => (h.session ht).2 (by simp [hd])⟩

/-- The cleared error record. -/
theorem errOk_zero : errOk (State.resetOf true) := ⟨⟨.ok, rfl⟩, ⟨.ok, rfl⟩, by decide⟩

/-- A state that holds an incomplete tree, with everything else as in a LOADING state, meets the invariant. -/
theorem inv_of_grown_loading {s t : State} {p : Partial} (h : Inv s) (ht : s.tstate = .loading) (hg :
    Grown t (.inl p))
  (hsm : partialSize p ≤ 511) (h1 : t.tstate = .loading)
  (h2 : t.code = s.code) (h3 : t.hasEncoder = s.hasEncoder) (he1 : t.errFirst = s.errFirst) (he2 :
      t.errLast = s.errLast)
  (hd : t.dstate = s.dstate) (hc : t.cur = s.cur) (c1 : t.decBitcnt = s.decBitcnt) (c2 : t.decSymcnt = s.decSymcnt)
  (c3 : t.encSymcnt = s.encSymcnt) (c4 : t.encBitcnt = s.encBitcnt) : Inv t := by
  have hs := noSession_of_loading h ht
  have herr := h.err
  refine ⟨hg.keys, by rw [h2, h.code], fun hne => ⟨h2.trans hs.code, c3.trans hs.encSymcnt,
      c4.trans hs.encBitcnt⟩, by rw [he1, he2]; exact herr, ?_⟩
  rw [treeOk, h1]
  exact ⟨.inr ⟨p, hg.holds, hg.slots, hg.counts, hsm⟩, hd.trans hs.dstate, hc.trans hs.cur,
      c1.trans hs.decBitcnt, c2.trans hs.decSymcnt, c3.trans hs.encSymcnt, c4.trans hs.encBitcnt, h2.trans hs.code⟩

/-- An allocation in a LOADING state that meets the invariant gives a tree in the making (R115). -/
theorem grown_of_inv {s : State} (h : Inv s) (ht : s.tstate = .loading) (hn : s.ncnt ≠ 511) (tag : Tag) (b : Byte)
    (hb : tag = .leaf → isPresent s b = false) : ∃ x, Grown (allocNode tag b s) x ∧ growthSize x ≤ 511 := by
  have := h.tree; rw [treeOk, ht] at this
  rcases this.1 with h1 | ⟨p, hp⟩
  · exact ⟨_, allocNode_first h.nodes h1 tag b, by cases tag <;> simp [seed, growthSize, partialSize, treeSize]⟩
  · have hlt : partialSize p < 511 := by
      have h1 := hp.small
      have h2 := hp.counts.ncnt
      have : s.ncnt.toNat ≠ 511 := fun h => hn (BitVec.eq_of_toNat_eq h)
      simp only [Config.nodeCap] at h1; omega
    refine ⟨_, allocNode_next h.nodes hp hlt tag b fun h hm => ?_, ?_⟩
    · have := (hp.counts.present b).2 hm; rw [hb h] at this; cases this
    · rw [attach_size]; cases tag <;> simp [seed, growthSize, partialSize, treeSize] <;> omega

/-- A response does not touch the invariant. -/
theorem inv_respond {s : State} (r : Response) (h : Inv s) : Inv (respond r s) :=
  h.of_same ⟨rfl, rfl, rfl, rfl, rfl, rfl, rfl⟩ rfl (.inl rfl) ⟨rfl, rfl, rfl, rfl, rfl, rfl⟩ h.err

/-- In LOADING the invariant does not rest on LSYM. -/
theorem inv_setLsym {s : State} (h : Inv s) (ht : s.tstate = .loading) (b : Bool) : Inv { s with lsym := b } :=
  h.of_same ⟨rfl, rfl, rfl, rfl, rfl, rfl, rfl⟩ rfl (.inr ht) ⟨rfl, rfl, rfl, rfl, rfl, rfl⟩ h.err

/-- An allocation that leaves slots pending keeps the invariant (R115). -/
theorem inv_alloc {s : State} (h : Inv s) (ht : s.tstate = .loading) (hn : s.ncnt ≠ 511) (tag : Tag) (b : Byte)
    (hb : tag = .leaf → isPresent s b = false) (hs : (allocNode tag b s).slots ≠ []) : Inv (allocNode tag b s) := by
  obtain ⟨x, hg, hsz⟩ := grown_of_inv h ht hn tag b hb
  cases x with
  | inr t => exact absurd hg.slots hs
  | inl p =>
    exact inv_of_grown_loading h ht hg hsz (by simp [ht]) (by simp) (by simp) (by simp) (by simp) (by simp)
        (by simp) (by simp) (by simp) (by simp) (by simp)

/-- An allocation that fills the last slot, with Complete, keeps the invariant (R117, R118). -/
theorem inv_complete {s : State} (h : Inv s) (ht : s.tstate = .loading) (hl : s.lsym = false) (hn :
    s.ncnt ≠ 511) (tag : Tag) (b : Byte)
    (hb : tag = .leaf → isPresent s b = false) (hs : (allocNode tag b s).slots = []) :
        Inv (complete (allocNode tag b s)) := by
  obtain ⟨x, hg, hsz⟩ := grown_of_inv h ht hn tag b hb
  have hns := noSession_of_loading h ht
  cases x with
  | inl p => rw [hg.slots] at hs; exact absurd hs (partialSlots_ne_nil _ _)
  | inr t =>
    have hT := complete_holdsTree hg
    have herr := h.err
    refine ⟨hg.keys, ?_, ?_, ?_, ?_⟩
    · simp only [complete]
      split
      · exact storeWf_buildCode (by simp [hns.code, storeWf])
      · simp [hns.code, storeWf]
    · intro hne
      have hne' : s.hasEncoder = false := by simpa [complete] using hne
      simp [complete, hne', hns.code, hns.encSymcnt, hns.encBitcnt]
    · simpa [complete] using herr
    · rw [treeOk];
      simp only [complete]
      refine ⟨⟨t, hT⟩, by simpa using hs, by simpa using hl, fun _ => rfl, fun h => by simp at h⟩

/-- A child of an internal node lies above it, inside the tree (R122). -/
theorem exists_child {m : List (Nat × Node)} {T : Tree} {base k : Nat} {e : Node} (hh : holdsAt m base T) (hk1 :
    base ≤ k) (hk2 : k < base + treeSize T)
   (he : storeRead m k = some e) (hi : e.tag = .internal) (t : Bit) : ∃ c, (if t then e.right else e.left)
       = some (BitVec.ofNat 9 c) ∧ base < c ∧ c < base + treeSize T := by
  induction T generalizing base with
  | leaf s =>
    simp only [treeSize] at hk2
    obtain rfl : k = base := by omega
    rw [holdsAt] at hh; rw [hh] at he; cases he; simp at hi
  | internal l r ihl ihr =>
    simp only [treeSize] at hk2 ⊢
    simp only [holdsAt] at hh
    have := treeSize_pos l
    have := treeSize_pos r
    by_cases hkb : k = base
    · subst hkb
      rw [hh.1] at he; cases he
      cases t
      · exact ⟨k+1, rfl, by omega, by omega⟩
      · exact ⟨k+1+treeSize l, rfl, by omega, by omega⟩
    · by_cases hkl : k < base + 1 + treeSize l
      · obtain ⟨c, h1, h2, h3⟩ := ihl hh.2.1 (by omega) (by omega); exact ⟨c, h1, by omega, by omega⟩
      · obtain ⟨c, h1, h2, h3⟩ := ihr hh.2.2 (by omega) (by omega); exact ⟨c, h1, by omega, by omega⟩

/-- In RUN on a tree that is not degenerate, CUR is an internal node and both its children are nodes (R168). -/
theorem walk_child {s : State} (h : Inv s) (ht : s.tstate = .ready) (hd : s.dstate = .run) (hg :
    degen s = false) (t : Bit) :
   s.cur.toNat < s.ncnt.toNat ∧ (nodeRead s s.cur).tag = .internal ∧
       (nodeChild s s.cur t).toNat < s.ncnt.toNat ∧ 0 < (nodeChild s s.cur t).toNat ∧
   (if t then (nodeRead s s.cur).right else (nodeRead s s.cur).left) = some (nodeChild s s.cur t) := by
  obtain ⟨h1, h2⟩ := ((h.session ht).2 (by simp [hd])).resolve_left (by simp [hg])
  obtain ⟨T, hT⟩ := h.exists_tree ht
  have hn : s.ncnt.toNat = treeSize T := hT.counts.ncnt
  obtain ⟨c, h3, h4, h5⟩ := exists_child hT.holds (Nat.zero_le _) (by omega) (h.read h1) h2 t
  have := hT.size_le
  have hc : nodeChild s s.cur t = BitVec.ofNat 9 c := by simp [nodeChild, h3]
  rw [hc, toNat_ofNat9 (by omega)]
  exact ⟨h1, h2, by omega, by omega, h3⟩

/-- The root of a tree that is not degenerate is internal. -/
theorem root_internal {s : State} (h : Inv s) (ht : s.tstate = .ready) (hg : degen s = false) :
    (0:NodeIdx).toNat < s.ncnt.toNat ∧ (nodeRead s 0).tag = .internal := by
  obtain ⟨T, hT⟩ := h.exists_tree ht
  have hn := hT.counts.ncnt
  have hh := hT.holds
  cases T with
  | leaf b =>
    simp only [treeSize] at hn
    have : s.ncnt = 1 := BitVec.eq_of_toNat_eq hn
    rw [degen_iff.2 ⟨ht, this⟩] at hg; cases hg
  | internal l r =>
    simp only [treeSize] at hn
    refine ⟨by simp; omega, ?_⟩
    have h0 := hh.1
    unfold nodeRead; change ((storeRead s.nodes 0).getD _).tag = _; rw [h0]; rfl

/-- Every command keeps the invariant. -/
theorem inv_effect {s t : State} {i : Instr} (h : Inv s) (he : Effect i s t) : Inv t := by
  have hrun : ∀ (b c x y), s.tstate = .ready → (b = .run ∧ c = 0 ∨ b = .idle ∧ c = 0) → Inv {
      s with dstate := b, cur := c, decBitcnt := x, decSymcnt := y } := by
    intro b c x y ht hb
    refine h.of_ready ⟨rfl, rfl, rfl, rfl, rfl, rfl, rfl⟩ ht ht rfl (fun _ => ⟨rfl, rfl⟩) h.err ?_
    have hc : c = 0 := by rcases hb with h | h <;> exact h.2
    subst hc
    refine ⟨fun _ => rfl, fun _ => ?_⟩
    by_cases hg : degen s = true
    · exact .inl ⟨rfl, hg⟩
    · have := root_internal h ht (by simpa using hg); exact .inr this
  cases he with
  | nop => exact inv_respond _ h
  | reset =>
    refine inv_respond _ ⟨rfl, rfl, fun _ => ⟨rfl, rfl, rfl⟩, errOk_zero, ?_⟩
    exact ⟨⟨rfl, rfl, rfl, rfl⟩, rfl, ⟨rfl, rfl, rfl, rfl, rfl, rfl, rfl⟩⟩
  | clrErr =>
    exact inv_respond _ (h.of_same ⟨rfl, rfl, rfl, rfl, rfl, rfl, rfl⟩ rfl (.inl rfl) ⟨rfl, rfl, rfl, rfl, rfl,
        rfl⟩ errOk_zero)
  | readReg => exact inv_respond _ h
  | badRegister => exact inv_raise_none h rfl (by decide)
  | treeStart =>
    refine inv_respond _ ⟨rfl, rfl, fun _ => ⟨rfl, rfl, rfl⟩, h.err, ?_⟩
    exact ⟨.inl ⟨rfl, rfl, rfl, rfl⟩, ⟨rfl, rfl, rfl, rfl, rfl, rfl, rfl⟩⟩
  | byteOutside ht => exact inv_raise_none h rfl (by decide)
  | leafMarker ht hl => exact inv_respond _ (inv_setLsym h ht _)
  | badMarker ht hl h0 h1 => exact inv_raise_discard h rfl (by decide) ht
  | dupSymbol ht hl hp => exact inv_raise_discard h rfl (by decide) ht
  | overflow ht hb hn => exact inv_raise_discard h rfl (by decide) ht
  | allocInternal ht hl hn => exact inv_respond _ (inv_alloc h ht hn _ _ (by simp) (allocNode_internal_slots _ _))
  | allocLeaf ht hl hp hn hs => exact inv_respond _ (inv_alloc (inv_setLsym h ht false) ht hn _ _ (fun _ => hp) hs)
  | completes ht hl hp hn hs =>
    exact inv_respond _ (inv_complete (inv_setLsym h ht false) ht rfl hn _ _ (fun _ => hp) hs)
  | endEmpty ht => exact inv_raise_none h rfl (by decide)
  | endLoading ht => exact inv_raise_discard h rfl (by decide) ht
  | endReady ht => exact inv_respond _ h
  | startNoTree ht => exact inv_raise_none h rfl (by decide)
  | start ht => exact inv_respond _ (hrun _ _ _ _ ht (.inl ⟨rfl, rfl⟩))
  | noTree hi ht => exact inv_raise_none h rfl (by decide)
  | halted hi ht hd => exact inv_raise_none h rfl (by decide)
  | idle hi ht hd => exact inv_raise_none h rfl (by decide)
  | degenZero hi ht hd hg =>
    refine inv_respond _ (h.of_ready ⟨rfl, rfl, rfl, rfl, rfl, rfl, rfl⟩ ht ht rfl (fun _ => ⟨rfl, rfl⟩) h.err ?_)
    exact h.session ht
  | degenOne hi ht hd hg => exact inv_raise_halt h rfl (by decide) ht hd
  | walkLeaf hi ht hd hg hx =>
    refine inv_respond _ (h.of_ready ⟨rfl, rfl, rfl, rfl, rfl, rfl, rfl⟩ ht ht rfl (fun _ => ⟨rfl, rfl⟩) h.err ?_)
    have := root_internal h ht hg; exact ⟨fun _ => rfl, fun _ => .inr this⟩
  | walkInternal hi ht hd hg hx =>
    refine inv_respond _ (h.of_ready ⟨rfl, rfl, rfl, rfl, rfl, rfl, rfl⟩ ht ht rfl (fun _ => ⟨rfl, rfl⟩) h.err ?_)
    obtain ⟨h1, h2, h3, h4, h5⟩ := walk_child h ht hd hg (by assumption)
    exact ⟨fun h => by simp [countBit, hd] at h, fun _ => .inr ⟨h3, hx⟩⟩
  | invalidBit hc ht hd => exact inv_raise_halt h rfl (by decide) ht hd
  | truncated ht hd hc => exact inv_raise_halt h rfl (by decide) ht hd
  | ends ht hd hc => exact inv_respond _ (hc ▸ hrun _ _ _ _ ht (.inr ⟨rfl, rfl⟩))
  | noEncoder he => exact inv_raise_none h rfl (by decide)
  | encNoTree he ht => exact inv_raise_none h rfl (by decide)
  | unknownSymbol he ht hp => exact inv_raise_none h rfl (by decide)
  | encodes he ht hp =>
    refine inv_respond _ (h.of_ready ⟨rfl, rfl, rfl, rfl, rfl, rfl, rfl⟩ ht ht rfl (fun h =>
        by rw [he] at h; cases h) h.err (h.session ht))

/-- The invariant does not rest on what the host presents. -/
theorem inv_inputs {s : State} (h : Inv s) (l) : Inv {s with inputs := l} :=
  h.of_same ⟨rfl, rfl, rfl, rfl, rfl, rfl, rfl⟩ rfl (.inl rfl) ⟨rfl, rfl, rfl, rfl, rfl, rfl⟩ h.err

end Sys2Proof.Machine
end

