-- ==== Sys2Proof/Laws/Codes.lean ====
section
/-! SUPPORT. The codes of a READY tree: their lengths, that none begins another, and that ENC_SYM answers them
(spec/42_encode.md R140 to R147). -/

namespace Sys2Proof.Machine

/-- A tree is degenerate exactly when it is a leaf (R34). -/
theorem degen_tree {s : State} {T : Tree} (ht : s.tstate = .ready) (hT : HoldsTree s T) : degen s = true ↔ ∃ b,
    T = .leaf b := by
  have hn := hT.counts.ncnt
  rw [degen_iff]
  cases T with
  | leaf b => simp only [treeSize] at hn; exact ⟨fun _ => ⟨b, rfl⟩, fun _ => ⟨ht, BitVec.eq_of_toNat_eq hn⟩⟩
  | internal l r =>
    have := treeSize_pos l
    simp only [treeSize] at hn
    refine ⟨fun h => ?_, fun ⟨b, hb⟩ => by cases hb⟩
    have := congrArg BitVec.toNat h.2
    rw [hn] at this
    simp at this; omega

/-- A code has 1 to 255 bits (R125, R142, R146). -/
theorem payloadCode_length {T : Tree} (hd : DistinctLeaves T) {b : Byte} (hb : b ∈ treeSymbols T) :
    1 ≤ (payloadCode T b).length ∧ (payloadCode T b).length ≤ 255 := by
  cases T with
  | leaf c => simp [payloadCode]
  | internal l r =>
    have hsz := treeSize_succ (.internal l r)
    have := treeSize_le hd
    have h1 := codeIn_length_lt hd hb
    obtain ⟨k, hk⟩ := exists_leafIn hb 0
    rw [payloadCode]
    refine ⟨?_, by omega⟩
    rw [codeIn_eq hd hk]
    have hkr : k ≠ 0 := by
      simp only [leavesIn, List.mem_append] at hk
      rcases hk with h | h <;> have := leavesIn_range h <;> simp only at this <;> omega
    rw [pathIn, if_neg hkr]; split <;> simp

/-- The bits ENC_SYM answers are the code of its symbol in the tree (R141, R142). -/
theorem encBits_eq {s : State} {T : Tree} {b : Byte} (ht : s.tstate = .ready) (he : s.hasEncoder = true) (hT :
    HoldsTree s T) (hb : b ∈ treeSymbols T) : encBits b s = payloadCode T b := by
  unfold encBits
  split
  · obtain ⟨c, rfl⟩ := (degen_tree ht hT).1 ‹_›; rfl
  · cases T with
    | leaf c => exact absurd ((degen_tree ht hT).2 ⟨c, rfl⟩) ‹_›
    | internal l r =>
      have := payloadCode_length hT.counts.distinct hb
      rw [codeRead, hT.code he b hb, Option.getD_some]; exact codeBits_codeOfPath this.2

/-- An OK response of ENC_SYM: the state holds a tree with that symbol, and the response is its code (R140, R65). -/
theorem encSym_ok {s u : State} {b : Byte} {r : Response} (h : Inv s) (hx : exec (.encSym b) s = .next u) (hr :
    u.rsps = s.rsps ++ [r]) (hok : r.status = .ok) :
  ∃ T, s.tstate = .ready ∧ s.hasEncoder = true ∧ HoldsTree s T ∧ b ∈ treeSymbols T ∧
      u = emitCode (payloadCode T b) s ∧ r.clen.toNat = (payloadCode T b).length ∧
    r.cbits = packBits 256 (payloadCode T b) ∧ responseBits r = payloadCode T b := by
  have := effect_of_exec hx
  cases this with
  | noEncoder h1 => simp at hr; subst hr; simp at hok
  | encNoTree h1 h2 => simp at hr; subst hr; simp at hok
  | unknownSymbol h1 h2 h3 => simp at hr; subst hr; simp at hok
  | noTree hi => rcases hi with ⟨_, h⟩ | ⟨_, h⟩ | h <;> cases h
  | halted hi => rcases hi with ⟨_, h⟩ | ⟨_, h⟩ | h <;> cases h
  | idle hi => rcases hi with ⟨_, h⟩ | ⟨_, h⟩ | h <;> cases h
  | degenZero hi => rcases hi with h | ⟨_, h, _⟩ <;> cases h
  | degenOne hi => rcases hi with h | ⟨_, h, _⟩ <;> cases h
  | walkLeaf hi => rcases hi with h | ⟨_, h, _⟩ <;> cases h
  | walkInternal hi => rcases hi with h | ⟨_, h, _⟩ <;> cases h
  | encodes he ht hp =>
    obtain ⟨T, hT⟩ := h.exists_tree ht
    have hb := (hT.counts.present b).1 hp
    have hl := payloadCode_length hT.counts.distinct hb
    have heq := encBits_eq ht he hT hb
    rw [heq] at hr ⊢
    simp only [emitCode, respond_rsps, List.append_cancel_left_eq, List.cons.injEq, and_true] at hr
    subst hr
    have hcl : (BitVec.ofNat 8 (payloadCode T b).length).toNat = (payloadCode T b).length := by simp; omega
    refine ⟨T, ht, he, hT, hb, rfl, hcl, rfl, ?_⟩
    simp only [responseBits, hcl]
    exact unpackBits_packBits (by omega)

/-- The path to a leaf begins no other path (R145). -/
theorem leaf_path_not_prefix {T : Tree} {base j k : Nat} {a : Byte} (hj : (j, a) ∈ leavesIn T base) (hk1 :
    base ≤ k) (hk2 : k < base + treeSize T)
    (h : pathIn T base j <+: pathIn T base k) : j = k := by
  induction T generalizing base with
  | leaf s => simp only [leavesIn, List.mem_singleton, Prod.mk.injEq] at hj; simp only [treeSize] at hk2; omega
  | internal l r ihl ihr =>
    simp only [leavesIn, List.mem_append] at hj
    simp only [treeSize] at hk2
    have hjb : j ≠ base := by rcases hj with h | h <;> have := leavesIn_range h <;> simp only at this <;> omega
    simp only [pathIn, if_neg hjb] at h
    by_cases hkb : k = base
    · rw [if_pos hkb] at h; have := List.prefix_nil.1 h; split at this <;> cases this
    · rw [if_neg hkb] at h
      have hjl : j < base + 1 + treeSize l ↔ (j, a) ∈ leavesIn l (base + 1) := by
        refine ⟨fun hlt => hj.resolve_right fun hh => ?_, fun hh => ?_⟩ <;> have :=
            leavesIn_range hh <;> simp only at this <;> omega
      split at h
      · split at h
        · exact ihl (hjl.1 ‹_›) (by omega) (by omega) (List.cons_prefix_cons.1 h).2
        · have := (List.cons_prefix_cons.1 h).1; cases this
      · split at h
        · have := (List.cons_prefix_cons.1 h).1; cases this
        · exact ihr (hj.resolve_left fun hh => ‹¬ j < _› (hjl.2 hh)) (by omega) (by omega)
              (List.cons_prefix_cons.1 h).2

/-- One leaf, one symbol. -/
theorem leafIn_symbol_unique {T : Tree} {base k : Nat} {a b : Byte} (ha : (k, a) ∈ leavesIn T base) (hb : (k, b)
    ∈ leavesIn T base) : a = b := by
  induction T generalizing base with
  | leaf s => simp only [leavesIn, List.mem_singleton, Prod.mk.injEq] at ha hb; rw [ha.2, hb.2]
  | internal l r ihl ihr =>
    simp only [leavesIn, List.mem_append] at ha hb
    rcases ha with h | h <;> rcases hb with h' | h'
    · exact ihl h h'
    · have := leavesIn_range h; have := leavesIn_range h'; simp only at *; omega
    · have := leavesIn_range h; have := leavesIn_range h'; simp only at *; omega
    · exact ihr h h'

/-- NODE holds one tree. -/
theorem holdsAt_unique {m : List (Nat × Node)} {T T' : Tree} {i : Nat} (h : holdsAt m i T) (h' : holdsAt m i T')
    : T = T' := by
  induction T generalizing i T' with
  | leaf s =>
    cases T' with
    | leaf s' => simp only [holdsAt] at h h'; rw [h] at h'; simp at h'; rw [h']
    | internal l' r' => simp only [holdsAt] at h h'; rw [h] at h'; simp at h'
  | internal l r ihl ihr =>
    cases T' with
    | leaf s' => simp only [holdsAt] at h h'; rw [h'] at h; simp at h
    | internal l' r' =>
      simp only [holdsAt] at h h'
      have e1 := ihl h.2.1 h'.2.1
      subst e1
      rw [ihr h.2.2 h'.2.2]

/-- No code begins the code of another symbol (R145). -/
theorem payloadCode_not_prefix {T : Tree} (hd : DistinctLeaves T) {a b : Byte} (ha : a ∈ treeSymbols T) (hb :
    b ∈ treeSymbols T) (hab : a ≠ b) : ¬ payloadCode T a <+: payloadCode T b := by
  cases T with
  | leaf c => simp [treeSymbols] at ha hb; exact absurd (ha.trans hb.symm) hab
  | internal l r =>
    intro h
    obtain ⟨j, hj⟩ := exists_leafIn ha 0
    obtain ⟨k, hk⟩ := exists_leafIn hb 0
    simp only [payloadCode] at h
    rw [codeIn_eq hd hj, codeIn_eq hd hk] at h
    have hr := leavesIn_range hk
    have := leaf_path_not_prefix hj (Nat.zero_le _) hr.2 h
    subst this
    exact hab (leafIn_symbol_unique hj hk)

end Sys2Proof.Machine
end

