-- ==== Sys2Proof/Laws/Nodes.lean ====
section
/-! SUPPORT. What an allocation in a LOADING state changes (spec/41_tree_load.md R115): the entries of NODE, and the
rest. -/

namespace Sys2Proof.Machine

/-- In LOADING no node is held, or an incomplete tree is. -/
theorem loading_cases {s : State} (h : Inv s) (ht : s.tstate = .loading) : NoNodes s ∨ ∃ p, LoadsPartial s p := by
  have := h.tree; rw [treeOk, ht] at this; exact this.1

/-- What an allocation writes into NODE, when a top slot names an allocated node (R115). -/
theorem nodeAllocated_of {s : State} (tag : Tag) (b : Byte) (hlt : s.ncnt.toNat < 511)
    (h0 : s.ncnt = 0 → s.slots = [])
    (h1 : s.ncnt ≠ 0 → ∃ top rest pe, s.slots = top :: rest ∧ top.parent.toNat < s.ncnt.toNat ∧
      storeRead s.nodes top.parent.toNat = some pe) :
    NodeAllocated s (allocNode tag b s) (newNode tag b) := by
  intro k
  have hidx : nextIndex s = BitVec.ofNat 9 s.ncnt.toNat := by rw [nextIndex, ncnt_setWidth]
  have hin : (BitVec.ofNat 9 s.ncnt.toNat).toNat = s.ncnt.toNat := toNat_ofNat9 (by omega)
  by_cases hz : s.ncnt = 0
  · have : (allocNode tag b s).nodes = storeWrite s.nodes s.ncnt.toNat (newNode tag b) := by
      simp only [allocNode, placeNode, if_pos hz, hidx]
      cases tag <;> simp only [growTree, countNode, markPresent, nodeWrite, hin]
    rw [this, h0 hz, storeRead_storeWrite]
  · obtain ⟨top, rest, pe, hsl, hpar, hpe⟩ := h1 hz
    set n := BitVec.ofNat 9 s.ncnt.toNat with hndef
    set w := nodeWrite n (newNode tag b) s with hw
    have hr : nodeRead { w with slots := rest } top.parent = pe := by
      simp only [nodeRead, hw, nodeWrite, hin, storeRead_storeWrite]
      rw [if_neg (by omega), hpe]; rfl
    have hln : linkTop n w = linkChild top.parent top.side n { w with slots := rest } := by
      have : w.slots = top :: rest := hsl
      simp only [linkTop, this]
    have : (allocNode tag b s).nodes =
        storeWrite (storeWrite s.nodes s.ncnt.toNat (newNode tag b)) top.parent.toNat (setChild top.side n pe) := by
      have h2 : (allocNode tag b s).nodes = (linkTop n w).nodes := by
        simp only [allocNode, placeNode, if_neg hz, hidx]; cases tag <;> rfl
      rw [h2, hln, linkChild_nodes, hr]
      simp only [hw, nodeWrite, hin]
    rw [this, hsl, storeRead_storeWrite, storeRead_storeWrite]
    by_cases hk : k = top.parent.toNat
    · subst hk
      rw [if_pos rfl, if_neg (by omega)]
      simp only [if_true, hpe]
      rfl
    · simp only [if_neg hk]

/-- In LOADING a top slot names an allocated node, and none is pending while no node is allocated (R117). -/
theorem top_slot {s : State} (h : Inv s) (ht : s.tstate = .loading) :
    (s.ncnt = 0 → s.slots = []) ∧
      (s.ncnt ≠ 0 → ∃ top rest pe, s.slots = top :: rest ∧ top.parent.toNat < s.ncnt.toNat ∧
        storeRead s.nodes top.parent.toNat = some pe) := by
  rcases loading_cases h ht with h1 | ⟨p, hp⟩
  · exact ⟨fun _ => h1.slots, fun hn => absurd h1.ncnt hn⟩
  · have hn := hp.counts.ncnt
    have hpos := partialSize_pos p
    have htop := topSlot_range 0 p
    have hsm := hp.small
    simp only [Config.nodeCap] at hsm
    refine ⟨fun h0 => by rw [h0] at hn; simp at hn; omega, fun _ => ?_⟩
    obtain ⟨pe, hpe, -, -⟩ := partialHolds_top hp.holds
    have hpar : (BitVec.ofNat 9 (topSlot 0 p).1).toNat = (topSlot 0 p).1 := toNat_ofNat9 (by omega)
    exact ⟨_, _, pe, hp.slots.trans (partialSlots_eq 0 p), by rw [hpar]; omega, by rw [hpar]; exact hpe⟩

/-- In LOADING at most 511 nodes are allocated. -/
theorem ncnt_lt {s : State} (h : Inv s) (ht : s.tstate = .loading) (hn : s.ncnt ≠ 511) : s.ncnt.toNat < 511 := by
  have hn511 : s.ncnt.toNat ≠ 511 := fun h => hn (BitVec.eq_of_toNat_eq h)
  rcases loading_cases h ht with h1 | ⟨p, hp⟩
  · rw [h1.ncnt]; decide
  · have := hp.counts.ncnt
    have := hp.small
    simp only [Config.nodeCap] at this
    omega

/-- What an allocation writes into NODE (R115). -/
theorem nodeAllocated {s : State} (h : Inv s) (ht : s.tstate = .loading) (hn : s.ncnt ≠ 511) (tag : Tag) (b :
    Byte) :
    NodeAllocated s (allocNode tag b s) (newNode tag b) :=
  nodeAllocated_of tag b (ncnt_lt h ht hn) (top_slot h ht).1 (top_slot h ht).2

/-- What an allocation changes besides NODE (R115). -/
theorem allocNode_eq {s : State} (h : Inv s) (ht : s.tstate = .loading) (tag : Tag) (b : Byte) :
    allocNode tag b s =
      (match tag with
      | .internal =>
        { s with
          nodes := (allocNode tag b s).nodes, ncnt := s.ncnt + 1
          slots := ⟨BitVec.ofNat 9 s.ncnt.toNat, false⟩ :: ⟨BitVec.ofNat 9 s.ncnt.toNat, true⟩ :: s.slots.tail }
      | .leaf =>
        { s with
          nodes := (allocNode tag b s).nodes, ncnt := s.ncnt + 1, nleaf := s.nleaf + 1, slots := s.slots.tail
          present := (allocNode tag b s).present }) := by
  have hidx : nextIndex s = BitVec.ofNat 9 s.ncnt.toNat := by rw [nextIndex, ncnt_setWidth]
  have hp : placeNode tag b (nextIndex s) s =
      { s with nodes := (placeNode tag b (nextIndex s) s).nodes, slots := s.slots.tail } := by
    unfold placeNode
    split
    · have : s.slots = s.slots.tail := by
        rcases loading_cases h ht with h1 | ⟨p, hp⟩
        · rw [h1.slots]; rfl
        · have := hp.counts.ncnt; have h4 := partialSize_pos p; rw [‹s.ncnt = 0›] at this; simp at this; omega
      conv_rhs => rw [← this]
      rfl
    · rcases s with ⟨_, _, _, _, _, sl⟩; cases sl <;> rfl
  have hn : (allocNode tag b s).nodes = (placeNode tag b (nextIndex s) s).nodes := by cases tag <;> rfl
  rw [hn]
  cases tag
  · simp only [allocNode]
    rw [hp, hidx]
    rfl
  · simp only [allocNode]
    rw [hp]
    rfl

/-- What allocating a leaf does to NODE, PRESENT and SLOTS (R113, R115). -/
theorem allocLeaf_spec {s : State} {b : Byte} (h : Inv s) (ht : s.tstate = .loading) (hn : s.ncnt ≠ 511) :
  NodeAllocated s (allocNode .leaf b { s with lsym := false }) ⟨.leaf, b, none, none⟩ ∧
    (∀ a : Byte, isPresent (allocNode .leaf b { s with lsym := false }) a = true ↔ isPresent s a = true ∨ a = b) ∧
    (allocNode .leaf b { s with lsym := false }).slots = s.slots.tail := by
  have hi := inv_setLsym h ht false
  refine ⟨nodeAllocated hi ht hn .leaf b, ?_, ?_⟩
  · intro a
    have hpr : ∀ x : State, isPresent (growTree .leaf b (nextIndex { s with lsym := false }) x)
        a = isPresent (markPresent b x) a := fun _ => rfl
    rw [allocNode, hpr, isPresent_markPresent]
    have : ∀ n e x, (linkTop n (nodeWrite n e x)).present = x.present := by
      intro n e x; unfold linkTop; split <;> rfl
    have hpp : (placeNode .leaf b (nextIndex { s with lsym := false }) {
        s with lsym := false }).present = s.present := by
      unfold placeNode; split
      · rfl
      · exact this _ _ _
    have : isPresent (countNode (placeNode .leaf b (nextIndex { s with lsym := false }) {
        s with lsym := false })) a = isPresent s a := by
      unfold isPresent countNode; rw [hpp]
    rw [this]; simp
  · have := congrArg State.slots (allocNode_eq hi ht .leaf b)
    exact this

/-- NODE stays in canonical form when an entry is written. -/
theorem storeWf_nodeWrite {s : State} (i e) (h : storeWf s.nodes = true) :
    storeWf (nodeWrite i e s).nodes = true := storeWf_storeWrite _ _ _ h
/-- NODE stays in canonical form when a node is allocated. -/
theorem storeWf_allocNode {s : State} (tag b) (h : storeWf s.nodes = true) :
    storeWf (allocNode tag b s).nodes = true := by
  have h1 : (allocNode tag b s).nodes = (placeNode tag b (nextIndex s) s).nodes := by cases tag <;> rfl
  rw [h1, placeNode]
  split
  · exact storeWf_nodeWrite _ _ h
  · unfold linkTop; split
    · exact storeWf_nodeWrite _ _ h
    · exact storeWf_nodeWrite _ _ (storeWf_nodeWrite _ _ h)

end Sys2Proof.Machine
end

