-- ==== Sys2Proof/Laws/Agree.lean ====
section
/-! SUPPORT. Two states that agree on every specified cell (spec/20_memory.md R75):
    what an allocation and Complete make
of them. -/

namespace Sys2Proof.Machine

section
variable {s s' : State}

/-- States that agree on specified cells differ in NODE and CODE only. -/
theorem Agree.field (h : AgreeOnSpecified s s') : ∃ n c, s' = { s with nodes := n, code := c } := ⟨_, _,
    h.rest.symm⟩

/-- A specified entry is read alike in both. -/
theorem Agree.read (h : Inv s) (ha : AgreeOnSpecified s s') {i : NodeIdx} (hi : i.toNat < s.ncnt.toNat) :
    nodesAgree (nodeRead s i) (nodeRead s' i) := by
  obtain ⟨f, hf, hn⟩ := ha.nodes _ hi _ (h.read hi)
  have : nodeRead s' i = f := by simp [nodeRead, hf]
  rw [this]; exact hn

/-- A change that leaves NODE, CODE and PRESENT alone keeps the agreement. -/
theorem agree_mk (h : AgreeOnSpecified s s') {t t' : State}
    (hr : { t with nodes := t'.nodes, code := t'.code } = t')
   (h1 : t.nodes = s.nodes) (h1' : t'.nodes = s'.nodes) (h2 : t.ncnt = s.ncnt) (h3 : t.code = s.code) (h3' :
       t'.code = s'.code)
   (h4 : t.hasEncoder = s.hasEncoder) (h5 : t.tstate = .ready → s.tstate = .ready) (h6 : t.present = s.present)
       : AgreeOnSpecified t t' := by
  refine ⟨hr, h1' ▸ h.canonical, ?_, ?_⟩
  · rw [h1, h1', h2]; exact h.nodes
  · intro he ht b hb
    rw [h3, h3']; exact h.code (h4 ▸ he) (h5 ht) b (by rw [← hb]; simp [isPresent, h6])

/-- States with no node allocated and no tree READY agree. -/
theorem agree_empty {t t' : State} (hr : { t with nodes := t'.nodes, code := t'.code } = t') (h1 :
    t'.nodes = []) (h2 : t.ncnt = 0) (h5 : t.tstate ≠ .ready) : AgreeOnSpecified t t' :=
  ⟨hr, by rw [h1]; rfl, by rw [h2]; intro i hi; simp at hi, fun _ ht => absurd ht h5⟩
end

/-- An entry agrees with itself. -/
theorem nodesAgree_refl (e : Node) : nodesAgree e e := ⟨rfl, rfl, fun _ => ⟨.inr rfl, .inr rfl⟩⟩

/-- Writing the same child field keeps the agreement of two entries. -/
theorem setChild_agree {e f : Node} (h : nodesAgree e f) (x : Bit) (c : NodeIdx) : nodesAgree (setChild x c e)
    (setChild x c f) := by
  obtain ⟨h1, h2, h3⟩ := h
  cases x
  · exact ⟨h1, h2, fun ht => ⟨.inr rfl, (h3 ht).2⟩⟩
  · exact ⟨h1, h2, fun ht => ⟨(h3 ht).1, .inr rfl⟩⟩

/-- An allocation reads NODE and CODE only to write them. -/
theorem allocNode_other (tag : Tag) (b : Byte) (s : State) (n c) :
    allocNode tag b { s with nodes := n, code := c } =
      { allocNode tag b s with nodes := (allocNode tag b { s with nodes := n, code := c }).nodes, code := c } := by
  rcases s with ⟨a1, a2, a3, nc, a5, sl⟩
  by_cases hz : nc = 0
  · subst hz; cases tag <;> rfl
  · cases sl <;> cases tag <;> simp only [allocNode, placeNode, if_neg hz] <;> rfl

/-- An allocation keeps the agreement (R115). -/
theorem allocNode_agree {s s' : State} (h : Inv s) (ha : AgreeOnSpecified s s') (ht : s.tstate = .loading) (hn :
    s.ncnt ≠ 511) (tag : Tag) (b : Byte) (hb : tag = .leaf → isPresent s b = false) :
   let t := allocNode tag b s; let t' := allocNode tag b s'
   { t with nodes := t'.nodes, code := t'.code } = t' ∧ storeWf t'.nodes = true ∧
     ∀ i, i < t.ncnt.toNat → ∀ e, storeRead t.nodes i = some e → ∃ f, storeRead t'.nodes i = some f ∧
         nodesAgree e f := by
  obtain ⟨n, c, rfl⟩ := Agree.field ha
  have hcan := ha.canonical
  have hnodes := ha.nodes
  simp only at hcan hnodes
  have hlt := ncnt_lt h ht hn
  obtain ⟨g0, g1⟩ := top_slot h ht
  -- NODE after the allocation, in s'
  have hA := nodeAllocated h ht hn tag b
  have hA' : NodeAllocated { s with nodes := n, code := c } (allocNode tag b { s with nodes := n, code := c })
      (newNode tag b) := by
    refine nodeAllocated_of tag b hlt g0 fun hz => ?_
    obtain ⟨top, rest, pe, h1, h2, h3⟩ := g1 hz
    obtain ⟨f, hf, -⟩ := hnodes _ h2 _ h3
    exact ⟨top, rest, f, h1, h2, hf⟩
  have ho := allocNode_other tag b s n c
  refine ⟨?_, storeWf_allocNode _ _ hcan, ?_⟩
  · have hc : (allocNode tag b { s with nodes := n, code := c }).code = c := by simp
    rw [hc]; exact ho.symm
  · intro i hi e he
    have hcnt : (allocNode tag b s).ncnt.toNat = s.ncnt.toNat + 1 := by
      have : (allocNode tag b s).ncnt = s.ncnt + 1 := by
        have := congrArg State.ncnt (allocNode_eq h ht tag b)
        cases tag <;> exact this
      rw [this, toNat_ncnt_succ (by omega)]
    rw [hcnt] at hi
    rw [hA i] at he
    rw [hA' i]
    simp only at he ⊢
    by_cases hi2 : i = s.ncnt.toNat
    · rw [if_pos hi2] at he ⊢
      cases he; exact ⟨_, rfl, nodesAgree_refl _⟩
    · rw [if_neg hi2] at he ⊢
      cases hsl : s.slots with
      | nil => rw [hsl] at he; exact hnodes i (by omega) e he
      | cons top rest =>
        rw [hsl] at he
        simp only at he ⊢
        by_cases hk : i = top.parent.toNat
        · rw [if_pos hk] at he ⊢
          obtain ⟨e0, he0, rfl⟩ := Option.map_eq_some_iff.1 he
          obtain ⟨f, hf, hag⟩ := hnodes i (by omega) e0 he0
          rw [hf]
          exact ⟨_, rfl, setChild_agree hag top.side _⟩
        · rw [if_neg hk] at he ⊢
          exact hnodes i (by omega) e he

/-- The path to a node is the same in both (R119). -/
theorem path_agree {s s' : State} {T : Tree} (hg : Grown s (.inr T)) (hw : storeWf s'.nodes = true) (hnc :
    s'.ncnt = s.ncnt)
   (hn : ∀ i, i < s.ncnt.toNat → ∀ e, storeRead s.nodes i = some e → ∃ f, storeRead s'.nodes i = some f ∧
       nodesAgree e f) :
   ∀ j fuel, j < treeSize T → j ≤ fuel → pathUp s' fuel (BitVec.ofNat 9 j) = pathIn T 0 j := by
  have hsz : s.ncnt.toNat = treeSize T := hg.counts.ncnt
  have hle := treeSize_le hg.counts.distinct
  have hcs : ∀ k e f i, storeRead s.nodes k = some e → k < s.ncnt.toNat → nodesAgree e f →
      childSide i f = childSide i e := by
    intro k e f i he hk hag
    obtain ⟨h1, h2, h3⟩ := hag
    unfold childSide
    rw [← h1]
    cases htag : e.tag with
    | leaf => rfl
    | internal =>
      obtain ⟨n, -, h5, h6, -⟩ := internal_entry hg.holds (Nat.zero_le _) (by omega) he htag
      obtain ⟨h7, h8⟩ := h3 htag
      have := h7.resolve_left (by rw [h5]; simp)
      have := h8.resolve_left (by rw [h6]; simp)
      simp only [← ‹e.left = f.left›, ← ‹e.right = f.right›]
  intro j fuel
  induction fuel generalizing j with
  | zero => intro _ h; obtain rfl : j = 0 := by omega
            simp [pathUp, pathIn_base]
  | succ fuel ih =>
    intro hj hf
    rw [pathUp]
    by_cases h0 : j = 0
    · subst h0; simp [pathIn_base]
    · have hp := parentIn_lt (t := T) (base := 0) (j := j) (by omega) (by omega)
      have hpar : parentOf s' (BitVec.ofNat 9 j) = some (BitVec.ofNat 9 (parentIn T 0 j).1, (parentIn T 0 j).2)
          := by
        apply findSome?_eq_of_unique
        · obtain ⟨e, he, hc⟩ := childSide_parentIn hg.holds (by omega) (show 0 < j by omega) (by omega)
          obtain ⟨f, hf, hag⟩ := hn _ (by omega) e he
          refine ⟨_, mem_of_storeRead hf, ?_⟩
          rw [if_pos (by simp only; rw [hnc]; omega)]
          simp only
          rw [hcs _ e f _ he (by omega) hag, hc]; rfl
        · rintro ⟨k, f⟩ hkf w hw'
          simp only at hw'
          split at hw'
          · rename_i hlt
            rw [hnc] at hlt
            obtain ⟨x, hx, rfl⟩ := Option.map_eq_some_iff.1 hw'
            obtain ⟨e, he⟩ := Option.isSome_iff_exists.1 ((storeRead_isSome_iff hg.keys k).2 hlt)
            obtain ⟨f', hf', hag⟩ := hn k hlt e he
            have := storeRead_of_mem hw hkf
            rw [hf', Option.some.injEq] at this
            subst this
            rw [hcs _ e f' _ he hlt hag] at hx
            have := parentIn_unique hg.holds (by omega) (Nat.zero_le k) (by omega) he (by omega) hx
            rw [this.2.2]
          · simp at hw'
      rw [if_neg, hpar]
      · simp only
        rw [ih _ (by omega) (by omega), ← pathIn_eq_append (by omega) (by omega)]
      · intro h
        exact h0 ((ofNat9_inj (j := j) (k := 0) (by omega) (by omega)).1 h)

/-- Complete keeps the agreement (R118). -/
theorem complete_agree {s s' : State} {T : Tree} (hg : Grown s (.inr T))
    (hr : { s with nodes := s'.nodes, code := s'.code } = s') (hw : storeWf s'.nodes = true)
   (hn : ∀ i, i < s.ncnt.toNat → ∀ e, storeRead s.nodes i = some e → ∃ f, storeRead s'.nodes i = some f ∧
       nodesAgree e f) : AgreeOnSpecified (complete s) (complete s') := by
  have hnc : s'.ncnt = s.ncnt := by rw [← hr]
  have hen : s'.hasEncoder = s.hasEncoder := by rw [← hr]
  have hT := complete_holdsTree hg
  have hsz : s.ncnt.toNat = treeSize T := hg.counts.ncnt
  have hd : DistinctLeaves T := hg.counts.distinct
  have hle := treeSize_le hd
  refine ⟨?_, hw, hn, ?_⟩
  · rw [← hr]; rfl
  · intro he _ b hb
    have he' : s'.hasEncoder = true := hen.trans he
    have hb' : b ∈ treeSymbols T := (hT.counts.present b).1 hb
    rw [hT.code he b hb']
    obtain ⟨k, hk⟩ := exists_leafIn hb' 0
    have hkr := leavesIn_range hk
    simp only at hkr
    have hrd : ∀ i, i < treeSize T → ∃ e, storeRead s.nodes i = some e ∧
        (nodeRead s' (BitVec.ofNat 9 i)).tag = e.tag ∧ (nodeRead s' (BitVec.ofNat 9 i)).sym = e.sym := by
      intro i hi
      obtain ⟨e, he⟩ := Option.isSome_iff_exists.1 ((storeRead_isSome_iff hg.keys i).2 (by omega))
      obtain ⟨f, hf, hag⟩ := hn i (by omega) e he
      refine ⟨e, he, ?_⟩
      have : nodeRead s' (BitVec.ofNat 9 i) = f := by simp [nodeRead, toNat_ofNat9 (show i < 512 by omega), hf]
      rw [this]; exact ⟨hag.1.symm, hag.2.1.symm⟩
    obtain ⟨e, hre, h1, h2⟩ := hrd k (by omega)
    have hkl := (mem_leavesIn_iff hg.holds (Nat.zero_le _) (by omega) hre b).1 hk
    have := storeRead_buildCode (s := s') (i := k) (by
      intro i j hi hj hti htj hij
      rw [hnc, hsz] at hi hj
      obtain ⟨ei, hri, h3, h4⟩ := hrd i hi
      obtain ⟨ej, hrj, h5, h6⟩ := hrd j hj
      rw [h3] at hti; rw [h5] at htj; rw [h4, h6] at hij
      have m1 := (mem_leavesIn_iff hg.holds (Nat.zero_le _) (by omega) hri ei.sym).2 ⟨hti, rfl⟩
      have m2 := (mem_leavesIn_iff hg.holds (Nat.zero_le _) (by omega) hrj ei.sym).2 ⟨htj, hij.symm⟩
      exact leafIn_index_unique hd m1 m2) (by rw [hnc]; omega) (by rw [h1]; exact hkl.1)
    rw [complete_code, if_pos he']
    rw [h2, hkl.2] at this
    rw [this, codeIn_eq hd hk, path, path_agree hg hw hnc hn k _ (by omega) (by simp [Config.nodeCap]; omega)]

end Sys2Proof.Machine
end

