-- ==== Sys2Proof/Laws/Runs.lean ====
section
/-! SUPPORT. Runs of several commands: how they compose, their responses,
    and that a run answered `ok` throughout does
not rest on ERR (spec/10_state.md R38). -/

namespace Sys2Proof.Machine

/-- Running one list of commands and then another. -/
theorem runInstrs_append {is js : List Instr} {s t : State} (h : runInstrs is s = .next t) :
    runInstrs (is ++ js) s = runInstrs js t := by
  induction is generalizing s with
  | nil => cases h; rfl
  | cons i is ih =>
    simp only [List.cons_append, runInstrs] at h ⊢
    split at h
    · exact ih h
    · cases h
    · cases h

/-- Running one command and then the rest. -/
theorem runInstrs_cons {i : Instr} {is : List Instr} {s t : State} (h : exec i s = .next t) : runInstrs (i ::
    is) s = runInstrs is t := by
  simp only [runInstrs, h]

/-- Every command answers once (R14). -/
theorem effect_rsps {i : Instr} {s t : State} (h : Effect i s t) : ∃ r, t.rsps = s.rsps ++ [r] := by
  cases h <;> simp

/-- A run answers once per command (R14). -/
theorem rsps_run {is : List Instr} {s t : State} (h : runInstrs is s = .next t) : ∃ rs, t.rsps = s.rsps ++ rs ∧
    rs.length = is.length := by
  induction is generalizing s with
  | nil => cases h; exact ⟨[], by simp⟩
  | cons i is ih =>
    obtain ⟨u, hu, hE⟩ := exec_effect i s
    rw [runInstrs_cons hu] at h
    obtain ⟨rs, h1, h2⟩ := ih h
    obtain ⟨r, hr⟩ := effect_rsps hE
    exact ⟨r :: rs, by rw [h1, hr]; simp, by simp [h2]⟩

/-- `s` with another error record. -/
abbrev withErr (a b : BitVec 8) (s : State) : State := { s with errFirst := a, errLast := b }

/-- The command neither reads nor clears ERR. -/
def NoErrCommand (i : Instr) : Prop := i ≠ .reset ∧ i ≠ .clrErr ∧ ∀ r, i ≠ .readReg r

/-- An allocation does not read ERR. -/
theorem allocNode_withErr (tag : Tag) (b : Byte) (s : State) (x y : BitVec 8) : allocNode tag b (withErr x y s)
    = withErr x y (allocNode tag b s) := by
  rcases s with ⟨a1, a2, a3, nc, a5, sl⟩
  by_cases hz : nc = 0
  · subst hz; cases tag <;> rfl
  · cases sl <;> cases tag <;> simp only [allocNode, placeNode, if_neg hz] <;> rfl

/-- Path does not read ERR. -/
theorem pathUp_withErr (s : State) (x y : BitVec 8) (fuel i) : pathUp (withErr x y s) fuel i = pathUp s fuel i := by
  induction fuel generalizing i with
  | zero => rfl
  | succ n ih =>
    have : parentOf (withErr x y s) i = parentOf s i := rfl
    simp only [pathUp, this, ih]
/-- Complete does not read ERR. -/
theorem complete_withErr (s : State) (x y : BitVec 8) : complete (withErr x y s) = withErr x y (complete s) := by
  have : buildCode (withErr x y s) = buildCode s := by
    have : recordCode (withErr x y s) = recordCode s := by
      funext c i
      have h : nodeRead (withErr x y s) (BitVec.ofNat 9 i) = nodeRead s (BitVec.ofNat 9 i) := rfl
      simp only [recordCode, h, path, pathUp_withErr]
    unfold buildCode; rw [this]
  simp only [complete, this]

/-- A command answered `ok` does the same under another error record, which it leaves alone (R38). -/
theorem effect_withErr {i : Instr} {s t : State} (h : Effect i s t) (hi : NoErrCommand i) (hok : ∀ r,
    t.rsps = s.rsps ++ [r] → r.status = .ok) (x y : BitVec 8) :
   Effect i (withErr x y s) (withErr x y t) := by
  have hraise : ∀ e, e ≠ .ok → t = raise e s → False := by
    intro e he h; subst h; exact he (hok _ (raise_rsps _ _))
  cases h with
  | nop => exact .nop _
  | reset => exact absurd rfl hi.1
  | clrErr => exact absurd rfl hi.2.1
  | readReg => exact absurd rfl (hi.2.2 _)
  | treeStart => exact .treeStart _
  | leafMarker ht hl => exact .leafMarker ht hl
  | allocInternal ht hl hn =>
    have := Effect.allocInternal (s := withErr x y s) ht hl hn
    rw [allocNode_withErr] at this; exact this
  | @allocLeaf b _ ht hl hp hn hs =>
    have e : allocNode .leaf b { withErr x y s with lsym := false } = withErr x y (allocNode .leaf b {
        s with lsym := false }) :=
      allocNode_withErr .leaf b { s with lsym := false } x y
    have := Effect.allocLeaf (b := b) (s := withErr x y s) ht hl hp hn (by rw [e]; exact hs)
    rw [e] at this; exact this
  | @completes b _ ht hl hp hn hs =>
    have e : allocNode .leaf b { withErr x y s with lsym := false } = withErr x y (allocNode .leaf b {
        s with lsym := false }) :=
      allocNode_withErr .leaf b { s with lsym := false } x y
    have := Effect.completes (b := b) (s := withErr x y s) ht hl hp hn (by rw [e]; exact hs)
    rw [e, complete_withErr] at this; exact this
  | endReady ht => exact .endReady ht
  | start ht => exact .start ht
  | degenZero hi ht hd hg => exact .degenZero hi ht hd hg
  | walkLeaf hi ht hd hg hx => exact .walkLeaf (s := withErr x y s) hi ht hd hg hx
  | walkInternal hi ht hd hg hx => exact .walkInternal (s := withErr x y s) hi ht hd hg hx
  | ends ht hd hc => exact .ends ht hd hc
  | encodes he ht hp => exact .encodes (s := withErr x y s) he ht hp
  | _ => exact absurd rfl (fun h => hraise _ (by decide) h)

/-- The responses of a run, command by command. -/
theorem newResponses_cons {i : Instr} {is : List Instr} {s u t : State} (hu : exec i s = .next u)
    (h : runInstrs is u = .next t) : ∃ r, u.rsps = s.rsps ++ [r] ∧ newResponses s t = r :: newResponses u t := by
  obtain ⟨rs, h1, h2⟩ := rsps_run h
  obtain ⟨r, hr⟩ := effect_rsps (effect_of_exec hu)
  exact ⟨r, hr, by simp [newResponses, h1, hr]⟩

/-- A run answered `ok` throughout does the same under another error record (R38). -/
theorem run_withErr {is : List Instr} (hi : ∀ i ∈ is, NoErrCommand i) (x y : BitVec 8) :
    ∀ {s t : State}, runInstrs is s = .next t → (∀ r ∈ newResponses s t, r.status = .ok) →
      runInstrs is (withErr x y s) = .next (withErr x y t) := by
  induction is with
  | nil => intro s t h _; cases h; rfl
  | cons i is ih =>
    intro s t h hok
    obtain ⟨u, hu, hE⟩ := exec_effect i s
    rw [runInstrs_cons hu] at h
    obtain ⟨r, hr, hn⟩ := newResponses_cons hu h
    rw [hn] at hok
    have hE' := effect_withErr hE (hi i (by simp)) (fun r' hr' => by
      rw [hr] at hr'; simp at hr'; rw [← hr']; exact hok r (by simp)) x y
    rw [runInstrs_cons (exec_of_effect hE')]
    exact ih (fun j hj => hi j (by simp [hj])) h fun r hr => hok r (by simp [hr])

/-- After TREE_START the invariant holds but for ERR, from every state (R110). -/
theorem inv_treeStart (s : State) : ∃ t, exec .treeStart s = .next t ∧ Inv (withErr 0x00 0x00 t) :=
  ⟨_, rfl, ⟨rfl, rfl, fun _ => ⟨rfl, rfl, rfl⟩, errOk_zero,
    ⟨.inl ⟨rfl, rfl, rfl, rfl⟩, ⟨rfl, rfl, rfl, rfl, rfl, rfl, rfl⟩⟩⟩⟩

end Sys2Proof.Machine
end

