-- ==== Sys2Proof/Laws/Loading.lean ====
section
/-! SUPPORT. Feeding the loader a whole stream (spec/41_tree_load.md R121). -/

namespace Sys2Proof.Machine

/-- Fill the top slot, or make the root when nothing is allocated. -/
def attachTo : Option Partial → Growth → Growth
  | none, x => x
  | some p, x => attach p x

/-- The number of nodes allocated. -/
def optSize : Option Partial → Nat
  | none => 0
  | some p => partialSize p
/-- The bytes that were loaded. -/
def optBytes : Option Partial → List Byte
  | none => []
  | some p => partialBytes p
/-- The symbols loaded. -/
def optSymbols : Option Partial → List Byte
  | none => []
  | some p => partialSymbols p

/-- The state loads `o`, in marker position (R112). -/
structure Loads (s : State) (o : Option Partial) : Prop where
  inv : Inv s
  tstate : s.tstate = .loading
  lsym : s.lsym = false
  holds : match o with | none => NoNodes s | some p => LoadsPartial s p

/-- The state after an allocation: still loading, or READY. -/
def Loaded (s : State) : Growth → Prop
  | .inl p => Loads s (some p)
  | .inr T => Inv s ∧ s.tstate = .ready ∧ HoldsTree s T

/-- What the next allocation makes. -/
theorem grown_of_loads {s : State} {o : Option Partial} (h : Loads s o) (hsz : optSize o < 511) (tag : Tag) (b :
    Byte) (hb : tag = .leaf → b ∉ optSymbols o) :
   Grown (allocNode tag b s) (attachTo o (seed tag b)) := by
  cases o with
  | none => exact allocNode_first h.inv.nodes h.holds tag b
  | some p => exact allocNode_next h.inv.nodes h.holds hsz tag b hb

/-- Node memory is not full while fewer than 511 nodes are allocated. -/
theorem ncnt_of_loads {s : State} {o : Option Partial} (h : Loads s o) (hsz : optSize o < 511) : s.ncnt ≠ 511 := by
  have hh := h.holds
  intro h2
  cases o with
  | none => rw [hh.ncnt] at h2; exact absurd h2 (by decide)
  | some p => have := hh.counts.ncnt; rw [h2] at this; simp only [optSize] at hsz; simp at this; omega

/-- The nodes after an allocation. -/
theorem attachTo_size (o x) : growthSize (attachTo o x) = optSize o + growthSize x := by
  cases o with
  | none => simp [attachTo, optSize]
  | some p => exact attach_size p x
/-- The symbols after an allocation. -/
theorem attachTo_symbols (o x) : growthSymbols (attachTo o x) = optSymbols o ++ growthSymbols x := by
  cases o with
  | none => simp [attachTo, optSymbols]
  | some p => exact attach_symbols p x

/-- An internal marker makes an internal node (R112, R115). -/
theorem feed_internal {s : State} {o : Option Partial} (h : Loads s o) (hsz : optSize o < 511) :
   ∃ t, exec (.treeByte 0x30) s = .next t ∧ Loaded t (attachTo o (.inl .fresh)) ∧ t.rsps = s.rsps ++ [{
       status := .ok }] := by
  have hn := ncnt_of_loads h hsz
  have hE := Effect.allocInternal h.tstate h.lsym hn
  have hg := grown_of_loads h hsz .internal 0x00 (by simp)
  refine ⟨_, exec_of_effect hE, ?_, by simp⟩
  have hi := inv_effect h.inv hE
  have hsz2 := attachTo_size o (.inl .fresh)
  simp only [seed] at hg
  cases hx : attachTo o (.inl .fresh) with
  | inr T =>
    exfalso; rw [hx] at hg; exact allocNode_internal_slots _ _ hg.slots
  | inl q =>
    rw [hx] at hg hsz2
    refine ⟨hi, by simp [h.tstate], by simp [h.lsym], ?_⟩
    refine ⟨hg.holds, hg.slots, ⟨hg.counts.ncnt, hg.counts.nleaf, hg.counts.distinct, hg.counts.present⟩, ?_⟩
    simp only [growthSize, partialSize] at hsz2
    simp only [Config.nodeCap]; omega

/-- A symbol not loaded is not PRESENT. -/
theorem notPresent_of_loads {s : State} {o : Option Partial} (h : Loads s o) {b : Byte} (hb : b ∉ optSymbols o)
    : isPresent s b = false := by
  have hh := h.holds
  cases o with
  | none => simp [isPresent, hh.present]
  | some p =>
    have := (hh.counts.present b).not.2 hb
    simpa using this

/-- A leaf marker sets LSYM (R112). -/
theorem exec_leafMarker {s : State} {o : Option Partial} (h : Loads s o) : exec (.treeByte 0x31)
    s = .next (respondOk { s with lsym := true }) := exec_of_effect (.leafMarker h.tstate h.lsym)

/-- The symbol byte after a leaf marker makes a leaf (R113, R115). -/
theorem feed_symbol {s : State} {o : Option Partial} (h : Loads s o) (hsz : optSize o < 511) {b : Byte} (hb :
    b ∉ optSymbols o) :
   ∃ t, exec (.treeByte b) (respondOk { s with lsym := true }) = .next t ∧
       Loaded t (attachTo o (.inr (.leaf b))) ∧ t.rsps = s.rsps ++ [{ status := .ok }, { status := .ok }] := by
  have hn := ncnt_of_loads h hsz
  have hp := notPresent_of_loads h hb
  set s1 := respondOk { s with lsym := true } with hs1
  have hi1 : Inv s1 := inv_respond _ (inv_setLsym h.inv h.tstate true)
  have h0 : Loads { s1 with lsym := false } o := by
    refine ⟨inv_setLsym hi1 h.tstate false, h.tstate, rfl, ?_⟩
    have hh := h.holds
    have hst : SameTree s { s1 with lsym := false } := ⟨rfl, rfl, rfl, rfl, rfl, rfl, rfl⟩
    cases o with
    | none => exact hst.noNodes hh
    | some p => exact hst.loadsPartial hh
  have hg := grown_of_loads h0 hsz .leaf b (fun _ => hb)
  have hsz2 := attachTo_size o (.inr (.leaf b))
  simp only [seed] at hg
  cases hx : attachTo o (.inr (.leaf b)) with
  | inr T =>
    rw [hx] at hg
    have hE := Effect.completes (b := b) (s := s1) h.tstate rfl hp hn hg.slots
    refine ⟨_, exec_of_effect hE, ⟨inv_effect hi1 hE, rfl, ?_⟩, by simp [hs1]⟩
    have hst : SameTree (complete (allocNode .leaf b { s1 with lsym := false }))
        (respondOk (complete (allocNode .leaf b { s1 with lsym := false }))) := ⟨rfl, rfl, rfl, rfl, rfl, rfl, rfl⟩
    exact hst.holdsTree (complete_holdsTree hg)
  | inl q =>
    rw [hx] at hg hsz2
    have hE := Effect.allocLeaf (b := b) (s := s1) h.tstate rfl hp hn
      (by rw [hg.slots]; exact partialSlots_ne_nil _ _)
    refine ⟨_, exec_of_effect hE, ⟨inv_effect hi1 hE, by simp [hs1, h.tstate], by simp, ?_⟩, by simp [hs1]⟩
    refine ⟨hg.holds, hg.slots, ⟨hg.counts.ncnt, hg.counts.nleaf, hg.counts.distinct, hg.counts.present⟩, ?_⟩
    simp only [growthSize, treeSize] at hsz2
    simp only [Config.nodeCap]; omega

/-- Filling a slot with an incomplete subtree, and then filling that. -/
theorem attachTo_inl (o : Option Partial) (q : Partial) : ∃ r, attachTo o (.inl q) = .inl r ∧ ∀ x,
    attach r x = attachTo o (attach q x) := by
  cases o with
  | none => exact ⟨q, rfl, fun _ => rfl⟩
  | some p => obtain ⟨r, hr⟩ := attach_inl p q; exact ⟨r, hr, attach_attach hr⟩

/-- Feeding the serialization of a subtree fills the top slot with it (R121). -/
theorem feed_tree (T : Tree) : ∀ {s : State} {o : Option Partial}, Loads s o → optSize o + treeSize T ≤ 511 →
    (optSymbols o ++ treeSymbols T).Nodup →
   ∃ t, runInstrs ((serialize T).map .treeByte) s = .next t ∧ Loaded t (attachTo o (.inr T)) ∧
       t.rsps = s.rsps ++ List.replicate (serialize T).length { status := .ok } := by
  induction T with
  | leaf b =>
    intro s o h hsz hnd
    simp only [treeSize] at hsz
    have hb : b ∉ optSymbols o := by
      intro hh; rw [List.nodup_append] at hnd; exact hnd.2.2 b hh b (by simp [treeSymbols]) rfl
    obtain ⟨t, h1, h2, h3⟩ := feed_symbol h (by omega) hb
    refine ⟨t, ?_, h2, by simpa [serialize] using h3⟩
    simp only [serialize, List.map_cons, List.map_nil]
    rw [runInstrs_cons (exec_leafMarker h), runInstrs_cons h1]; rfl
  | internal l r ihl ihr =>
    intro s o h hsz hnd
    simp only [treeSize] at hsz
    obtain ⟨t1, h1, h2, h3⟩ := feed_internal h (by omega)
    obtain ⟨p1, hp1, ha1⟩ := attachTo_inl o .fresh
    have e1 := attachTo_size o (.inl .fresh)
    have e2 := attachTo_symbols o (.inl .fresh)
    rw [hp1] at h2 e1 e2
    simp only [growthSize, growthSymbols, partialSize, partialSymbols, List.append_nil] at e1 e2
    rw [treeSymbols, ← List.append_assoc] at hnd
    obtain ⟨t2, g1, g2, g3⟩ := ihl (o := some p1) h2 (by simp only [optSize]; omega)
      (by simp only [optSymbols, e2]; exact (List.nodup_append.1 hnd).1)
    have hatt : attach p1 (.inr l) = attachTo o (.inl (.atRight l)) := ha1 _
    obtain ⟨p2, hp2, ha2⟩ := attachTo_inl o (.atRight l)
    have e3 := attachTo_size o (.inl (.atRight l))
    have e4 := attachTo_symbols o (.inl (.atRight l))
    simp only [attachTo] at g2
    rw [hatt, hp2] at g2
    rw [hp2] at e3 e4
    simp only [growthSize, growthSymbols, partialSize, partialSymbols] at e3 e4
    obtain ⟨t3, k1, k2, k3⟩ := ihr (o := some p2) g2 (by simp only [optSize]; omega)
      (by simp only [optSymbols, e4]; exact hnd)
    simp only [attachTo] at k2
    rw [ha2] at k2
    refine ⟨t3, ?_, k2, ?_⟩
    · simp only [serialize, List.map_cons, List.map_append]
      rw [runInstrs_cons h1, runInstrs_append g1, k1]
    · rw [k3, g3, h3]
      simp only [serialize, List.length_cons, List.length_append, List.append_assoc, List.replicate_succ,
          List.replicate_add, List.cons_append, List.nil_append, List.singleton_append]


/-- TREE_START begins loading, from every state but for ERR (R110). -/
theorem loads_treeStart (s : State) :
    ∃ t, exec .treeStart s = .next t ∧ Loads (withErr 0x00 0x00 t) none ∧ t.hasEncoder = s.hasEncoder ∧
      t.rsps = s.rsps ++ [{ status := .ok }] := by
  obtain ⟨t, h, hi⟩ := inv_treeStart s
  cases h
  exact ⟨_, rfl, ⟨hi, rfl, rfl, ⟨rfl, rfl, rfl, rfl⟩⟩, rfl, rfl⟩

/-- Feeding the serialization of a tree makes it READY, from every state but for ERR (R121). -/
theorem load_tree (s : State) {T : Tree} (hd : DistinctLeaves T) :
    ∃ t, runInstrs (.treeStart :: (serialize T).map .treeByte) s = .next t ∧ Inv (withErr 0x00 0x00 t) ∧
      t.tstate = .ready ∧ HoldsTree t T ∧
      t.rsps = s.rsps ++ List.replicate ((serialize T).length + 1) { status := .ok } := by
  obtain ⟨t0, h0, h1, h2, h3⟩ := loads_treeStart s
  obtain ⟨t1, g1, g2, g3⟩ := feed_tree T h1 (by simpa [optSize] using treeSize_le hd)
    (by simpa [optSymbols] using hd)
  have hok : ∀ r ∈ newResponses (withErr 0x00 0x00 t0) t1, r.status = .ok := by
    intro r hr
    simp only [newResponses, g3, List.drop_left, List.mem_replicate] at hr
    rw [hr.2]
  have hrun := run_withErr (fun i hi => by
    obtain ⟨b, -, rfl⟩ := List.mem_map.1 hi
    exact ⟨by simp, by simp, by simp⟩) t0.errFirst t0.errLast g1 hok
  have he : withErr t0.errFirst t0.errLast (withErr 0x00 0x00 t0) = t0 := rfl
  rw [he] at hrun
  have hst : SameTree t1 (withErr t0.errFirst t0.errLast t1) := ⟨rfl, rfl, rfl, rfl, rfl, rfl, rfl⟩
  refine ⟨withErr t0.errFirst t0.errLast t1, by rw [runInstrs_cons h0]; exact hrun, ?_, g2.2.1,
    hst.holdsTree g2.2.2, ?_⟩
  · exact g2.1.of_same ⟨rfl, rfl, rfl, rfl, rfl, rfl, rfl⟩ rfl (.inl rfl) ⟨rfl, rfl, rfl, rfl, rfl, rfl⟩ errOk_zero
  · have : (withErr t0.errFirst t0.errLast t1).rsps = t0.rsps ++ List.replicate (serialize T).length {
        status := .ok } := g3
    rw [this, h3, List.replicate_succ, List.append_assoc]; rfl

/-- What is loaded after some bytes, all answered `ok` (R121). -/
inductive After (s : State) : List Byte → Prop where
  | marker {o : Option Partial} {bs} (h : Loads s o) (hb : bs = optBytes o) : After s bs
  | symbol {o : Option Partial} {bs} (s0 : State) (h : Loads s0 o) (hs : s = respondOk { s0 with lsym := true })
        (hb : bs = optBytes o ++ [0x31]) : After s bs
  | ready {T : Tree} {bs} (h : Inv s) (ht : s.tstate = .ready) (hT : HoldsTree s T) (hb : bs = serialize T) :
        After s bs

/-- The bytes after an allocation (R121). -/
theorem attachTo_bytes (o x) : growthBytes (attachTo o x) = optBytes o ++ growthBytes x := by
  cases o with
  | none => simp [attachTo, optBytes]
  | some p => exact attach_bytes p x

/-- After an allocation. -/
theorem after_loaded {s : State} {g : Growth} (h : Loaded s g) : After s (growthBytes g) := by
  cases g with
  | inl p => exact .marker (o := some p) h rfl
  | inr T => exact .ready h.1 h.2.1 h.2.2 rfl

/-- Fewer than 511 nodes are allocated when node memory is not full. -/
theorem size_of_not_overflow {s : State} {o : Option Partial} (h : Loads s o) (hn : s.ncnt ≠ 511) :
    optSize o < 511 := by
  have hh := h.holds
  cases o with
  | none => simp [optSize]
  | some p =>
    have := hh.counts.ncnt
    have h2 := hh.small
    have : s.ncnt.toNat ≠ 511 := fun h => hn (BitVec.eq_of_toNat_eq h)
    simp only [Config.nodeCap] at h2; simp only [optSize]; omega

/-- A symbol that is not PRESENT is not loaded. -/
theorem symbols_of_present {s : State} {o : Option Partial} (h : Loads s o) {b : Byte} (hp :
    isPresent s b = false) : b ∉ optSymbols o := by
  have hh := h.holds
  cases o with
  | none => simp [optSymbols]
  | some p => intro hb; have := (hh.counts.present b).2 hb; rw [hp] at this; cases this

/-- One more byte answered `ok` (R121). -/
theorem after_byte {s t : State} {bs : List Byte} {b : Byte} {r : Response} (h : After s bs) (he :
    exec (.treeByte b) s = .next t) (hr : t.rsps = s.rsps ++ [r]) (hok : r.status = .ok) : After t (bs ++ [b]) := by
  have hE := effect_of_exec he
  cases h with
  | ready h ht hT hb =>
    rw [exec_of_effect (.byteOutside (by simp [ht]))] at he
    cases he
    simp at hr; subst hr; simp at hok
  | @marker o _ h hb =>
    subst hb
    have hns : ¬ NeedsSession (.treeByte b) := by rintro (⟨_, h⟩ | ⟨_, h⟩ | h) <;> cases h
    have hnf : ∀ x, ¬ Feeds (.treeByte b) x := by rintro x (h | ⟨_, h, _⟩) <;> cases h
    cases hE with
    | byteOutside ht => exact absurd h.tstate ht
    | leafMarker ht hl => exact .symbol s h rfl rfl
    | badMarker => simp at hr; subst hr; simp at hok
    | dupSymbol => simp at hr; subst hr; simp at hok
    | overflow => simp at hr; subst hr; simp at hok
    | allocInternal ht hl hn =>
      obtain ⟨t', h1, h2, h3⟩ := feed_internal h (size_of_not_overflow h hn)
      rw [he] at h1; cases h1
      have := after_loaded h2
      rw [attachTo_bytes] at this; exact this
    | allocLeaf ht hl => rw [h.lsym] at hl; cases hl
    | completes ht hl => rw [h.lsym] at hl; cases hl
    | noTree hi => exact absurd hi hns
    | halted hi => exact absurd hi hns
    | idle hi => exact absurd hi hns
    | degenZero hi => exact absurd hi (hnf _)
    | degenOne hi => exact absurd hi (hnf _)
    | walkLeaf hi => exact absurd hi (hnf _)
    | walkInternal hi => exact absurd hi (hnf _)
  | @symbol o _ s0 h hs hb =>
    subst hb
    have hns : ¬ NeedsSession (.treeByte b) := by rintro (⟨_, h⟩ | ⟨_, h⟩ | h) <;> cases h
    have hnf : ∀ x, ¬ Feeds (.treeByte b) x := by rintro x (h | ⟨_, h, _⟩) <;> cases h
    have hst : s.tstate = .loading := by rw [hs]; exact h.tstate
    have hsl : s.lsym = true := by rw [hs]; rfl
    have hkey : s.ncnt ≠ 511 → isPresent s b = false → After t (optBytes o ++ [0x31] ++ [b]) := by
      intro hn hp
      rw [hs] at hn hp he
      obtain ⟨t', h1, h2, h3⟩ := feed_symbol h (size_of_not_overflow h hn) (symbols_of_present h (b := b) hp)
      rw [he] at h1; cases h1
      have := after_loaded h2
      rw [attachTo_bytes] at this
      rw [List.append_assoc]; exact this
    cases hE with
    | byteOutside ht => exact absurd hst ht
    | leafMarker ht hl => rw [hsl] at hl; cases hl
    | badMarker => simp at hr; subst hr; simp at hok
    | dupSymbol => simp at hr; subst hr; simp at hok
    | overflow => simp at hr; subst hr; simp at hok
    | allocInternal ht hl hn => rw [hsl] at hl; cases hl
    | allocLeaf ht hl hp hn hs => exact hkey hn hp
    | completes ht hl hp hn hs => exact hkey hn hp
    | noTree hi => exact absurd hi hns
    | halted hi => exact absurd hi hns
    | idle hi => exact absurd hi hns
    | degenZero hi => exact absurd hi (hnf _)
    | degenOne hi => exact absurd hi (hnf _)
    | walkLeaf hi => exact absurd hi (hnf _)
    | walkInternal hi => exact absurd hi (hnf _)

/-- More bytes, all answered `ok` (R121). -/
theorem after_bytes {bytes : List Byte} : ∀ {s t : State} {bs : List Byte}, After s bs →
    runInstrs (bytes.map .treeByte) s = .next t → (∀ r ∈ newResponses s t, r.status = .ok) →
    After t (bs ++ bytes) := by
  induction bytes with
  | nil => intro s t bs h he _; cases he; simpa using h
  | cons b bytes ih =>
    intro s t bs h he hok
    obtain ⟨u, hu, hE⟩ := exec_effect (.treeByte b) s
    rw [List.map_cons, runInstrs_cons hu] at he
    obtain ⟨rs, h1, h2⟩ := rsps_run he
    obtain ⟨r, hr⟩ := effect_rsps hE
    have e1 : newResponses s t = r :: rs := by simp [newResponses, h1, hr]
    have e2 : newResponses u t = rs := by simp [newResponses, h1]
    rw [e1] at hok
    have := ih (after_byte h hu hr (hok r (by simp))) he (by rw [e2]; exact fun x hx => hok x (by simp [hx]))
    simpa using this

end Sys2Proof.Machine
end

