-- ==== Sys2Proof/Laws/Decoding.lean ====
section
/-! SUPPORT. The decoder's walk over the bits of codes (spec/43_decode.md R161 to R169). -/

namespace Sys2Proof.Machine

/-- The decoder's progress between two states: the tree and everything else as before, one running session. -/
structure Walked (s t : State) : Prop where
  same : SameTree s t
  tstate : t.tstate = .ready
  dstate : t.dstate = .run

/-- One stretch of walking after another. -/
theorem Walked.trans {s t u : State} (h : Walked s t) (h' : Walked t u) : Walked s u :=
  ⟨⟨h'.same.1.trans h.same.1, h'.same.2.trans h.same.2, h'.same.3.trans h.same.3, h'.same.4.trans h.same.4,
      h'.same.5.trans h.same.5,
    h'.same.6.trans h.same.6, h'.same.7.trans h.same.7⟩, h'.tstate, h'.dstate⟩

/-- One bit at an internal node (R161). -/
theorem bit_internal {s : State} {k c : Nat} {e f : Node} {x : Bit} (ht : s.tstate = .ready)
    (hd : s.dstate = .run) (hg : degen s = false) (hk : s.cur = BitVec.ofNat 9 k) (hk5 : k < 512) (hc5 : c < 512)
    (he : storeRead s.nodes k = some e) (hx : (if x then e.right else e.left) = some (BitVec.ofNat 9 c))
    (hf : storeRead s.nodes c = some f) :
    ∃ t, exec (.decBit x) s = .next t ∧ Walked s t ∧
      (match f.tag with
      | .leaf => t.cur = 0 ∧ t.decSymcnt = s.decSymcnt + 1 ∧
          t.rsps = s.rsps ++ [{ status := .ok, sv := true, sym := f.sym }]
      | .internal => t.cur = BitVec.ofNat 9 c ∧ t.decSymcnt = s.decSymcnt ∧
          t.rsps = s.rsps ++ [{ status := .ok }]) := by
  have h1 : nodeChild s s.cur x = BitVec.ofNat 9 c := by
    simp [nodeChild, nodeRead, hk, toNat_ofNat9 hk5, he, hx]
  have h2 : nodeRead s (BitVec.ofNat 9 c) = f := by simp [nodeRead, toNat_ofNat9 hc5, hf]
  cases hft : f.tag with
  | leaf =>
    have := Effect.walkLeaf (i := .decBit x) (s := s) (.inl rfl) ht hd hg (by rw [h1, h2]; exact hft)
    rw [h1, h2] at this
    exact ⟨_, exec_of_effect this, ⟨⟨rfl, rfl, rfl, rfl, rfl, rfl, rfl⟩, ht, hd⟩, rfl, rfl, rfl⟩
  | internal =>
    have := Effect.walkInternal (i := .decBit x) (s := s) (.inl rfl) ht hd hg (by rw [h1, h2]; exact hft)
    rw [h1] at this
    exact ⟨_, exec_of_effect this, ⟨⟨rfl, rfl, rfl, rfl, rfl, rfl, rfl⟩, ht, hd⟩, rfl, rfl, rfl⟩

/-- DEGEN does not change while the decoder walks. -/
theorem degen_walked {s t : State} (h : Walked s t) (ht : s.tstate = .ready) : degen t = degen s := by
  unfold degen; rw [h.same.ncnt, h.tstate, ht]

/-- The size of an internal tree. -/
theorem treeSize_internal (l r) : treeSize (.internal l r) = 1 + treeSize l + treeSize r := rfl

/-- The responses to the `n` bits of a code of `b`: SV = 1 and the symbol at the last one only (R148). -/
abbrev codeAnswers (n : Nat) (b : Byte) : List Response :=
  List.replicate (n - 1) { status := .ok } ++ [{ status := .ok, sv := true, sym := b }]

/-- From `s` the bits of a code of `b` lead to the root again, and emit `b` (R148). -/
def Emits (s : State) (bits : List Bit) (b : Byte) : Prop :=
  ∃ t, runInstrs (bits.map .decBit) s = .next t ∧ Walked s t ∧ t.cur = 0 ∧ t.decSymcnt = s.decSymcnt + 1 ∧
    t.rsps = s.rsps ++ codeAnswers bits.length b

/-- Down a subtree to a leaf (R161). -/
theorem walk_down (U : Tree) : ∀ {s : State} {k j : Nat} {b : Byte}, s.tstate = .ready → s.dstate = .run →
    degen s = false → s.cur = BitVec.ofNat 9 k → holdsAt s.nodes k U → k + treeSize U ≤ 512 →
    (j, b) ∈ leavesIn U k → j ≠ k → Emits s (pathIn U k j) b := by
  induction U with
  | leaf c =>
    intro s k j b _ _ _ _ _ _ hj hne
    simp only [leavesIn, List.mem_singleton, Prod.mk.injEq] at hj
    exact absurd hj.1 hne
  | internal l r ihl ihr =>
    intro s k j b ht hd hg hk hh hsz hj hne
    rw [treeSize_internal] at hsz
    simp only [holdsAt] at hh
    simp only [leavesIn, List.mem_append] at hj
    have hl0 := treeSize_pos l
    have hr0 := treeSize_pos r
    -- the general step
    have step : ∀ (U : Tree) (c : Nat) (x : Bit),
        (if x then some (BitVec.ofNat 9 (k + 1 + treeSize l)) else some (BitVec.ofNat 9 (k + 1))) =
          some (BitVec.ofNat 9 c) →
        c < 512 → holdsAt s.nodes c U → (j, b) ∈ leavesIn U c →
        (∀ {s : State} {j : Nat} {b : Byte}, s.tstate = .ready → s.dstate = .run → degen s = false →
          s.cur = BitVec.ofNat 9 c → holdsAt s.nodes c U → (j, b) ∈ leavesIn U c → j ≠ c →
          Emits s (pathIn U c j) b) →
        Emits s (x :: pathIn U c j) b := by
      intro U c x hx hc5 hU hjU ih
      obtain ⟨f, hf, htag⟩ := holdsAt_root hU
      obtain ⟨t, h1, h2, h3⟩ := bit_internal (x := x) ht hd hg hk (by omega) hc5 hh.1 (by cases x <;> exact hx) hf
      cases U with
      | leaf c' =>
        simp only [holdsAt] at hU
        rw [hU] at hf; cases hf
        simp only [leavesIn, List.mem_singleton, Prod.mk.injEq] at hjU
        obtain ⟨rfl, rfl⟩ := hjU
        simp only at h3
        refine ⟨t, ?_, h2, h3.1, h3.2.1, ?_⟩
        · simp only [pathIn_base, List.map_cons, List.map_nil]; rw [runInstrs_cons h1]; rfl
        · rw [h3.2.2]; simp [codeAnswers, pathIn_base]
      | internal l' r' =>
        simp only [holdsAt] at hU
        rw [hU.1] at hf; cases hf
        simp only at h3
        have hjc : j ≠ c := by
          simp only [leavesIn, List.mem_append] at hjU
          rcases hjU with h | h <;> have := leavesIn_range h <;> simp only at this <;> omega
        obtain ⟨t2, g1, g2, g3, g4, g5⟩ := ih h2.tstate h2.dstate ((degen_walked h2 ht).trans hg)
            h3.1 (by rw [h2.same.nodes]; exact hU) hjU hjc
        refine ⟨t2, ?_, h2.trans g2, g3, by rw [g4, h3.2.1], ?_⟩
        · rw [List.map_cons, runInstrs_cons h1]; exact g1
        · have hp : 0 < (pathIn (.internal l' r') c j).length := by
            rw [pathIn, if_neg hjc]; split <;> simp
          rw [g5, h3.2.2]
          obtain ⟨m, hm⟩ : ∃ m, (pathIn (.internal l' r') c j).length = m + 1 := ⟨_,
              (Nat.succ_pred_eq_of_pos hp).symm⟩
          simp [codeAnswers, hm, List.replicate_succ]
    by_cases hjl : j < k + 1 + treeSize l
    · have hjl' : (j, b) ∈ leavesIn l (k + 1) := hj.resolve_right (by
        intro h; have := leavesIn_range h; simp only at this; omega)
      have := step l (k + 1) false rfl (by omega) hh.2.1 hjl' (fun a1 a2 a3 a4 a5 a6 a7 =>
          ihl a1 a2 a3 a4 a5 (by omega) a6 a7)
      rw [pathIn, if_neg hne, if_pos hjl]; exact this
    · have hjr' : (j, b) ∈ leavesIn r (k + 1 + treeSize l) := hj.resolve_left (by
        intro h; have := leavesIn_range h; simp only at this; omega)
      have := step r (k + 1 + treeSize l) true rfl (by omega) hh.2.2 hjr' (fun a1 a2 a3 a4 a5 a6 a7 =>
          ihr a1 a2 a3 a4 a5 (by omega) a6 a7)
      rw [pathIn, if_neg hne, if_neg hjl]; exact this

/-- The code of one symbol (R148). -/
theorem decode_code {s : State} {T : Tree} {b : Byte} (ht : s.tstate = .ready) (hd : s.dstate = .run)
    (hc : s.cur = 0) (hT : HoldsTree s T) (hb : b ∈ treeSymbols T) : Emits s (payloadCode T b) b := by
  cases T with
  | leaf c =>
    simp only [treeSymbols, List.mem_singleton] at hb; subst hb
    have hg := (degen_tree ht hT).2 ⟨b, rfl⟩
    have hE := Effect.degenZero (i := .decBit false) (.inl rfl) ht hd hg
    have h0 : nodeRead s 0 = ⟨.leaf, b, none, none⟩ := by
      have := hT.holds; simp only [holdsAt] at this
      unfold nodeRead; change (storeRead s.nodes 0).getD _ = _; rw [this]; rfl
    rw [h0] at hE
    refine ⟨emitSymbol b (countBit s), ?_, ⟨⟨rfl, rfl, rfl, rfl, rfl, rfl, rfl⟩, ht, hd⟩, hc, rfl, ?_⟩
    · simp only [payloadCode, List.map_cons, List.map_nil]
      rw [runInstrs_cons (exec_of_effect hE)]; rfl
    · rfl
  | internal l r =>
    have hg : degen s = false := Bool.eq_false_iff.2 fun h => by obtain ⟨_, h⟩ := (degen_tree ht hT).1 h; cases h
    obtain ⟨j, hj⟩ := exists_leafIn hb 0
    have hj0 : j ≠ 0 := by
      have h := hj
      simp only [leavesIn, List.mem_append] at h
      rcases h with h | h <;> have := leavesIn_range h <;> simp only at this <;> omega
    have hle := hT.size_le
    have := walk_down (.internal l r) ht hd hg hc hT.holds (by rw [Nat.zero_add]; omega) hj hj0
    rw [payloadCode, codeIn_eq hT.counts.distinct hj]; exact this

/-- The codes of several symbols (R169). -/
theorem decode_codes {T : Tree} (x : List Byte) : ∀ {s : State}, s.tstate = .ready → s.dstate = .run →
    s.cur = 0 → HoldsTree s T → (∀ b ∈ x, b ∈ treeSymbols T) →
    ∃ t, runInstrs ((payload T x).map .decBit) s = .next t ∧ Walked s t ∧ t.cur = 0 ∧
      t.decSymcnt = s.decSymcnt + BitVec.ofNat 32 x.length ∧
      t.rsps = s.rsps ++ x.flatMap fun b => codeAnswers (payloadCode T b).length b := by
  induction x with
  | nil =>
    intro s ht hd hc hT _; exact ⟨s, rfl, ⟨⟨rfl, rfl, rfl, rfl, rfl, rfl, rfl⟩, ht, hd⟩, hc, by simp, by simp⟩
  | cons b x ih =>
    intro s ht hd hc hT hx
    obtain ⟨t, h1, h2, h3, h4, h5⟩ := decode_code ht hd hc hT (hx b (by simp))
    obtain ⟨u, g1, g2, g3, g4, g5⟩ := ih h2.tstate h2.dstate h3 (h2.same.holdsTree hT) (fun c hc =>
        hx c (by simp [hc]))
    refine ⟨u, ?_, h2.trans g2, g3, ?_, ?_⟩
    · rw [payload, List.flatMap_cons, List.map_append, runInstrs_append h1]; exact g1
    · rw [g4, h4, List.length_cons, BitVec.add_assoc]; congr 1
      apply BitVec.eq_of_toNat_eq; simp; omega
    · rw [g5, h5, List.flatMap_cons, List.append_assoc]

end Sys2Proof.Machine
end

