-- ==== Sys2Proof/Laws/Word.lean ====
section
/-! SUPPORT. The laws of a command word's two fields (spec/30_encoding.md R80). -/

namespace Sys2Proof

theorem extract_append_high {n m : Nat} (x : BitVec n) (y : BitVec m) : (x ++ y).extractLsb' m n = x := by
  ext i hi
  simp [BitVec.getLsbD_append, BitVec.getLsbD_eq_getElem hi]

theorem extract_append_low {n m : Nat} (x : BitVec n) (y : BitVec m) : (x ++ y).extractLsb' 0 m = y := by
  ext i hi
  simp [BitVec.getLsbD_append, BitVec.getLsbD_eq_getElem hi, hi]

theorem append_extract {n m : Nat} (w : BitVec (n + m)) : w.extractLsb' m n ++ w.extractLsb' 0 m = w := by
  apply BitVec.eq_of_getLsbD_eq
  intro i hi
  rw [BitVec.getLsbD_append]
  split
  · simp [*]
  · rw [BitVec.getLsbD_extractLsb']
    have h1 : i - m < n := by omega
    have h2 : m + (i - m) = i := by omega
    simp [h1, h2]

@[simp] theorem opField_mkWord (op arg : Byte) : opField (mkWord op arg) = op := extract_append_high op arg

@[simp] theorem argField_mkWord (op arg : Byte) : argField (mkWord op arg) = arg := extract_append_low op arg

/-- A word is its two fields. -/
theorem mkWord_fields (w : CmdWord) : mkWord (opField w) (argField w) = w := append_extract (n := 8) (m := 8) w

end Sys2Proof
end

