-- ==== Sys2Proof/Laws/PerInstr.lean ====
section
/-! SUPPORT. One law per command: its word has the bits that its row of spec/opcode_table.json fixes. -/

namespace Sys2Proof.Laws.FitsOpcodeTable

/-- The bits that the row of a command fixes (`mask` of spec/opcode_table.json). -/
def mask : Instr → CmdWord
  | .nop => 0xFFFF
  | .reset => 0xFFFF
  | .clrErr => 0xFFFF
  | .readReg _ => 0xFF00
  | .treeStart => 0xFFFF
  | .treeByte _ => 0xFF00
  | .treeEnd => 0xFFFF
  | .decStart => 0xFFFF
  | .decBit _ => 0xFFFE
  | .decChar _ => 0xFF00
  | .decEnd => 0xFFFF
  | .encSym _ => 0xFF00

/-- What the row of a command fixes them to (`match` of spec/opcode_table.json). -/
def fixedBits : Instr → CmdWord
  | .nop => 0x0000
  | .reset => 0x0100
  | .clrErr => 0x0200
  | .readReg _ => 0x0300
  | .treeStart => 0x1000
  | .treeByte _ => 0x1100
  | .treeEnd => 0x1200
  | .decStart => 0x2000
  | .decBit _ => 0x2100
  | .decChar _ => 0x2200
  | .decEnd => 0x2300
  | .encSym _ => 0x3000

/-- The command's word fits its row of the opcode table. -/
def Statement (i : Instr) : Prop := encode i &&& mask i = fixedBits i

/-- A word under the mask of its OP field. -/
theorem mkWord_and_op (op arg : Byte) : mkWord op arg &&& 0xFF00 = mkWord op 0 := by
  apply BitVec.eq_of_getLsbD_eq
  intro k hk
  have hm : ∀ k, k < 16 → (0xFF00 : CmdWord).getLsbD k = decide (8 ≤ k) := by decide
  rw [BitVec.getLsbD_and, hm k hk, mkWord, mkWord, BitVec.getLsbD_append, BitVec.getLsbD_append]
  by_cases h : k < 8
  · simp [h]
  · simp [h, Nat.not_lt.1 h]

theorem nop : Statement .nop := by unfold Statement; decide
theorem reset : Statement .reset := by unfold Statement; decide
theorem clrErr : Statement .clrErr := by unfold Statement; decide
theorem readReg (r : Byte) : Statement (.readReg r) := mkWord_and_op 0x03 r
theorem treeStart : Statement .treeStart := by unfold Statement; decide
theorem treeByte (b : Byte) : Statement (.treeByte b) := mkWord_and_op 0x11 b
theorem treeEnd : Statement .treeEnd := by unfold Statement; decide
theorem decStart : Statement .decStart := by unfold Statement; decide
theorem decBit (t : Bit) : Statement (.decBit t) := by unfold Statement; cases t <;> decide
theorem decChar (c : Byte) : Statement (.decChar c) := mkWord_and_op 0x22 c
theorem decEnd : Statement .decEnd := by unfold Statement; decide
theorem encSym (s : Byte) : Statement (.encSym s) := mkWord_and_op 0x30 s

end Sys2Proof.Laws.FitsOpcodeTable
end

