-- ==== Sys2Proof/Machine/Assembler.lean ====
section
/-! DEFINITION. The assembler syntax of command programs (spec/30_encoding.md R95 to R99): text to command words. It is
the host's; the block sees only the words. Points the spec's text leaves open are in log 16. -/

namespace Sys2Proof.Machine

/-! ## Numbers and characters (R96) -/

/-- The sixteen hexadecimal digits by value; the first ten are the decimal ones. -/
def digitChars : List Char := "0123456789ABCDEF".toList

/-- The value of a digit of a base up to 16: its place among the digits. A letter may have either case (log 16). -/
def digitValue (base : Nat) (c : Char) : Option Nat := (digitChars.take base).idxOf? c.toUpper

/-- The number that a list of digits spells in a base, the most significant first (R96). -/
def numberIn (base : Nat) (digits : List Char) : Option Nat :=
  digits.foldlM (fun n c => (digitValue base c).map (base * n + ·)) 0

/-- A byte from its number; a value above 255 is refused (R96). -/
def byteOfNat (n : Nat) : Option Byte := if n ≤ 255 then some (BitVec.ofNat 8 n) else none

/-- The ASCII byte of a character (R7, R96). -/
def asciiByte (c : Char) : Option Byte := if c.toNat < 128 then some (BitVec.ofNat 8 c.toNat) else none

/-- `HH` of `0xHH` or `\xHH`. -/
def hexByte (h l : Char) : Option Byte := (numberIn 16 [h, l]).map (BitVec.ofNat 8)

/-- A number operand: `0xHH`, or a decimal number 0..255 (R96). -/
def numberOperand (tok : List Char) : Option Byte :=
  if tok.take 2 = ['0', 'x'] then
    match tok.drop 2 with
    | [h, l] => hexByte h l
    | _ => none
  else if tok = [] then none
  else (numberIn 10 tok).bind byteOfNat

/-- A byte operand: a number, `'c'`, or `'\xHH'` (R96). -/
def byteOperand (tok : List Char) : Option Byte :=
  if tok.head? = some '\'' then
    match tok.drop 1 with
    | [c, q] => if q = '\'' then asciiByte c else none
    | [b, x, h, l, q] => if b = '\\' ∧ x = 'x' ∧ q = '\'' then hexByte h l else none
    | _ => none
  else numberOperand tok

/-- The operand of DEC_BIT: only `0` or `1` (R96). -/
def bitOperand (tok : List Char) : Option Bit :=
  if tok = ['0'] then some false
  else if tok = ['1'] then some true
  else none

/-- The register names (R40, R96). -/
def regNames : List (List Char × Reg) :=
  [("ID".toList, .id), ("STATUS".toList, .status), ("NCNT".toList, .ncnt), ("NLEAF".toList, .nleaf),
   ("CUR".toList, .cur), ("SDEPTH".toList, .sdepth), ("ERR".toList, .err), ("DEC_BITCNT".toList, .decBitcnt),
   ("DEC_SYMCNT".toList, .decSymcnt), ("ENC_SYMCNT".toList, .encSymcnt), ("ENC_BITCNT".toList, .encBitcnt),
   ("PARAM".toList, .param)]

/-- A register name as its index (R96, R99). -/
def regOperand (tok : List Char) : Option Byte := (regNames.lookup tok).map regIndex

/-- The double quote. -/
def quoteChar : Char := Char.ofNat 0x22

/-- Where a string's reader stands: at a character, after a backslash, after `\x`, or after `\xH`. -/
inductive StringMode where
  | text
  | escape
  | hexHigh
  | hexLow (h : Char)
  deriving DecidableEq, Repr

/-- One more byte before the rest of a string. -/
def consByte (b : Option Byte) (bs : Option (List Byte)) : Option (List Byte) :=
  b.bind fun x => bs.map fun xs => x :: xs

/-- The bytes of a string up to its closing quote, which ends the token: `\xHH`, `\"` and `\\` are escapes (R97). -/
def stringTail : StringMode → List Char → Option (List Byte)
  | _, [] => none
  | .text, c :: cs =>
    if c = quoteChar then (if cs = [] then some [] else none)
    else if c = '\\' then stringTail .escape cs
    else consByte (asciiByte c) (stringTail .text cs)
  | .escape, c :: cs =>
    if c = 'x' then stringTail .hexHigh cs
    else if c = quoteChar ∨ c = '\\' then consByte (asciiByte c) (stringTail .text cs)
    else none
  | .hexHigh, c :: cs => stringTail (.hexLow c) cs
  | .hexLow h, c :: cs => consByte (hexByte h c) (stringTail .text cs)

/-- A string operand (R97). -/
def stringOperand : List Char → Option (List Byte)
  | [] => none
  | c :: rest => if c = quoteChar then stringTail .text rest else none

/-! ## Lines (R95) -/

/-- Where the lexer stands: outside quotes, just after an opening `'`, further inside it, inside a string, or just
after a backslash in one. -/
inductive LexMode where
  | plain
  | charFirst
  | charRest
  | str
  | strEsc
  deriving DecidableEq, Repr

/-- The token gathered so far, if there is one. -/
def flushToken (acc : List Char) : List (List Char) := if acc = [] then [] else [acc.reverse]

/-- The tokens of a line, up to a `;` outside quotes (R95). DESIGN CHOICE (log 16): a blank, a tab and a carriage return
each part two tokens; R95 names no separator and is silent on a carriage return. -/
def lexLine : LexMode → List Char → List Char → List (List Char)
  | _, acc, [] => flushToken acc
  | .plain, acc, c :: cs =>
    if c = ';' then flushToken acc
    else if c = ' ' ∨ c = '\t' ∨ c = '\r' then flushToken acc ++ lexLine .plain [] cs
    else if c = '\'' then lexLine .charFirst (c :: acc) cs
    else if c = quoteChar then lexLine .str (c :: acc) cs
    else lexLine .plain (c :: acc) cs
  | .charFirst, acc, c :: cs => lexLine .charRest (c :: acc) cs
  | .charRest, acc, c :: cs => if c = '\'' then lexLine .plain (c :: acc) cs else lexLine .charRest (c :: acc) cs
  | .str, acc, c :: cs =>
    if c = '\\' then lexLine .strEsc (c :: acc) cs
    else if c = quoteChar then lexLine .plain (c :: acc) cs
    else lexLine .str (c :: acc) cs
  | .strEsc, acc, c :: cs => lexLine .str (c :: acc) cs

/-- The mnemonics of format N (R85). -/
def plainMnemonics : List (List Char × Instr) :=
  [("NOP".toList, .nop), ("RESET".toList, .reset), ("CLR_ERR".toList, .clrErr), ("TREE_START".toList, .treeStart),
   ("TREE_END".toList, .treeEnd), ("DEC_START".toList, .decStart), ("DEC_END".toList, .decEnd)]

/-- The words of some commands. -/
def wordsOf (is : List Instr) : List CmdWord := is.map encode

/-- A mnemonic or pseudo-command with one operand (R85, R96 to R99). -/
def asmOne (m tok : List Char) : Option (List CmdWord) :=
  if m = "READ_REG".toList then
    ((regOperand tok).or (numberOperand tok)).map fun r => wordsOf [.readReg r]
  else if m = "TREE_BYTE".toList then (byteOperand tok).map fun b => wordsOf [.treeByte b]
  else if m = "DEC_BIT".toList then (bitOperand tok).map fun t => wordsOf [.decBit t]
  else if m = "DEC_CHAR".toList then (byteOperand tok).map fun c => wordsOf [.decChar c]
  else if m = "ENC_SYM".toList then (byteOperand tok).map fun s => wordsOf [.encSym s]
  else if m = "READ".toList then (regOperand tok).map fun r => wordsOf [.readReg r]
  else if m = "LOAD_TREE".toList then (stringOperand tok).map fun s => wordsOf (loadTreeCmds s)
  else if m = "DECODE".toList then (stringOperand tok).map fun p => wordsOf (decodeCharsCmds p)
  else if m = "ENCODE".toList then (stringOperand tok).map fun s => wordsOf (encodeCmds s)
  else if m = ".word".toList then
    if tok.take 2 = ['0', 'x'] ∧ tok.length = 6 then (numberIn 16 (tok.drop 2)).map fun n => [BitVec.ofNat 16 n]
    else none
  else none

/-- The words of one line's tokens; `none` is a line the assembler refuses (R95, R96). -/
def asmTokens : List (List Char) → Option (List CmdWord)
  | [] => some []
  | m :: ops =>
    if m = "DECODE_BITS".toList then (ops.mapM bitOperand).map fun ts => wordsOf (decodeBitsCmds ts)
    else
      match ops with
      | [] => (plainMnemonics.lookup m).map fun i => wordsOf [i]
      | [tok] => asmOne m tok
      | _ :: _ :: _ => none

/-- The words of one line (R95). -/
def asmLine (line : List Char) : Option (List CmdWord) := asmTokens (lexLine .plain [] line)

/-- The lines of a text. -/
def splitLines : List Char → List Char → List (List Char)
  | acc, [] => [acc.reverse]
  | acc, c :: cs => if c = '\n' then acc.reverse :: splitLines [] cs else splitLines (c :: acc) cs

/-- The words of a command program; `none` if a line is refused (R95). -/
def assemble (text : List Char) : Option (List CmdWord) :=
  ((splitLines [] text).mapM asmLine).map List.flatten

end Sys2Proof.Machine
end

