-- ==== Sys2Proof/Tests/Slice0.lean ====
section
/-! SUPPORT. Tests against the spec's encodings and test vectors (spec/95_test_vectors.md, whose numbers the names carry),
and for every statement with hypotheses a witness that meets them. -/

namespace Sys2Proof.Tests

open Sys2Proof.Machine

/-! ## Well-formedness and decoding (R80 to R88) -/

theorem test_wf_refuses_encSym_without_encoder : Instr.wf false (.encSym 0x41) = false := by decide
theorem test_wf_accepts_encSym_with_encoder : Instr.wf true (.encSym 0x41) = true := by decide

/- Each word is written from the row of R85: OP in [15:8], ARG in [7:0]. -/
theorem test_decode_nop : decode true 0b0000000000000000 = some .nop := by decide
theorem test_decode_reset : decode true 0b0000000100000000 = some .reset := by decide
theorem test_decode_clrErr : decode true 0b0000001000000000 = some .clrErr := by decide
theorem test_decode_readReg : decode true 0b0000001100001011 = some (.readReg 0x0B) := by decide
theorem test_decode_treeStart : decode true 0b0001000000000000 = some .treeStart := by decide
theorem test_decode_treeByte : decode true 0b0001000101111000 = some (.treeByte 0x78) := by decide
theorem test_decode_treeEnd : decode true 0b0001001000000000 = some .treeEnd := by decide
theorem test_decode_decStart : decode true 0b0010000000000000 = some .decStart := by decide
theorem test_decode_decBit_0 : decode true 0b0010000100000000 = some (.decBit false) := by decide
theorem test_decode_decBit_1 : decode true 0b0010000100000001 = some (.decBit true) := by decide
theorem test_decode_decChar : decode true 0b0010001000110010 = some (.decChar 0x32) := by decide
theorem test_decode_decEnd : decode true 0b0010001100000000 = some .decEnd := by decide
theorem test_decode_encSym : decode true 0b0011000001000001 = some (.encSym 0x41) := by decide

/-- S2v, S9v, S10v, T23, D7v, D11v: a format-N word with ARG ≠ 0, and DEC_BIT with ARG[7:1] ≠ 0. -/
theorem test_illegal_operands : decode true 0x0001 = none ∧ decode true 0x0201 = none ∧ decode true 0x0101 = none ∧
    decode true 0x1001 = none ∧ decode true 0x2102 = none ∧ decode true 0x2001 = none := by decide
/-- S6v, N7: unassigned opcodes, and ENC_SYM without the encoder. -/
theorem test_illegal_opcodes : decode true 0x0400 = none ∧ decode true 0x1300 = none ∧ decode true 0x2400 = none ∧
    decode true 0x3100 = none ∧ decode true 0xFF00 = none ∧ decode false 0x3041 = none := by decide

theorem test_decodeTableWord : decodeTableWord 16 0x1178 = some (.treeByte 0x78) := by decide

/-! ## Small states -/

/-- The tree "01A1B" held, with the decoder in the given session state at the root (T12). -/
def twoLeaf (enc : Bool) (d : DState) : State :=
  { State.resetOf enc with
    tstate := .ready
    nodes := [(0, ⟨.internal, 0x00, some 1, some 2⟩), (1, ⟨.leaf, 0x41, none, none⟩), (2, ⟨.leaf, 0x42, none, none⟩)]
    ncnt := 3, nleaf := 2, present := 3#256 <<< 0x41
    code := if enc then [(0x41, ⟨1, 0⟩), (0x42, ⟨1, 1⟩)] else []
    dstate := d }

/-- The single-leaf tree "1A" held (N3, D12v). -/
def oneLeaf (enc : Bool) (d : DState) : State :=
  { State.resetOf enc with
    tstate := .ready
    nodes := [(0, ⟨.leaf, 0x41, none, none⟩)]
    ncnt := 1, nleaf := 1, present := 1#256 <<< 0x41
    code := if enc then [(0x41, ⟨0, 0⟩)] else []
    dstate := d }

/-- The tree "01B01C1A" held, with the decoder in RUN at the given node (D3v). -/
def threeLeaf (c : NodeIdx) : State :=
  { State.resetOf true with
    tstate := .ready
    nodes := [(0, ⟨.internal, 0x00, some 1, some 2⟩), (1, ⟨.leaf, 0x42, none, none⟩),
      (2, ⟨.internal, 0x00, some 3, some 4⟩), (3, ⟨.leaf, 0x43, none, none⟩), (4, ⟨.leaf, 0x41, none, none⟩)]
    ncnt := 5, nleaf := 3, present := 7#256 <<< 0x41
    code := [(0x41, ⟨2, 3⟩), (0x42, ⟨1, 0⟩), (0x43, ⟨2, 1⟩)]
    dstate := .run, cur := c }

/-- Loading, nothing allocated (after TREE_START). -/
def started (lsym : Bool) : State := { State.reset with tstate := .loading, lsym := lsym }

/-- Loading, after the byte "0" (T11). -/
def afterRoot (lsym : Bool) : State :=
  { started lsym with nodes := [(0, ⟨.internal, 0x00, none, none⟩)], ncnt := 1, slots := [⟨0, false⟩, ⟨0, true⟩] }

/-- Loading, after the bytes "01A" (T7). -/
def afterLeft (lsym : Bool) : State :=
  { started lsym with
    nodes := [(0, ⟨.internal, 0x00, some 1, none⟩), (1, ⟨.leaf, 0x41, none, none⟩)]
    ncnt := 2, nleaf := 1, slots := [⟨0, true⟩], present := 1#256 <<< 0x41 }

/-- The trees of the states above. -/
def treeAB : Tree := .internal (.leaf 0x41) (.leaf 0x42)

/-- What a command answers from a state: the last response. -/
def answerOf (i : Instr) (s : State) : Option Response :=
  match exec i s with
  | .next t => t.rsps.getLast?
  | .fault _ => none
  | .refused _ => none

/-- A field of the state after a command. -/
def afterwards {α : Type} (f : State → α) (i : Instr) (s : State) : Option α :=
  match exec i s with
  | .next t => some (f t)
  | .fault _ => none
  | .refused _ => none

/-! ## One step each, from the vectors -/

/-- S1v. -/
theorem test_nop : answerOf .nop State.reset = some { status := .ok } := by decide
/-- S3v: the error of S2v is cleared and STATUS is 0x80. -/
theorem test_reset : afterwards (fun t => (t.errFirst, t.errLast, statusReg t)) .reset
    { twoLeaf true .run with errFirst := 0xF0, errLast := 0xF0 } = some (0x00, 0x00, 0x80) := by decide
/-- S8v: the tree is kept. -/
theorem test_clrErr : afterwards (fun t => (t.errFirst, t.errLast, t.ncnt)) .clrErr
    { twoLeaf true .idle with errFirst := 0x30, errLast := 0xF1 } = some (0x00, 0x00, 3) := by decide
/-- S7v: ERR packs ERR_LAST above ERR_FIRST. -/
theorem test_readReg_err : answerOf (.readReg 0x06) { twoLeaf true .idle with errFirst := 0x30, errLast := 0xF1 } =
    some { status := .ok, data := 0x0000F130 } := by decide
/-- S5v. -/
theorem test_readReg_bad : answerOf (.readReg 0x0C) State.reset = some { status := .badRegister } := by decide
/-- T18: TREE_START closes a session and gives up the tree; STATUS is 0x81. -/
theorem test_treeStart : afterwards (fun t => (statusReg t, t.ncnt, t.decBitcnt)) .treeStart
    { twoLeaf true .run with decBitcnt := 1 } = some (0x81, 0, 0) := by decide
/-- T11: the slots after "0", the left one on top. -/
theorem test_treeByte_internal : afterwards (fun t => (t.nodes, t.slots)) (.treeByte 0x30) (started false) =
    some ((afterRoot false).nodes, [⟨0, false⟩, ⟨0, true⟩]) := by decide
/-- T12: the last leaf completes "01A1B", with codes A = [0] and B = [1]. -/
theorem test_treeByte_completes : afterwards (fun t => (statusReg t, t.nodes, t.code)) (.treeByte 0x42) (afterLeft true) =
    some (0x82, (twoLeaf true .idle).nodes, (twoLeaf true .idle).code) := by decide
/-- T4: TREE_TRUNCATED runs Discard. -/
theorem test_treeEnd_truncated : afterwards (fun t => (statusReg t, t.ncnt, t.errLast)) .treeEnd (afterLeft false) =
    some (0x80, 0, 0x01) := by decide
/-- T17. -/
theorem test_treeEnd_ready : answerOf .treeEnd (twoLeaf true .idle) = some { status := .ok } := by decide
/-- D12v: STATUS after DEC_START on "1A". -/
theorem test_decStart : afterwards statusReg .decStart (oneLeaf true .idle) = some 0x96 := by decide
/-- D16v: bit 1 at the root, then bit 0 at node 2. -/
theorem test_decBit_internal : afterwards (fun t => (t.cur, t.decSymcnt)) (.decBit true) (threeLeaf 0) =
    some (2, 0) := by decide
theorem test_decBit_leaf : answerOf (.decBit false) (threeLeaf 2) =
    some { status := .ok, sv := true, sym := 0x43 } := by decide
/-- D8v: STATUS 0x8A, nothing counted. -/
theorem test_decChar_invalid : afterwards (fun t => (statusReg t, t.decBitcnt)) (.decChar 0x32) (twoLeaf true .run) =
    some (0x8A, 0) := by decide
/-- D17v: DEC_BITCNT wraps. -/
theorem test_decChar_wraps : afterwards (fun t => t.decBitcnt) (.decChar 0x31)
    { twoLeaf true .run with decBitcnt := 0xFFFFFFFF } = some 0 := by decide
/-- D4v: STATUS 0x8A and CUR kept. -/
theorem test_decEnd_truncated : afterwards (fun t => (statusReg t, t.cur)) .decEnd (threeLeaf 2) =
    some (0x8A, 2) := by decide
/-- D1v: the number of symbols. -/
theorem test_decEnd_data : answerOf .decEnd { twoLeaf true .run with decSymcnt := 4 } =
    some { status := .ok, data := 4 } := by decide
/-- N6: the code 11 of 'A' in emission order. -/
theorem test_encSym : answerOf (.encSym 0x41) (threeLeaf 2) = some { status := .ok, clen := 2, cbits := 3 } := by decide
/-- N3: one 0 bit on the single-leaf tree. -/
theorem test_encSym_single : answerOf (.encSym 0x41) (oneLeaf true .idle) = some { status := .ok, clen := 1 } := by decide

/-- T7: a step performs the presented word; TREE_BYTE 'x' in marker position is TREE_BAD_MARKER. -/
theorem test_step : (match step ((afterLeft false).withFetchWord 16 0x1178) with
    | .next t => (t.rsps, t.inputs)
    | .fault _ => ([], [])
    | .refused _ => ([], [])) = ([{ status := .treeBadMarker }], []) := by decide

/-- R99, R97: assembler lines of spec/30_encoding.md. -/
theorem test_assemble_load : assemble "LOAD_TREE \"1A\" ; a leaf".toList = some [0x1000, 0x1131, 0x1141, 0x1200] := by
  decide
theorem test_assemble_read : assemble "READ STATUS\nDEC_BITS 1".toList = none ∧
    assemble "READ STATUS\nTREE_BYTE 'x'".toList = some [0x0301, 0x1178] := by decide

/-- H2: the tree and the codes of "AABBC", with SENTINEL_KEY below every symbol. -/
theorem test_build : (compress (-1) [0x41, 0x41, 0x42, 0x42, 0x43]).1 =
    [true, true, true, true, false, false, true, false] := by decide

/-! ## The small states meet the invariant -/

theorem present_AB : ∀ b : Byte, (3#256 <<< 0x41).getLsbD b.toNat = true ↔ b ∈ ([0x41, 0x42] : List Byte) := by decide
theorem present_A : ∀ b : Byte, (1#256 <<< 0x41).getLsbD b.toNat = true ↔ b ∈ ([0x41] : List Byte) := by decide

theorem holds_twoLeaf (enc : Bool) (d : DState) : HoldsTree (twoLeaf enc d) treeAB :=
  ⟨⟨rfl, rfl, rfl⟩, ⟨rfl, rfl, by decide, present_AB⟩, fun he => by
    cases enc
    · cases he
    · intro b hb
      simp only [treeAB, treeSymbols, List.mem_append, List.mem_singleton] at hb
      rcases hb with rfl | rfl <;> cases d <;> decide⟩

theorem inv_twoLeaf (enc : Bool) (d : DState) : Inv (twoLeaf enc d) :=
  ⟨rfl, by cases enc <;> cases d <;> decide, fun h => (by cases h; exact ⟨rfl, rfl, rfl⟩), errOk_zero,
    ⟨⟨treeAB, holds_twoLeaf enc d⟩, rfl, rfl, fun _ => rfl, fun _ => .inr ⟨Nat.zero_lt_succ 2, rfl⟩⟩⟩

theorem inv_oneLeaf (enc : Bool) (d : DState) : Inv (oneLeaf enc d) :=
  ⟨rfl, by cases enc <;> cases d <;> decide, fun h => (by cases h; exact ⟨rfl, rfl, rfl⟩), errOk_zero,
    ⟨⟨.leaf 0x41, rfl, ⟨rfl, rfl, by decide, present_A⟩, fun he => by
      cases enc
      · cases he
      · intro b hb
        simp only [treeSymbols, List.mem_singleton] at hb
        subst hb; cases d <;> decide⟩, rfl, rfl, fun _ => rfl, fun _ => .inl ⟨rfl, by simp [degen, oneLeaf]⟩⟩⟩

theorem inv_started (l : Bool) : Inv (started l) :=
  ⟨rfl, rfl, fun h => (by cases h), errOk_zero, ⟨.inl ⟨rfl, rfl, rfl, rfl⟩, rfl, rfl, rfl, rfl, rfl, rfl, rfl⟩⟩

theorem inv_afterRoot (l : Bool) : Inv (afterRoot l) :=
  ⟨rfl, rfl, fun h => (by cases h), errOk_zero,
    ⟨.inr ⟨.fresh, rfl, rfl, ⟨rfl, rfl, List.nodup_nil, fun b => by simp [isPresent, afterRoot, started, State.reset, State.resetOf, partialSymbols]⟩, by decide⟩,
      rfl, rfl, rfl, rfl, rfl, rfl, rfl⟩⟩

theorem inv_afterLeft (l : Bool) : Inv (afterLeft l) :=
  ⟨rfl, rfl, fun h => (by cases h), errOk_zero,
    ⟨.inr ⟨.atRight (.leaf 0x41), ⟨rfl, rfl⟩, rfl, ⟨rfl, rfl, by decide, present_A⟩, by decide⟩,
      rfl, rfl, rfl, rfl, rfl, rfl, rfl⟩⟩

/-! ## For every statement with hypotheses, a state and operands that meet them -/

theorem meets_DecodeOfEncodedCommand : (Instr.encSym 0xFF).wf true = true ∧ Instr.nop.wf false = true := by decide
theorem meets_DecodeReadsOnlyTheWordOfTheCommand : decode true 0x30FF = some (.encSym 0xFF) := by decide
theorem meets_StepPerformsTheDecodedCommand :
    ({ State.reset with inputs := [.command 0x2101] } : State).inputs = .command 0x2101 :: [] ∧
      decode State.reset.hasEncoder 0x2101 = some (.decBit true) := by decide
theorem meets_IllegalWordChangesOnlyErr :
    ({ State.resetOf false with inputs := [.command 0x3041] } : State).inputs = .command 0x3041 :: [] ∧
      decode (State.resetOf false).hasEncoder 0x3041 = none := by decide
theorem meets_ResetInputAndIdlePort :
    ({ State.reset with inputs := [.rst (some 0x0000)] } : State).inputs = .rst (some 0x0000) :: [] ∧
      State.reset.inputs = [] := by decide
theorem meets_WordsOfCommandsRunAsTheCommands :
    ∀ i ∈ [Instr.encSym 0x41, .nop], i.wf State.reset.hasEncoder = true := by decide
theorem meets_ReadRegAnswersTheRegisterMap :
    ((0x00 : Byte), (0x48544431 : Word32)) ∈ [((0x00 : Byte), (0x48544431 : Word32)), (0x0B, 0x0001FF08)] := by decide
theorem meets_BadRegisterChangesOnlyErr : 0x0C ≤ (0x0C : Byte).toNat ∧ 0x0C ≤ (0xFF : Byte).toNat := by decide
theorem meets_RegistersReadAfterReset : (0x00 : Byte).toNat < 0x0C ∧ (0x0B : Byte).toNat < 0x0C := by decide
theorem meets_TreeByteOutsideLoadingIsBadState :
    State.reset.tstate ≠ .loading ∧ (twoLeaf true .idle).tstate ≠ .loading := by decide
theorem meets_LeafMarkerSetsLsym : (started false).tstate = .loading ∧ (started false).lsym = false := by decide
/-- T7, T8 and T10: each clause, the overflow both ways. -/
theorem meets_LoaderErrorsRunDiscard :
    ((afterLeft false).tstate = .loading ∧ (afterLeft false).lsym = false ∧ (0x78 : Byte) ≠ 0x30 ∧ (0x78 : Byte) ≠ 0x31) ∧
      ((afterLeft true).tstate = .loading ∧ (afterLeft true).lsym = true ∧ isPresent (afterLeft true) 0x41 = true) ∧
      (∃ s : State, s.tstate = .loading ∧ s.ncnt = 511 ∧ s.lsym = false) ∧
      ∃ s : State, s.tstate = .loading ∧ s.ncnt = 511 ∧ s.lsym = true ∧ isPresent s 0x41 = false :=
  ⟨by decide, by decide, ⟨{ started false with ncnt := 511 }, by decide⟩, { started true with ncnt := 511 }, by decide⟩
theorem meets_InternalMarkerAllocatesAnInternalNode :
    (Inv (started false) ∧ (started false).tstate = .loading ∧ (started false).lsym = false ∧
      (started false).ncnt ≠ 511) ∧
    Inv (afterLeft false) ∧ (afterLeft false).tstate = .loading ∧ (afterLeft false).lsym = false ∧
      (afterLeft false).ncnt ≠ 511 :=
  ⟨⟨inv_started _, by decide⟩, inv_afterLeft _, by decide⟩
theorem meets_SymbolByteAllocatesALeaf :
    Inv (afterRoot true) ∧ (afterRoot true).tstate = .loading ∧ (afterRoot true).lsym = true ∧
      isPresent (afterRoot true) 0x41 = false ∧ (afterRoot true).ncnt ≠ 511 ∧ 2 ≤ (afterRoot true).slots.length :=
  ⟨inv_afterRoot _, by decide⟩
/-- The last slot, and the first node of a stream. -/
theorem meets_LastLeafCompletesTheTree :
    (Inv (afterLeft true) ∧ (afterLeft true).tstate = .loading ∧ (afterLeft true).lsym = true ∧
      isPresent (afterLeft true) 0x42 = false ∧ (afterLeft true).ncnt ≠ 511 ∧ (afterLeft true).slots.length ≤ 1) ∧
    Inv (started true) ∧ (started true).tstate = .loading ∧ (started true).lsym = true ∧
      isPresent (started true) 0x41 = false ∧ (started true).ncnt ≠ 511 ∧ (started true).slots.length ≤ 1 :=
  ⟨⟨inv_afterLeft _, by decide⟩, inv_started _, by decide⟩
theorem meets_TreeEndByTreeState :
    State.reset.tstate = .empty ∧ (started true).tstate = .loading ∧ (oneLeaf true .run).tstate = .ready := by decide
theorem meets_PendingSlotsCountTheMissingNodes :
    (Inv (afterRoot false) ∧ (afterRoot false).tstate = .loading ∧ 1 ≤ (afterRoot false).ncnt.toNat) ∧
      Inv (started false) ∧ (started false).tstate = .loading ∧ (started false).ncnt.toNat = 0 :=
  ⟨⟨inv_afterRoot _, by decide⟩, inv_started _, by decide⟩
theorem meets_EncSymAnswersTheCodeEntry :
    (twoLeaf true .run).hasEncoder = true ∧ (twoLeaf true .run).tstate = .ready ∧
      isPresent (twoLeaf true .run) 0x42 = true ∧ (twoLeaf true .run).ncnt ≠ 1 ∧
      storeRead (twoLeaf true .run).code (0x42 : Byte).toNat = some ⟨1, 1⟩ := by decide
theorem meets_EncSymOnTheSingleLeafTree :
    (oneLeaf true .run).hasEncoder = true ∧ (oneLeaf true .run).tstate = .ready ∧
      isPresent (oneLeaf true .run) 0x41 = true ∧ (oneLeaf true .run).ncnt = 1 := by decide
theorem meets_EncSymErrorsInOrder :
    (twoLeaf false .idle).hasEncoder = false ∧
      (State.reset.hasEncoder = true ∧ State.reset.tstate ≠ .ready) ∧
      (twoLeaf true .idle).hasEncoder = true ∧ (twoLeaf true .idle).tstate = .ready ∧
      isPresent (twoLeaf true .idle) 0x43 = false := by decide
theorem meets_EncSymIgnoresTheDecoder : ∃ t, exec (.encSym 0x41) (twoLeaf true .run) = .next t := ⟨_, rfl⟩
theorem meets_CodeLengthsAreOneTo255 : Inv (oneLeaf true .idle) ∧
    ∃ t r, exec (.encSym 0x41) (oneLeaf true .idle) = .next t ∧ t.rsps = (oneLeaf true .idle).rsps ++ [r] ∧
      r.status = .ok :=
  ⟨inv_oneLeaf _ _, _, _, rfl, rfl, rfl⟩
theorem meets_CodesArePrefixFree : Inv (twoLeaf true .idle) ∧ (0x41 : Byte) ≠ 0x42 ∧
    ∃ ta tb ra rb, exec (.encSym 0x41) (twoLeaf true .idle) = .next ta ∧
      ta.rsps = (twoLeaf true .idle).rsps ++ [ra] ∧ ra.status = .ok ∧
      exec (.encSym 0x42) (twoLeaf true .idle) = .next tb ∧
      tb.rsps = (twoLeaf true .idle).rsps ++ [rb] ∧ rb.status = .ok :=
  ⟨inv_twoLeaf _ _, by decide, _, _, _, _, rfl, rfl, rfl, rfl, rfl, rfl⟩
theorem meets_DecStartOpensASession :
    (twoLeaf true .halted).tstate = .ready ∧ (started false).tstate ≠ .ready := by decide
theorem meets_DecoderStateChecksComeFirst :
    ((∃ t, Instr.decBit true = .decBit t) ∧ (∃ c, Instr.decChar 0x32 = .decChar c)) ∧
      State.reset.tstate ≠ .ready ∧
      ((twoLeaf true .halted).tstate = .ready ∧ (twoLeaf true .halted).dstate = .halted) ∧
      (twoLeaf true .idle).tstate = .ready ∧ (twoLeaf true .idle).dstate = .idle :=
  ⟨⟨⟨_, rfl⟩, _, rfl⟩, by decide⟩
/-- D16v: to an internal node, and to a leaf. -/
theorem meets_BitsWalkTheTree :
    ((threeLeaf 0).tstate = .ready ∧ (threeLeaf 0).dstate = .run ∧ (threeLeaf 0).ncnt ≠ 1 ∧
      storeRead (threeLeaf 0).nodes (threeLeaf 0).cur.toNat = some ⟨.internal, 0x00, some 1, some 2⟩ ∧
      storeRead (threeLeaf 0).nodes (2 : NodeIdx).toNat = some ⟨.internal, 0x00, some 3, some 4⟩) ∧
    storeRead (threeLeaf 2).nodes (threeLeaf 2).cur.toNat = some ⟨.internal, 0x00, some 3, some 4⟩ ∧
      storeRead (threeLeaf 2).nodes (3 : NodeIdx).toNat = some ⟨.leaf, 0x43, none, none⟩ := by decide
theorem meets_BitsOnTheSingleLeafTree :
    (oneLeaf true .run).tstate = .ready ∧ (oneLeaf true .run).dstate = .run ∧ (oneLeaf true .run).ncnt = 1 ∧
      storeRead (oneLeaf true .run).nodes 0 = some ⟨.leaf, 0x41, none, none⟩ := by decide
/-- The characters on both sides of '0' and '1'. -/
theorem meets_DecCharIsDecBitOrInvalid :
    (twoLeaf true .run).tstate = .ready ∧ (twoLeaf true .run).dstate = .run ∧
      ∀ c ∈ ([0x2F, 0x32] : List Byte), c ≠ 0x30 ∧ c ≠ 0x31 := by decide
theorem meets_DecEndClosesOrReportsATruncatedCode :
    ((twoLeaf true .run).tstate = .ready ∧ (twoLeaf true .run).dstate = .run ∧ (twoLeaf true .run).cur = 0) ∧
      (threeLeaf 2).tstate = .ready ∧ (threeLeaf 2).dstate = .run ∧ (threeLeaf 2).cur ≠ 0 := by decide
theorem meets_NoWalkLeavesTheTree :
    Inv (twoLeaf true .run) ∧ (twoLeaf true .run).tstate = .ready ∧ (twoLeaf true .run).dstate = .run ∧
      (twoLeaf true .run).ncnt ≠ 1 := ⟨inv_twoLeaf _ _, by decide⟩
theorem meets_OnlyRestartsLeaveHalted :
    (twoLeaf true .halted).tstate = .ready ∧ (twoLeaf true .halted).dstate = .halted ∧
      (∃ t, exec (.decBit true) (twoLeaf true .halted) = .next t) ∧ Instr.decBit true ≠ .decStart ∧
      Instr.decBit true ≠ .treeStart ∧ Instr.decBit true ≠ .reset :=
  ⟨rfl, rfl, ⟨_, rfl⟩, by decide⟩
/-- A bit that is accepted, and one that is not. -/
theorem meets_DecoderCountersCountAcceptedBits :
    (∃ t r, exec (.decBit true) (twoLeaf true .run) = .next t ∧ t.rsps = (twoLeaf true .run).rsps ++ [r] ∧
      r.status = .ok ∧ r.sv = true) ∧
    ∃ t r, exec (.decChar 0x32) (twoLeaf true .run) = .next t ∧ t.rsps = (twoLeaf true .run).rsps ++ [r] ∧
      r.status ≠ .ok ∧ r.sv = false :=
  ⟨⟨_, _, rfl, rfl, rfl, rfl⟩, _, _, rfl, rfl, by decide, rfl⟩
/-- An error, and an OK response of a command that keeps ERR. -/
theorem meets_ErrRecordsEveryStatus :
    (∃ t r, performWord 0x2300 State.reset = .next t ∧ t.rsps = State.reset.rsps ++ [r] ∧ r.status ≠ .ok) ∧
    ∃ t r, performWord 0x0000 State.reset = .next t ∧ t.rsps = State.reset.rsps ++ [r] ∧ r.status = .ok ∧
      (0x0000 : CmdWord) ≠ 0x0100 ∧ (0x0000 : CmdWord) ≠ 0x0200 :=
  ⟨⟨_, _, rfl, rfl, by decide⟩, _, _, rfl, rfl, rfl, by decide, by decide⟩
/-- One status of each class: None (of a command, and of a word that does not decode), Discard, Halt. -/
theorem meets_EffectClassesOfErrors :
    (∃ t r, performWord 0x2300 State.reset = .next t ∧ t.rsps = State.reset.rsps ++ [r] ∧ r.status = .noTree) ∧
    (∃ t r, performWord 0x0001 State.reset = .next t ∧ t.rsps = State.reset.rsps ++ [r] ∧
      r.status = .illegalCommand) ∧
    (∃ t r, performWord 0x1200 (started false) = .next t ∧ t.rsps = (started false).rsps ++ [r] ∧
      r.status = .treeTruncated) ∧
    ∃ t r, performWord 0x2232 (twoLeaf true .run) = .next t ∧ t.rsps = (twoLeaf true .run).rsps ++ [r] ∧
      r.status = .invalidBit :=
  ⟨⟨_, _, rfl, rfl, rfl⟩, ⟨_, _, rfl, rfl, rfl⟩, ⟨_, _, rfl, rfl, rfl⟩, _, _, rfl, rfl, rfl⟩
theorem meets_StatusesEachCommandCanAnswer :
    ∃ t r, exec (.encSym 0x43) (twoLeaf true .idle) = .next t ∧ t.rsps = (twoLeaf true .idle).rsps ++ [r] :=
  ⟨_, _, rfl, rfl⟩
theorem meets_EveryStepKeepsTheInvariant : Inv State.reset ∧ ∃ t, step State.reset = .next t :=
  ⟨⟨rfl, rfl, fun h => (by cases h), errOk_zero, ⟨⟨rfl, rfl, rfl, rfl⟩, rfl, rfl, rfl, rfl, rfl, rfl, rfl, rfl⟩⟩, _, rfl⟩
theorem meets_ReadyTreeIsAFullBinaryTree :
    (Inv (twoLeaf true .idle) ∧ (twoLeaf true .idle).tstate = .ready ∧
      (∃ e, storeRead (twoLeaf true .idle).nodes (0 : NodeIdx).toNat = some e ∧ e.tag = .internal) ∧
      (0 < (2 : NodeIdx).toNat ∧ (2 : NodeIdx).toNat < (twoLeaf true .idle).ncnt.toNat) ∧
      isPresent (twoLeaf true .idle) 0x42 = true ∧
      ∃ e, storeRead (twoLeaf true .idle).nodes (2 : NodeIdx).toNat = some e ∧ e.tag = .leaf) ∧
    Inv (oneLeaf true .idle) ∧ (oneLeaf true .idle).tstate = .ready :=
  ⟨⟨inv_twoLeaf _ _, rfl, ⟨_, rfl, rfl⟩, by decide, by decide, _, rfl, rfl⟩, inv_oneLeaf _ _, rfl⟩
theorem meets_CodeTableHoldsTheLeafPaths :
    Inv (twoLeaf true .idle) ∧ (twoLeaf true .idle).tstate = .ready ∧ (twoLeaf true .idle).hasEncoder = true ∧
      ∃ e, storeRead (twoLeaf true .idle).nodes (2 : NodeIdx).toNat = some e ∧ e.tag = .leaf :=
  ⟨inv_twoLeaf _ _, rfl, rfl, _, rfl, rfl⟩
theorem meets_ReadyTreeIsImmutable :
    (twoLeaf true .idle).tstate = .ready ∧
      ∃ t, exec (.treeByte 0x30) (twoLeaf true .idle) = .next t ∧ t.tstate = .ready := ⟨rfl, _, rfl, rfl⟩
/-- Every way in which TSTATE changes: from READY, to READY, from EMPTY, and from LOADING by an error and by reset. -/
theorem meets_TreeStateTransitions :
    (∃ t, exec .reset (twoLeaf true .idle) = .next t ∧ (twoLeaf true .idle).tstate = .ready ∧ t.tstate ≠ .ready) ∧
    (∃ t, exec (.treeByte 0x41) (started true) = .next t ∧ (started true).tstate ≠ .ready ∧ t.tstate = .ready) ∧
    (∃ t, exec .treeStart State.reset = .next t ∧ State.reset.tstate ≠ .loading ∧ t.tstate = .loading) ∧
    (∃ t, exec (.treeByte 0x32) (started false) = .next t ∧ (started false).tstate = .loading ∧ t.tstate ≠ .loading) ∧
    (∃ t, exec .treeEnd (started true) = .next t ∧ (started true).tstate = .loading ∧ t.tstate ≠ .loading) ∧
    ∃ t, exec .reset (started true) = .next t ∧ (started true).tstate = .loading ∧ t.tstate ≠ .loading :=
  ⟨⟨_, rfl, rfl, by decide⟩, ⟨_, rfl, by decide, by decide⟩, ⟨_, rfl, by decide, rfl⟩, ⟨_, rfl, rfl, by decide⟩,
    ⟨_, rfl, rfl, by decide⟩, _, rfl, rfl, by decide⟩
theorem meets_NoEncoderMeansNoCodes :
    (twoLeaf false .idle).hasEncoder = false ∧ (twoLeaf false .idle).code = [] ∧
      (twoLeaf false .idle).encSymcnt = 0 ∧ (twoLeaf false .idle).encBitcnt = 0 ∧
      ∃ t, exec (.encSym 0x41) (twoLeaf false .idle) = .next t := ⟨rfl, rfl, rfl, rfl, _, rfl⟩
/-- Another value in an unspecified entry above NCNT, and in the child fields of a leaf. -/
theorem meets_UnspecifiedCellsAreUnobservable :
    Inv (oneLeaf true .idle) ∧
      AgreeOnSpecified (oneLeaf true .idle)
        { oneLeaf true .idle with nodes := [(0, ⟨.leaf, 0x41, some 7, none⟩), (9, ⟨.internal, 0xFF, none, some 1⟩)] } :=
  ⟨inv_oneLeaf _ _, rfl, rfl, fun i hi e he => by
    obtain rfl : i = 0 := Nat.lt_one_iff.1 hi
    cases he
    exact ⟨_, rfl, rfl, rfl, fun h => nomatch h⟩, fun _ _ _ _ => rfl⟩
theorem meets_LoadingASerializedTreeReproducesIt : DistinctLeaves treeAB ∧ DistinctLeaves (.leaf 0x30) := by decide
theorem meets_ReadyExactlyAtASerialization :
    ∃ t, runInstrs (.treeStart :: [0x31, 0x41].map .treeByte) State.reset = .next t ∧
      (∀ r ∈ newResponses State.reset t, r.status = .ok) ∧ DistinctLeaves (.leaf 0x41) ∧
      serialize (.leaf 0x41) = [0x31, 0x41] :=
  ⟨_, rfl, by decide, by decide, rfl⟩
theorem meets_DecodingACodeEmitsItsSymbol :
    Inv (twoLeaf true .run) ∧ (twoLeaf true .run).tstate = .ready ∧ (twoLeaf true .run).dstate = .run ∧
      (twoLeaf true .run).cur = 0 ∧ ∃ u r, exec (.encSym 0x42) (twoLeaf true .run) = .next u ∧
      u.rsps = (twoLeaf true .run).rsps ++ [r] ∧ r.status = .ok :=
  ⟨inv_twoLeaf _ _, rfl, rfl, rfl, _, _, rfl, rfl, rfl⟩
theorem meets_PayloadDecodesToItsSymbols :
    Inv (twoLeaf false .idle) ∧ (twoLeaf false .idle).tstate = .ready ∧ HoldsTree (twoLeaf false .idle) treeAB ∧
      ∀ b ∈ ([0x41, 0x42, 0x41] : List Byte), b ∈ treeSymbols treeAB :=
  ⟨inv_twoLeaf _ _, rfl, holds_twoLeaf _ _, by decide⟩
theorem meets_EveryBitSequenceIsCodesAndATail :
    Inv (twoLeaf true .run) ∧ (twoLeaf true .run).tstate = .ready ∧ HoldsTree (twoLeaf true .run) treeAB ∧
      (twoLeaf true .run).ncnt ≠ 1 ∧ (twoLeaf true .run).dstate = .run ∧ (twoLeaf true .run).cur = 0 :=
  ⟨inv_twoLeaf _ _, rfl, holds_twoLeaf _ _, by decide⟩
theorem meets_BuiltTreeHasTheSymbolsOfTheInput :
    build 0 (freq [0x42, 0x41, 0x42]) = some (.internal (.leaf 0x41) (.leaf 0x42)) := by decide
theorem meets_RoundTripLaw : ([0x41] : List Byte) ≠ [] := by decide

end Sys2Proof.Tests
end

section
/-! The command port (spec/00_scope.md R13, R14): what a presented word and a step do, and the settled statements about
them. -/

namespace Sys2Proof.Machine

/-! ### Performing a word -/

/-- A word that decodes runs its command (R85). -/
theorem performWord_of_decode {w : CmdWord} {i : Instr} {s : State} (h : decode s.hasEncoder w = some i) :
    performWord w s = exec i s := by
  simp only [performWord, h]

/-- A word that no rule assigns raises ILLEGAL_COMMAND (R86). -/
theorem performWord_of_undecodable {w : CmdWord} {s : State} (h : decode s.hasEncoder w = none) :
    performWord w s = .next (raise .illegalCommand s) := by
  simp only [performWord, h]

/-! ### A step, by what the host presents next -/

theorem step_of_idle {s : State} (h : s.inputs = []) : step s = .next s := by
  simp only [step, h]

theorem step_of_command {s : State} {w : CmdWord} {rest : List Input} (h : s.inputs = .command w :: rest) :
    step s = performWord w { s with inputs := rest } := by
  simp only [step, h, performInput]

theorem step_of_rst {s : State} {presented : Option CmdWord} {rest : List Input}
    (h : s.inputs = .rst presented :: rest) : step s = .next (resetProcedure { s with inputs := rest }) := by
  simp only [step, h, performInput]

/-- A 16-bit table word is the word itself (R80). -/
@[simp] theorem tableWord_toNat (w : CmdWord) : tableWord 16 w.toNat = w := by
  rw [tableWord, Nat.mod_eq_of_lt w.isLt, BitVec.ofNat_toNat, BitVec.setWidth_eq]

/-- The word that `withFetchWord` presents is the one the next step performs (log 10). -/
theorem step_withFetchWord (s : State) (w : CmdWord) : step (s.withFetchWord 16 w.toNat) = performWord w s := by
  have hin : (s.withFetchWord 16 w.toNat).inputs = .command w :: s.inputs := by simp [State.withFetchWord]
  exact step_of_command hin

/-! ### What no command touches -/

/-- No command touches what the host will present (log 1). -/
theorem effect_inputs {i : Instr} {s t : State} (h : Effect i s t) : t.inputs = s.inputs := by
  cases h <;> simp

/-- No command touches the build option (R20; log 3). -/
theorem effect_hasEncoder {i : Instr} {s t : State} (h : Effect i s t) : t.hasEncoder = s.hasEncoder := by
  cases h <;> simp

/-- Every word is performed, with one response, and leaves the host's list and the build option alone (R13, R14). -/
theorem performWord_answers_once (w : CmdWord) (s : State) : ∃ t r, performWord w s = .next t ∧
    t.rsps = s.rsps ++ [r] ∧ t.inputs = s.inputs ∧ t.hasEncoder = s.hasEncoder := by
  cases hd : decode s.hasEncoder w with
  | none => exact ⟨_, _, performWord_of_undecodable hd, raise_rsps _ s, raise_inputs _ s, raise_hasEncoder _ s⟩
  | some i =>
    obtain ⟨t, ht, he⟩ := exec_effect i s
    obtain ⟨r, hr⟩ := effect_rsps he
    exact ⟨t, r, (performWord_of_decode hd).trans ht, hr, effect_inputs he, effect_hasEncoder he⟩

/-- Every step answers a next state, the idle one too (R240; log 1). -/
theorem exists_step_next (s : State) : ∃ t, step s = .next t := by
  match hin : s.inputs with
  | [] => exact ⟨s, step_of_idle hin⟩
  | .rst _ :: _ => exact ⟨_, step_of_rst hin⟩
  | .command w :: rest =>
    obtain ⟨t, _, ht, _⟩ := performWord_answers_once w { s with inputs := rest }
    exact ⟨t, (step_of_command hin).trans ht⟩

/-- Settles O6: a step performs the word at the head of the host's list, and that word decodes to the command. -/
theorem stepPerformsTheDecodedCommand : Obligations.StepPerformsTheDecodedCommand := by
  refine ⟨fun s w rest i hin hd => ?_, fun s w i hd => ?_⟩
  · exact (step_of_command hin).trans (performWord_of_decode hd)
  · exact (step_withFetchWord s w).trans (performWord_of_decode hd)

/-- Settles O9: every case of a command answers once, and so does ILLEGAL_COMMAND. -/
theorem everyWordGetsOneResponse : Obligations.EveryWordGetsOneResponse :=
  ⟨performWord_answers_once, exists_step_next⟩

end Sys2Proof.Machine
end

section
/-! The build without the encoder (spec/00_scope.md R6): CODE and the ENC counters stay empty, by an invariant of the
commands. -/

namespace Sys2Proof.Machine

/-- A build without the encoder, with no code recorded or counted (R6, R37). -/
structure NoCodes (s : State) : Prop where
  noEncoder : s.hasEncoder = false
  code : s.code = []
  encSymcnt : s.encSymcnt = 0
  encBitcnt : s.encBitcnt = 0

section
variable {s t : State}

theorem NoCodes.of_same (h : NoCodes s) (he : t.hasEncoder = s.hasEncoder) (hc : t.code = s.code)
    (hs : t.encSymcnt = s.encSymcnt) (hb : t.encBitcnt = s.encBitcnt) : NoCodes t :=
  ⟨he.trans h.noEncoder, hc.trans h.code, hs.trans h.encSymcnt, hb.trans h.encBitcnt⟩

/-- Raising a status writes no code: it leaves CODE alone or, in Discard, empties it (R243). -/
theorem NoCodes.raise (h : NoCodes s) (e : Status) : NoCodes (raise e s) where
  noEncoder := (raise_hasEncoder e s).trans h.noEncoder
  code := by
    cases hc : effectClass e with
    | none => rw [raise_none s hc]; exact h.code
    | discard => rw [raise_discard s hc]; rfl
    | halt => rw [raise_halt s hc]; exact h.code
  encSymcnt := (raise_encSymcnt e s).trans h.encSymcnt
  encBitcnt := (raise_encBitcnt e s).trans h.encBitcnt

theorem NoCodes.allocNode (h : NoCodes s) (tag : Tag) (b : Byte) : NoCodes (allocNode tag b s) :=
  h.of_same (allocNode_hasEncoder tag b s) (allocNode_code tag b s) (allocNode_encSymcnt tag b s)
    (allocNode_encBitcnt tag b s)

/-- Without the encoder Complete builds no CODE table (R118). -/
theorem NoCodes.complete (h : NoCodes s) : NoCodes (complete s) :=
  h.of_same rfl (by simp [h.noEncoder]) rfl rfl

theorem NoCodes.setLsym (h : NoCodes s) (b : Bool) : NoCodes { s with lsym := b } :=
  h.of_same rfl rfl rfl rfl

theorem NoCodes.respond (h : NoCodes s) (r : Response) : NoCodes (respond r s) :=
  h.of_same rfl rfl rfl rfl

/-- No command of a build without the encoder records or counts a code (R6, R37). -/
theorem NoCodes.effect {i : Instr} (hn : NoCodes s) (h : Effect i s t) : NoCodes t := by
  cases h
  case encodes he _ _ | encNoTree he _ | unknownSymbol he _ _ => exact absurd (hn.noEncoder ▸ he) Bool.false_ne_true
  case reset | treeStart => exact ⟨hn.noEncoder, rfl, rfl, rfl⟩
  case allocInternal => exact (hn.allocNode _ _).respond _
  case allocLeaf => exact ((hn.setLsym false).allocNode _ _).respond _
  case completes => exact ((hn.setLsym false).allocNode _ _).complete.respond _
  case nop | clrErr | readReg | leafMarker | endReady | start | degenZero | walkLeaf | walkInternal | ends =>
    exact hn.of_same rfl rfl rfl rfl
  all_goals exact hn.raise _

end

/-- Without the encoder ENC_SYM is ILLEGAL_COMMAND (R87). -/
theorem exec_encSym_of_noEncoder {s : State} (h : s.hasEncoder = false) (b : Byte) :
    exec (.encSym b) s = .next (reported .illegalCommand s) := by
  rw [exec_of_effect (.noEncoder h), raise_none s rfl]

/-- Settles O51: `NoCodes` is kept by every case of a command, and ENC_SYM has one case without the encoder. -/
theorem noEncoderMeansNoCodes : Obligations.NoEncoderMeansNoCodes := by
  intro s t i he hc hs hb hx
  obtain ⟨he', hc', hs', hb'⟩ := NoCodes.effect ⟨he, hc, hs, hb⟩ (effect_of_exec hx)
  refine ⟨hc', hs', hb', he', ?_⟩
  rintro b rfl
  rw [exec_encSym_of_noEncoder he b] at hx
  cases hx
  rfl

end Sys2Proof.Machine
end

section
/-! The invariant of the reachable states (spec/10_state.md R47 to R49): it holds after reset, and every step keeps it. -/

namespace Sys2Proof.Machine

/-- The reset procedure establishes the invariant from every state (R47, R270). -/
theorem inv_resetProcedure (s : State) : Inv (resetProcedure s) where
  nodes := rfl
  code := rfl
  noEncoder _ := ⟨rfl, rfl, rfl⟩
  err := errOk_zero
  tree := ⟨⟨rfl, rfl, rfl, rfl⟩, rfl, ⟨rfl, rfl, rfl, rfl, rfl, rfl, rfl⟩⟩

/-- Performing a word keeps the invariant: a command does by `inv_effect`, and ILLEGAL_COMMAND is of class None. -/
theorem inv_performWord {s t : State} {w : CmdWord} (h : Inv s) (hw : performWord w s = .next t) : Inv t := by
  cases hd : decode s.hasEncoder w with
  | none =>
    rw [performWord_of_undecodable hd] at hw
    cases hw
    exact inv_raise_none h rfl (by decide)
  | some i =>
    rw [performWord_of_decode hd] at hw
    exact inv_effect h (effect_of_exec hw)

/-- Settles O45, by what the host presents next: nothing, the reset input, or a word. -/
theorem everyStepKeepsTheInvariant : Obligations.EveryStepKeepsTheInvariant := by
  intro s t h hx
  match hin : s.inputs with
  | [] =>
    rw [step_of_idle hin] at hx
    cases hx
    exact h
  | .rst _ :: _ =>
    rw [step_of_rst hin] at hx
    cases hx
    exact inv_resetProcedure _
  | .command w :: rest =>
    rw [step_of_command hin] at hx
    exact inv_performWord (inv_inputs h rest) hx

/-- Settles O46: the state after reset is what the reset procedure makes of it. -/
theorem resetMeetsTheInvariant : Obligations.ResetMeetsTheInvariant :=
  fun enc => inv_resetProcedure (State.resetOf enc)

end Sys2Proof.Machine
end

section
/-! Two states that agree on every specified cell (spec/20_memory.md R75): every command keeps the agreement, and so
answers the same in both. -/

namespace Sys2Proof.Machine

section
variable {s s' : State}

/-! ### What agreeing states share -/

/-- The elements that the conditions of a command rest on are the same in both. -/
structure SameConditions (s s' : State) : Prop where
  hasEncoder : s.hasEncoder = s'.hasEncoder
  tstate : s.tstate = s'.tstate
  ncnt : s.ncnt = s'.ncnt
  lsym : s.lsym = s'.lsym
  slots : s.slots = s'.slots
  dstate : s.dstate = s'.dstate
  cur : s.cur = s'.cur
  isPresent : ∀ b, Machine.isPresent s b = Machine.isPresent s' b
  degen : Machine.degen s = Machine.degen s'

theorem Agree.sameConditions (ha : AgreeOnSpecified s s') : SameConditions s s' := by
  obtain ⟨n, c, rfl⟩ := Agree.field ha
  exact ⟨rfl, rfl, rfl, rfl, rfl, rfl, rfl, fun _ => rfl, rfl⟩

/-- A register's value rests on no cell of NODE or CODE (R40). -/
theorem Agree.regValue (ha : AgreeOnSpecified s s') (g : Reg) : regValue s g = regValue s' g := by
  obtain ⟨n, c, rfl⟩ := Agree.field ha
  cases g <;> rfl

/-- Where the walk stands on an internal node its child field is specified, and is the same in both (R25, R168). -/
theorem Agree.nodeChild (h : Inv s) (ha : AgreeOnSpecified s s') (ht : s.tstate = .ready) (hd : s.dstate = .run)
    (hg : degen s = false) (t : Bit) : nodeChild s s.cur t = nodeChild s' s'.cur t := by
  obtain ⟨hlt, htag, -, -, hchild⟩ := walk_child h ht hd hg t
  obtain ⟨-, -, hfields⟩ := Agree.read h ha hlt
  obtain ⟨hleft, hright⟩ := hfields htag
  have hsame : (if t then (nodeRead s' s.cur).right else (nodeRead s' s.cur).left) =
      some (Machine.nodeChild s s.cur t) := by
    cases t
    · exact (hleft.resolve_left (Option.ne_none_iff_exists'.2 ⟨_, hchild⟩)).symm.trans hchild
    · exact (hright.resolve_left (Option.ne_none_iff_exists'.2 ⟨_, hchild⟩)).symm.trans hchild
  have hread : Machine.nodeChild s' s.cur t = Machine.nodeChild s s.cur t := by
    simp only [Machine.nodeChild.eq_def s' s.cur t, hsame, Option.getD_some]
  rw [← (Agree.sameConditions ha).cur, hread]

/-- The node that a bit leads to has the same TAG and SYM in both (R161). -/
theorem Agree.walkedNode (h : Inv s) (ha : AgreeOnSpecified s s') (ht : s.tstate = .ready) (hd : s.dstate = .run)
    (hg : degen s = false) (t : Bit) :
    (nodeRead s (Machine.nodeChild s s.cur t)).tag = (nodeRead s' (Machine.nodeChild s' s'.cur t)).tag ∧
      (nodeRead s (Machine.nodeChild s s.cur t)).sym = (nodeRead s' (Machine.nodeChild s' s'.cur t)).sym := by
  obtain ⟨-, -, hlt, -, -⟩ := walk_child h ht hd hg t
  obtain ⟨htag, hsym, -⟩ := Agree.read h ha hlt
  rw [← Agree.nodeChild h ha ht hd hg t]
  exact ⟨htag, hsym⟩

/-- The root of a degenerate tree has the same symbol in both (R162). -/
theorem Agree.degenSymbol (h : Inv s) (ha : AgreeOnSpecified s s') (hg : degen s = true) :
    (nodeRead s 0).sym = (nodeRead s' 0).sym := by
  have hlt : (0 : NodeIdx).toNat < s.ncnt.toNat := by rw [(degen_iff.1 hg).2]; decide
  obtain ⟨-, hsym, -⟩ := Agree.read h ha hlt
  exact hsym

/-- The code of a present symbol of a READY tree is the same in both (R31). -/
theorem Agree.encBits (ha : AgreeOnSpecified s s') (he : s.hasEncoder = true) (ht : s.tstate = .ready) {b : Byte}
    (hp : isPresent s b = true) : encBits b s = encBits b s' := by
  have hcode : codeRead s b = codeRead s' b := by rw [codeRead, codeRead, ha.code he ht b hp]
  rw [Machine.encBits, Machine.encBits, hcode, (Agree.sameConditions ha).degen]

/-! ### What keeps the agreement -/

/-- An update that neither reads nor writes NODE and CODE, nor changes what says which of their entries are specified. -/
structure KeepsCells (f : State → State) : Prop where
  commutes : ∀ u n c, f { u with nodes := n, code := c } = { f u with nodes := n, code := c } := by intros; rfl
  nodes : ∀ u, (f u).nodes = u.nodes := by intros; rfl
  code : ∀ u, (f u).code = u.code := by intros; rfl
  ncnt : ∀ u, (f u).ncnt = u.ncnt := by intros; rfl
  hasEncoder : ∀ u, (f u).hasEncoder = u.hasEncoder := by intros; rfl
  tstate : ∀ u, (f u).tstate = u.tstate := by intros; rfl
  present : ∀ u, (f u).present = u.present := by intros; rfl

/-- Such an update keeps the agreement. -/
theorem KeepsCells.agree {f : State → State} (hf : KeepsCells f) (ha : AgreeOnSpecified s s') :
    AgreeOnSpecified (f s) (f s') := by
  refine agree_mk ha ?_ (hf.nodes s) (hf.nodes s') (hf.ncnt s) (hf.code s) (hf.code s') (hf.hasEncoder s)
    (fun ht => (hf.tstate s).symm.trans ht) (hf.present s)
  rw [hf.nodes, hf.code, ← hf.commutes, ha.rest]

theorem keepsCells_respond (r : Response) : KeepsCells (respond r) := {}
theorem keepsCells_report (e : Status) : KeepsCells fun u => reported e u := {}
theorem keepsCells_halt : KeepsCells halt := {}
theorem keepsCells_clearErr : KeepsCells fun u => { u with errFirst := 0x00, errLast := 0x00 } := {}
theorem keepsCells_setLsym (l : Bool) : KeepsCells fun u => { u with lsym := l } := {}
theorem keepsCells_openSession :
    KeepsCells fun u => { u with dstate := .run, cur := 0, decBitcnt := 0, decSymcnt := 0 } := {}
theorem keepsCells_closeSession :
    KeepsCells fun u => respond { status := .ok, data := u.decSymcnt } { u with dstate := .idle } := {}
theorem keepsCells_countBit : KeepsCells countBit := {}
theorem keepsCells_setCur (c : NodeIdx) : KeepsCells fun u => { u with cur := c } := {}
theorem keepsCells_emitSymbol (b : Byte) : KeepsCells (emitSymbol b) := {}
theorem keepsCells_emitCode (bits : List Bit) : KeepsCells (emitCode bits) := {}

theorem AgreeOnSpecified.respond (ha : AgreeOnSpecified s s') (r : Response) :
    AgreeOnSpecified (respond r s) (respond r s') := (keepsCells_respond r).agree ha

theorem AgreeOnSpecified.setLsym (ha : AgreeOnSpecified s s') (l : Bool) :
    AgreeOnSpecified { s with lsym := l } { s' with lsym := l } := (keepsCells_setLsym l).agree ha

/-- Raising a status keeps the agreement: Discard leaves no cell specified, and the other classes touch none (R243). -/
theorem AgreeOnSpecified.raise (ha : AgreeOnSpecified s s') (e : Status) :
    AgreeOnSpecified (raise e s) (raise e s') := by
  cases hc : effectClass e with
  | none =>
    rw [raise_none s hc, raise_none s' hc]
    exact (keepsCells_report e).agree ha
  | discard =>
    rw [raise_discard s hc, raise_discard s' hc]
    exact agree_empty (by rw [← ha.rest]; rfl) rfl rfl (by simp)
  | halt =>
    rw [raise_halt s hc, raise_halt s' hc]
    exact (keepsCells_report e).agree (keepsCells_halt.agree ha)

/-- An allocation keeps the agreement; in LOADING no CODE entry is specified (R115, R31). -/
theorem AgreeOnSpecified.allocNode (ha : AgreeOnSpecified s s') (h : Inv s) (ht : s.tstate = .loading)
    (hn : s.ncnt ≠ 511) (tag : Tag) (b : Byte) (hb : tag = .leaf → isPresent s b = false) :
    AgreeOnSpecified (allocNode tag b s) (allocNode tag b s') := by
  obtain ⟨hrest, hcan, hnodes⟩ := allocNode_agree h ha ht hn tag b hb
  exact ⟨hrest, hcan, hnodes, fun _ hr => by simp [ht] at hr⟩

/-- Filling the last slot, with Complete, keeps the agreement (R118). -/
theorem AgreeOnSpecified.completeAlloc (ha : AgreeOnSpecified s s') (h : Inv s) (ht : s.tstate = .loading)
    (hn : s.ncnt ≠ 511) (b : Byte) (hb : isPresent s b = false) (hs : (Machine.allocNode .leaf b s).slots = []) :
    AgreeOnSpecified (complete (Machine.allocNode .leaf b s)) (complete (Machine.allocNode .leaf b s')) := by
  obtain ⟨x, hg, -⟩ := grown_of_inv h ht hn .leaf b fun _ => hb
  cases x with
  | inl p => exact absurd (hg.slots.symm.trans hs) (partialSlots_ne_nil 0 p)
  | inr T =>
    obtain ⟨hrest, hcan, hnodes⟩ := allocNode_agree h ha ht hn .leaf b fun _ => hb
    exact complete_agree hg hrest hcan hnodes

/-! ### Every command -/

/-- A command that acts in the first of two agreeing states acts by the same case in the second, and the next states
agree again. -/
theorem effect_agree {t : State} {i : Instr} (h : Inv s) (ha : AgreeOnSpecified s s') (he : Effect i s t) :
    ∃ t', Effect i s' t' ∧ AgreeOnSpecified t t' := by
  obtain ⟨henc, hts, hnc, hls, hslots, hds, hcur, hpres, hdeg⟩ := Agree.sameConditions ha
  cases he with
  | nop => exact ⟨_, .nop _, ha.respond _⟩
  | reset => exact ⟨_, .reset _, agree_empty (by rw [← ha.rest]; rfl) rfl rfl (by simp)⟩
  | clrErr => exact ⟨_, .clrErr _, (keepsCells_clearErr.agree ha).respond _⟩
  | readReg _ hr => exact ⟨_, .readReg _ hr, Agree.regValue ha _ ▸ ha.respond _⟩
  | badRegister _ hr => exact ⟨_, .badRegister _ hr, ha.raise _⟩
  | treeStart => exact ⟨_, .treeStart _, agree_empty (by rw [← ha.rest]) rfl rfl (by simp)⟩
  | byteOutside ht => exact ⟨_, .byteOutside (hts ▸ ht), ha.raise _⟩
  | leafMarker ht hl => exact ⟨_, .leafMarker (hts ▸ ht) (hls ▸ hl), (ha.setLsym true).respond _⟩
  | badMarker ht hl h0 h1 => exact ⟨_, .badMarker (hts ▸ ht) (hls ▸ hl) h0 h1, ha.raise _⟩
  | dupSymbol ht hl hp => exact ⟨_, .dupSymbol (hts ▸ ht) (hls ▸ hl) (hpres _ ▸ hp), ha.raise _⟩
  | overflow ht hb hn =>
    rw [hls, hpres] at hb
    exact ⟨_, .overflow (hts ▸ ht) hb (hnc ▸ hn), ha.raise _⟩
  | allocInternal ht hl hn =>
    exact ⟨_, .allocInternal (hts ▸ ht) (hls ▸ hl) (hnc ▸ hn), (ha.allocNode h ht hn _ _ (by simp)).respond _⟩
  | allocLeaf ht hl hp hn hs =>
    have hag := (ha.setLsym false).allocNode (inv_setLsym h ht false) ht hn .leaf _ fun _ => hp
    exact ⟨_, .allocLeaf (hts ▸ ht) (hls ▸ hl) (hpres _ ▸ hp) (hnc ▸ hn) ((Agree.sameConditions hag).slots ▸ hs),
      hag.respond _⟩
  | completes ht hl hp hn hs =>
    have hag := (ha.setLsym false).allocNode (inv_setLsym h ht false) ht hn .leaf _ fun _ => hp
    exact ⟨_, .completes (hts ▸ ht) (hls ▸ hl) (hpres _ ▸ hp) (hnc ▸ hn) ((Agree.sameConditions hag).slots ▸ hs),
      ((ha.setLsym false).completeAlloc (inv_setLsym h ht false) ht hn _ hp hs).respond _⟩
  | endEmpty ht => exact ⟨_, .endEmpty (hts ▸ ht), ha.raise _⟩
  | endLoading ht => exact ⟨_, .endLoading (hts ▸ ht), ha.raise _⟩
  | endReady ht => exact ⟨_, .endReady (hts ▸ ht), ha.respond _⟩
  | startNoTree ht => exact ⟨_, .startNoTree (hts ▸ ht), ha.raise _⟩
  | start ht => exact ⟨_, .start (hts ▸ ht), (keepsCells_openSession.agree ha).respond _⟩
  | noTree hi ht => exact ⟨_, .noTree hi (hts ▸ ht), ha.raise _⟩
  | halted hi ht hd => exact ⟨_, .halted hi (hts ▸ ht) (hds ▸ hd), ha.raise _⟩
  | idle hi ht hd => exact ⟨_, .idle hi (hts ▸ ht) (hds ▸ hd), ha.raise _⟩
  | degenZero hi ht hd hg =>
    rw [Agree.degenSymbol h ha hg]
    exact ⟨_, .degenZero hi (hts ▸ ht) (hds ▸ hd) (hdeg ▸ hg),
      (keepsCells_emitSymbol _).agree (keepsCells_countBit.agree ha)⟩
  | degenOne hi ht hd hg => exact ⟨_, .degenOne hi (hts ▸ ht) (hds ▸ hd) (hdeg ▸ hg), ha.raise _⟩
  | walkLeaf hi ht hd hg hx =>
    obtain ⟨htag, hsym⟩ := Agree.walkedNode h ha ht hd hg _
    rw [hsym]
    exact ⟨_, .walkLeaf hi (hts ▸ ht) (hds ▸ hd) (hdeg ▸ hg) (htag ▸ hx),
      (keepsCells_emitSymbol _).agree ((keepsCells_setCur 0).agree (keepsCells_countBit.agree ha))⟩
  | walkInternal hi ht hd hg hx =>
    obtain ⟨htag, -⟩ := Agree.walkedNode h ha ht hd hg _
    rw [Agree.nodeChild h ha ht hd hg]
    exact ⟨_, .walkInternal hi (hts ▸ ht) (hds ▸ hd) (hdeg ▸ hg) (htag ▸ hx),
      ((keepsCells_setCur _).agree (keepsCells_countBit.agree ha)).respond _⟩
  | invalidBit hc ht hd => exact ⟨_, .invalidBit hc (hts ▸ ht) (hds ▸ hd), ha.raise _⟩
  | truncated ht hd hc => exact ⟨_, .truncated (hts ▸ ht) (hds ▸ hd) (hcur ▸ hc), ha.raise _⟩
  | ends ht hd hc => exact ⟨_, .ends (hts ▸ ht) (hds ▸ hd) (hcur ▸ hc), keepsCells_closeSession.agree ha⟩
  | noEncoder he => exact ⟨_, .noEncoder (henc ▸ he), ha.raise _⟩
  | encNoTree he ht => exact ⟨_, .encNoTree (henc ▸ he) (hts ▸ ht), ha.raise _⟩
  | unknownSymbol he ht hp => exact ⟨_, .unknownSymbol (henc ▸ he) (hts ▸ ht) (hpres _ ▸ hp), ha.raise _⟩
  | encodes he ht hp =>
    rw [Agree.encBits ha he ht hp]
    exact ⟨_, .encodes (henc ▸ he) (hts ▸ ht) (hpres _ ▸ hp), (keepsCells_emitCode _).agree ha⟩

/-- Agreeing states have returned the same responses, so what a command adds is the same too. -/
theorem Agree.newResponses {t t' : State} (ha : AgreeOnSpecified s s') (ht : AgreeOnSpecified t t') :
    newResponses s t = newResponses s' t' := by
  rw [← ha.rest, ← ht.rest]

end

/-- Settles O52: both states take the same case of the command. -/
theorem unspecifiedCellsAreUnobservable : Obligations.UnspecifiedCellsAreUnobservable := by
  intro s s' i h ha
  obtain ⟨t, ht, he⟩ := exec_effect i s
  obtain ⟨t', he', hag⟩ := effect_agree h ha he
  exact ⟨t, t', ht, exec_of_effect he', Agree.newResponses ha hag, hag⟩

end Sys2Proof.Machine
end

section
/-! The register map (spec/10_state.md R40 to R47): what READ_REG answers for each assigned index. -/

namespace Sys2Proof.Machine

/-- READ_REG of a register's index answers its value and changes nothing (R193). -/
theorem exec_readReg {r : Byte} {g : Reg} (hr : regOf r = some g) (s : State) :
    exec (.readReg r) s = .next (answered s { status := .ok, data := regValue s g }) :=
  exec_of_effect (.readReg s hr)

@[simp] theorem regOf_regIndex (g : Reg) : regOf (regIndex g) = some g := by
  cases g <;> rfl

/-- Every index below 0x0C is a register's (R40). -/
theorem exists_regIndex {r : Byte} (hr : r.toNat < 0x0C) : ∃ g, regIndex g = r := by
  have hall : ∀ r : Byte, r.toNat < 0x0C → r ∈ ([.id, .status, .ncnt, .nleaf, .cur, .sdepth, .err, .decBitcnt,
      .decSymcnt, .encSymcnt, .encBitcnt, .param] : List Reg).map regIndex := by decide
  obtain ⟨g, -, hg⟩ := List.mem_map.1 (hall r hr)
  exact ⟨g, hg⟩

/-! ### Bits of a register put together from its fields -/

/-- Bit `m + k` of a vector on top of `m` bits is its own bit `k`. -/
theorem getLsbD_append_above {n m : Nat} (x : BitVec n) (y : BitVec m) (k : Nat) :
    (x ++ y).getLsbD (m + k) = x.getLsbD k := by
  rw [BitVec.getLsbD_append, if_neg (by omega), Nat.add_sub_cancel_left]

/-- A field of a vector on top of `m` bits is that field `m` places higher. -/
theorem extractLsb'_append_above {n m : Nat} (x : BitVec n) (y : BitVec m) (k l : Nat) :
    (x ++ y).extractLsb' (m + k) l = x.extractLsb' k l := by
  apply BitVec.eq_of_getLsbD_eq
  intro i hi
  rw [BitVec.getLsbD_extractLsb', BitVec.getLsbD_extractLsb', Nat.add_assoc, getLsbD_append_above]

/-- ERR is ERR_LAST above ERR_FIRST, and 0 above them (R44). -/
theorem errReg_eq (a b : BitVec 8) : 0#16 ++ a ++ b = (a.setWidth 32 <<< 8) ||| b.setWidth 32 := by
  apply BitVec.eq_of_toNat_eq
  have ha : a.toNat % 4294967296 = a.toNat := Nat.mod_eq_of_lt (by omega)
  have hb : b.toNat % 4294967296 = b.toNat := Nat.mod_eq_of_lt (by omega)
  have hab : a.toNat <<< 8 % 4294967296 = a.toNat <<< 8 := Nat.mod_eq_of_lt (by rw [Nat.shiftLeft_eq]; omega)
  rw [BitVec.toNat_append, BitVec.toNat_append]
  simp [ha, hb, hab]

/-- Settles O14: each index of the list is a register's, and the register's value is the one listed. -/
theorem readRegAnswersTheRegisterMap : Obligations.ReadRegAnswersTheRegisterMap := by
  intro s p hp
  have hreg : ∃ g, regOf p.1 = some g ∧ regValue s g = p.2 := by
    simp only [List.mem_cons, List.not_mem_nil, or_false] at hp
    rcases hp with rfl | rfl | rfl | rfl | rfl | rfl | rfl | rfl | rfl | rfl | rfl
    case inr.inr.inr.inr.inr.inl => exact ⟨.err, rfl, errReg_eq s.errLast s.errFirst⟩
    all_goals exact ⟨_, rfl, rfl⟩
  obtain ⟨g, hg, hv⟩ := hreg
  rw [exec_readReg hg, hv]

/-- Settles O17: the registers after reset, one by one, in each build. -/
theorem registersReadAfterReset : Obligations.RegistersReadAfterReset := by
  intro enc r hr
  obtain ⟨g, rfl⟩ := exists_regIndex hr
  rw [exec_readReg (regOf_regIndex g)]
  cases g <;> cases enc <;> rfl

/-- The bits of STATUS above DSTATE: the four flags, and 0 above them. -/
def statusFlags (enc lsym mid deg : Bool) : BitVec 28 :=
  0#24 ++ BitVec.ofBool enc ++ BitVec.ofBool lsym ++ BitVec.ofBool mid ++ BitVec.ofBool deg

theorem statusReg_eq (s : State) : statusReg s =
    statusFlags s.hasEncoder s.lsym (midcode s) (degen s) ++ dstateCode s.dstate ++ tstateCode s.tstate := rfl

theorem statusFlags_bits : ∀ enc lsym mid deg : Bool,
    (statusFlags enc lsym mid deg).getLsbD 0 = deg ∧ (statusFlags enc lsym mid deg).getLsbD 1 = mid ∧
      (statusFlags enc lsym mid deg).getLsbD 2 = lsym ∧ (statusFlags enc lsym mid deg).getLsbD 3 = enc ∧
      (statusFlags enc lsym mid deg).extractLsb' 4 24 = 0 := by decide

theorem statusReg_tstate (s : State) : (statusReg s).extractLsb' 0 2 = tstateCode s.tstate :=
  extract_append_low _ _

theorem statusReg_dstate (s : State) : (statusReg s).extractLsb' 2 2 = dstateCode s.dstate :=
  (extractLsb'_append_above _ _ 0 2).trans (extract_append_low _ _)

theorem statusReg_flag (s : State) (k : Nat) : (statusReg s).getLsbD (2 + (2 + k)) =
    (statusFlags s.hasEncoder s.lsym (midcode s) (degen s)).getLsbD k := by
  rw [statusReg_eq, getLsbD_append_above, getLsbD_append_above]

theorem statusReg_high (s : State) : (statusReg s).extractLsb' 8 24 =
    (statusFlags s.hasEncoder s.lsym (midcode s) (degen s)).extractLsb' 4 24 :=
  (extractLsb'_append_above _ _ 6 24).trans (extractLsb'_append_above _ _ 4 24)

/-- Settles O15: TSTATE and DSTATE are the low fields, and the flags stand above them. -/
theorem statusRegisterFields : Obligations.StatusRegisterFields := by
  intro s
  obtain ⟨hdegen, hmid, hlsym, henc, hzero⟩ := statusFlags_bits s.hasEncoder s.lsym (midcode s) (degen s)
  refine ⟨statusReg s, exec_readReg (g := .status) rfl s, ?_, ?_, ?_, ?_, ?_, ?_, ?_⟩
  · rw [statusReg_tstate]
    cases s.tstate <;> rfl
  · rw [statusReg_dstate]
    cases s.dstate <;> rfl
  · rw [← degen_iff, ← hdegen, ← statusReg_flag]
  · rw [← midcode_iff, ← hmid, ← statusReg_flag]
  · exact (statusReg_flag s 2).trans hlsym
  · exact (statusReg_flag s 3).trans henc
  · exact (statusReg_high s).trans hzero

end Sys2Proof.Machine
end

section
/-! What a response says of the command that gave it: the error record (spec/10_state.md R38, spec/60_exceptions.md
R242) and the decoder's counters (spec/43_decode.md R170). -/

namespace Sys2Proof.Machine

/-! ### Which words are RESET and CLR_ERR (spec/30_encoding.md R85) -/

/-- Format N decodes only a zero ARG (R81). -/
theorem mkWord_of_decodeN {i j : Instr} {op arg : Byte} (hi : encode i = mkWord op 0x00)
    (h : decodeN i arg = some j) : encode j = mkWord op arg := by
  unfold decodeN at h
  split at h
  · cases h
    rw [hi, ‹arg = 0x00›]
  · cases h

/-- Formats B and R decode every ARG (R82, R84). -/
theorem mkWord_of_decodeB {f : Byte → Instr} {j : Instr} {op arg : Byte} (hf : encode (f arg) = mkWord op arg)
    (h : decodeB f arg = some j) : encode j = mkWord op arg := by
  cases h
  exact hf

/-- An ARG with [7:1] = 0 is its bit 0 (R83). -/
theorem bitArg_eq : ∀ arg : Byte, arg.extractLsb' 1 7 = 0 → (if arg.getLsbD 0 then 0x01 else 0x00) = arg := by decide

/-- Format T decodes an ARG that is one bit (R83). -/
theorem mkWord_of_decodeT {j : Instr} {arg : Byte} (h : decodeT .decBit arg = some j) :
    encode j = mkWord 0x21 arg := by
  unfold decodeT at h
  split at h
  · cases h
    exact congrArg (mkWord 0x21) (bitArg_eq arg ‹_›)
  · cases h

/-- One arm of the opcode map (R85). -/
theorem encode_of_arm {op c arg : Byte} {a b : Option Instr} {j : Instr} (h : (if op = c then a else b) = some j)
    (ha : a = some j → encode j = mkWord c arg) (hb : b = some j → encode j = mkWord op arg) :
    encode j = mkWord op arg := by
  split at h
  · rw [‹op = c›]
    exact ha h
  · exact hb h

/-- A word decodes only to the command whose word it is (R85, R86): the arms of the opcode map in order. -/
theorem encode_of_decode {enc : Bool} {w : CmdWord} {i : Instr} (h : decode enc w = some i) : encode i = w := by
  rw [← mkWord_fields w]
  refine encode_of_arm h (mkWord_of_decodeN rfl) fun h => ?_
  refine encode_of_arm h (mkWord_of_decodeN rfl) fun h => ?_
  refine encode_of_arm h (mkWord_of_decodeN rfl) fun h => ?_
  refine encode_of_arm h (mkWord_of_decodeB rfl) fun h => ?_
  refine encode_of_arm h (mkWord_of_decodeN rfl) fun h => ?_
  refine encode_of_arm h (mkWord_of_decodeB rfl) fun h => ?_
  refine encode_of_arm h (mkWord_of_decodeN rfl) fun h => ?_
  refine encode_of_arm h (mkWord_of_decodeN rfl) fun h => ?_
  refine encode_of_arm h mkWord_of_decodeT fun h => ?_
  refine encode_of_arm h (mkWord_of_decodeB rfl) fun h => ?_
  refine encode_of_arm h (mkWord_of_decodeN rfl) fun h => ?_
  refine encode_of_arm h (fun h => ?_) fun h => nomatch h
  cases enc
  · cases h
  · exact mkWord_of_decodeB rfl h

/-! ### A command raises a status, or answers OK -/

/-- A command either raises a status other than OK or answers OK, and then only RESET and CLR_ERR touch ERR. -/
theorem effect_raises_or_answers {i : Instr} {s t : State} (h : Effect i s t) :
    (∃ e, e ≠ .ok ∧ t = raise e s) ∨
      ∃ r : Response, r.status = .ok ∧ t.rsps = s.rsps ++ [r] ∧
        (i ≠ .reset → i ≠ .clrErr → t.errLast = s.errLast ∧ t.errFirst = s.errFirst) := by
  cases h
  case reset => exact .inr ⟨_, rfl, rfl, fun h => absurd rfl h⟩
  case clrErr => exact .inr ⟨_, rfl, rfl, fun _ h => absurd rfl h⟩
  case allocInternal | allocLeaf | completes => exact .inr ⟨{ status := .ok }, rfl, by simp, fun _ _ => by simp⟩
  case nop | readReg | treeStart | leafMarker | endReady | start | degenZero | walkLeaf | walkInternal | ends |
      encodes =>
    exact .inr ⟨_, rfl, rfl, fun _ _ => ⟨rfl, rfl⟩⟩
  all_goals exact .inl ⟨_, by decide, rfl⟩

/-- So is a word: ILLEGAL_COMMAND is raised for one that does not decode (R86). -/
theorem performWord_raises_or_answers {w : CmdWord} {s t : State} (h : performWord w s = .next t) :
    (∃ e, e ≠ .ok ∧ t = raise e s) ∨
      ∃ r : Response, r.status = .ok ∧ t.rsps = s.rsps ++ [r] ∧
        (w ≠ 0x0100 → w ≠ 0x0200 → t.errLast = s.errLast ∧ t.errFirst = s.errFirst) := by
  cases hd : decode s.hasEncoder w with
  | none =>
    rw [performWord_of_undecodable hd] at h
    cases h
    exact .inl ⟨_, by decide, rfl⟩
  | some i =>
    rw [performWord_of_decode hd] at h
    refine (effect_raises_or_answers (effect_of_exec h)).imp_right fun ⟨r, hok, hr, herr⟩ => ⟨r, hok, hr, ?_⟩
    have hw := encode_of_decode hd
    exact fun h1 h2 => herr (by rintro rfl; exact h1 hw.symm) (by rintro rfl; exact h2 hw.symm)

/-- The one response that a state has more is determined. -/
theorem response_unique {l l' : List Response} {r r' : Response} (h : l = l' ++ [r]) (h' : l = l' ++ [r']) : r = r' := by
  simpa [h] using h'

/-- Settles O42: what is raised is recorded, with every other response field 0, and an OK answer keeps ERR. -/
theorem errRecordsEveryStatus : Obligations.ErrRecordsEveryStatus := by
  intro s t w r hw hr
  rcases performWord_raises_or_answers hw with ⟨e, he, rfl⟩ | ⟨r', hok, hr', herr⟩
  · obtain rfl := response_unique hr (raise_rsps e s)
    exact ⟨fun _ => ⟨raise_errLast e s, raise_errFirst e s, rfl, rfl, rfl, rfl, rfl⟩, fun h => absurd h he⟩
  · obtain rfl := response_unique hr hr'
    exact ⟨fun h => absurd hok h, fun _ => herr⟩

/-! ### The decoder's counters -/

/-- What DEC_BIT and DEC_CHAR do: raise a status, or count the bit and go to a node, with a symbol or without. -/
theorem bit_effect {i : Instr} {s t : State} (h : Effect i s t) (hi : (∃ x, i = .decBit x) ∨ ∃ c, i = .decChar c) :
    (∃ e, e ≠ .ok ∧ t = raise e s) ∨ (∃ b c, t = emitSymbol b { countBit s with cur := c }) ∨
      ∃ c, t = respondOk { countBit s with cur := c } := by
  rcases hi with ⟨x, rfl⟩ | ⟨c, rfl⟩ <;> cases h
  case inl.degenZero | inr.degenZero => exact .inr (.inl ⟨_, s.cur, rfl⟩)
  case inl.walkLeaf | inr.walkLeaf => exact .inr (.inl ⟨_, _, rfl⟩)
  case inl.walkInternal | inr.walkInternal => exact .inr (.inr ⟨_, rfl⟩)
  all_goals exact .inl ⟨_, by decide, rfl⟩

/-- Settles O41, by the three things that a bit can do. -/
theorem decoderCountersCountAcceptedBits : Obligations.DecoderCountersCountAcceptedBits := by
  intro s t i r hi hx hr
  rcases bit_effect (effect_of_exec hx) hi with ⟨e, he, rfl⟩ | ⟨b, c, rfl⟩ | ⟨c, rfl⟩
  · obtain rfl := response_unique hr (raise_rsps e s)
    simp [he]
  · obtain rfl := response_unique hr (emitSymbol_rsps _ _)
    exact ⟨rfl, rfl⟩
  · obtain rfl := response_unique hr (respondOk_rsps _)
    exact ⟨rfl, rfl⟩

end Sys2Proof.Machine
end

section
/-! The tree states (spec/10_state.md R23): every way in which a command changes TSTATE. -/

namespace Sys2Proof.Machine

/-! ### What allocating a leaf does to SLOTS and NCNT in any state (R115) -/

theorem linkTop_slots (n : NodeIdx) (s : State) : (linkTop n s).slots = s.slots.tail := by
  unfold linkTop
  split
  · rw [‹s.slots = []›]; rfl
  · rw [‹s.slots = _ :: _›]; rfl

theorem linkTop_ncnt (n : NodeIdx) (s : State) : (linkTop n s).ncnt = s.ncnt := by
  unfold linkTop
  split <;> rfl

/-- An allocated leaf fills the top slot, or is the root. -/
theorem allocLeaf_slots (b : Byte) (s : State) :
    (allocNode .leaf b s).slots = if s.ncnt = 0 then s.slots else s.slots.tail := by
  have h : (allocNode .leaf b s).slots = (placeNode .leaf b (nextIndex s) s).slots := rfl
  rw [h, placeNode]
  split
  · rfl
  · exact linkTop_slots _ _

theorem allocLeaf_ncnt (b : Byte) (s : State) : (allocNode .leaf b s).ncnt = s.ncnt + 1 := by
  have h : (allocNode .leaf b s).ncnt = (placeNode .leaf b (nextIndex s) s).ncnt + 1 := rfl
  rw [h, placeNode]
  split
  · rfl
  · rw [linkTop_ncnt]; rfl

/-- A leaf that leaves no slot pending found at most one. -/
theorem slots_le_one_of_allocLeaf {b : Byte} {s : State} (h : (allocNode .leaf b s).slots = []) :
    s.slots.length ≤ 1 := by
  rw [allocLeaf_slots] at h
  split at h
  · simp [h]
  · have := congrArg List.length h
    rw [List.length_tail, List.length_nil] at this
    omega

/-! ### The changes of TSTATE -/

/-- The ways in which a command changes TSTATE, or keeps it (R23, R110, R114, R118, R120, R270). -/
inductive TreeStateChange (s t : State) : Instr → Prop where
  | keeps {i : Instr} (h : t.tstate = s.tstate) : TreeStateChange s t i
  | starts (h : t.tstate = .loading) : TreeStateChange s t .treeStart
  | resets (h : t.tstate = .empty) : TreeStateChange s t .reset
  | completes {b : Byte} (hs : s.tstate = .loading) (ht : t.tstate = .ready) (hl : s.lsym = true)
    (hp : isPresent s b = false) (hslots : s.slots.length ≤ 1) (hnone : t.slots = []) (hn : t.ncnt = s.ncnt + 1) :
    TreeStateChange s t (.treeByte b)
  | byteDiscards {b : Byte} {e : Status} (hs : s.tstate = .loading)
    (he : e ∈ [Status.treeBadMarker, .treeDupSymbol, .treeOverflow]) (ht : t = reported e (discardTree s)) :
    TreeStateChange s t (.treeByte b)
  | endDiscards (hs : s.tstate = .loading) (ht : t = reported .treeTruncated (discardTree s)) :
    TreeStateChange s t .treeEnd

/-- A status that does not discard the tree leaves TSTATE alone (R243). -/
theorem raise_tstate {e : Status} (s : State) (he : effectClass e ≠ .discard) : (raise e s).tstate = s.tstate := by
  cases hc : effectClass e with
  | none => rw [raise_none s hc]
  | discard => exact absurd hc he
  | halt => rw [raise_halt s hc]

theorem effect_treeStateChange {i : Instr} {s t : State} (h : Effect i s t) : TreeStateChange s t i := by
  cases h
  case reset => exact .resets rfl
  case treeStart => exact .starts rfl
  case completes ht hl hp hn hs =>
    have hone : s.slots.length ≤ 1 := slots_le_one_of_allocLeaf (s := { s with lsym := false }) hs
    exact .completes ht rfl hl hp hone hs (allocLeaf_ncnt _ _)
  case badMarker h0 h1 ht hl => exact .byteDiscards ht (by decide) (raise_discard s rfl)
  case dupSymbol ht hl hp => exact .byteDiscards ht (by decide) (raise_discard s rfl)
  case overflow ht hb hn => exact .byteDiscards ht (by decide) (raise_discard s rfl)
  case endLoading ht => exact .endDiscards ht (raise_discard s rfl)
  case allocInternal | allocLeaf => exact .keeps (by simp)
  case nop | clrErr | readReg | leafMarker | endReady | start | degenZero | walkLeaf | walkInternal | ends |
      encodes =>
    exact .keeps rfl
  all_goals exact .keeps (raise_tstate s (by decide))

/-- Settles O50, clause by clause from the ways in which TSTATE changes. -/
theorem treeStateTransitions : Obligations.TreeStateTransitions := by
  intro s t i hx
  cases effect_treeStateChange (effect_of_exec hx) with
  | keeps h =>
    exact ⟨fun hs ht => absurd (h.trans hs) ht, fun hs ht => absurd (h.symm.trans ht) hs,
      fun hs ht => absurd (h.symm.trans ht) hs, fun hs ht => absurd (h.trans hs) ht⟩
  | starts h =>
    exact ⟨fun _ _ => .inl ⟨rfl, h⟩, fun _ ht => (nomatch h.symm.trans ht), fun _ _ => rfl, fun _ ht => absurd h ht⟩
  | resets h =>
    exact ⟨fun _ _ => .inr ⟨rfl, h⟩, fun _ ht => (nomatch h.symm.trans ht), fun _ ht => (nomatch h.symm.trans ht),
      fun _ _ => .inr (.inl ⟨h, rfl⟩)⟩
  | completes hs ht hl hp hslots hnone hn =>
    exact ⟨fun hs' => (nomatch hs.symm.trans hs'), fun _ _ => ⟨hs, hl, hslots, hnone, hn, _, rfl, hp⟩,
      fun hs' => absurd hs hs', fun _ _ => .inl ⟨ht, _, rfl⟩⟩
  | byteDiscards hs he ht =>
    subst ht
    exact ⟨fun hs' => (nomatch hs.symm.trans hs'), nofun, nofun, fun _ _ => .inr (.inr (.inr ⟨_, _, rfl, he, rfl⟩))⟩
  | endDiscards hs ht =>
    subst ht
    exact ⟨fun hs' => (nomatch hs.symm.trans hs'), nofun, nofun, fun _ _ => .inr (.inr (.inl ⟨rfl, rfl⟩))⟩

end Sys2Proof.Machine
end

section
/-! Trees in node memory: the pending slots of a tree being loaded (spec/41_tree_load.md R117, R123), and the READY tree
as a full binary tree with one path to each node (R119 to R124). -/

namespace Sys2Proof.Machine

/-- Settles O26: by R123 for an incomplete tree, and with no node there is no slot. -/
theorem pendingSlotsCountTheMissingNodes : Obligations.PendingSlotsCountTheMissingNodes := by
  intro s h ht
  rcases loading_cases h ht with hno | ⟨p, hp⟩
  · have hn : s.ncnt.toNat = 0 := congrArg BitVec.toNat hno.ncnt
    have hlen : s.slots.length = 0 := congrArg List.length hno.slots
    exact ⟨fun h1 => by omega, fun _ => hno.slots, by omega, by omega⟩
  · have hn := hp.counts.ncnt
    have hleaf := hp.counts.nleaf
    have hsmall : partialSize p ≤ 511 := hp.small
    have hpos := partialSize_pos p
    have hcount := partialSlots_length 0 p
    have hpending := List.length_pos_iff.2 (partialSlots_ne_nil 0 p)
    rw [← hp.slots] at hcount hpending
    exact ⟨fun _ => ⟨by omega, hpending⟩, fun h0 => by omega, by omega, by omega⟩

/-! ### The READY tree -/

section
variable {s : State} {T : Tree}

/-- Every specified entry of NODE is one of the tree's. -/
theorem HoldsTree.lt_of_read (h : Inv s) (hT : HoldsTree s T) {i : Nat} {e : Node}
    (he : storeRead s.nodes i = some e) : i < 0 + treeSize T := by
  have := h.lt_of_read he
  have := hT.counts.ncnt
  omega

/-- An internal node's children (R122). -/
theorem HoldsTree.children (h : Inv s) (hT : HoldsTree s T) {i : NodeIdx} {e : Node}
    (he : storeRead s.nodes i.toNat = some e) (ht : e.tag = .internal) :
    ∃ (r : NodeIdx) (n : Nat), e.left = some (i + 1) ∧ e.right = some r ∧ SubtreeSize s (i + 1) n ∧
      r.toNat = i.toNat + 1 + n ∧ r.toNat < s.ncnt.toNat := by
  have hle := hT.size_le
  have hn := hT.counts.ncnt
  obtain ⟨l, hl, hleft, hright, hlt⟩ := internal_children hT.holds (Nat.zero_le _) (hT.lt_of_read h he) he ht
  have hnext : BitVec.ofNat 9 (i.toNat + 1) = i + 1 := by
    rw [BitVec.ofNat_add, BitVec.ofNat_toNat, BitVec.setWidth_eq]
    rfl
  have hr : (BitVec.ofNat 9 (i.toNat + 1 + treeSize l)).toNat = i.toNat + 1 + treeSize l := toNat_ofNat9 (by omega)
  exact ⟨_, treeSize l, hnext ▸ hleft, hright, hnext ▸ subtreeSize_of_holdsAt hl (by omega), hr, by omega⟩

/-- In a tree the side of a child is the one `childSide` finds: no node is the child of another on both sides. -/
theorem HoldsTree.childSide_eq (h : Inv s) (hT : HoldsTree s T) {i c : NodeIdx} {e : Node} {x : Bit}
    (he : storeRead s.nodes i.toNat = some e) (ht : e.tag = .internal)
    (hc : (if x then e.right else e.left) = some c) : childSide c e = some x := by
  obtain ⟨n, hpos, hleft, hright, hlt⟩ := internal_entry hT.holds (Nat.zero_le _) (hT.lt_of_read h he) he ht
  have hle := hT.size_le
  cases x with
  | false =>
    have hc : e.left = some c := hc
    simp [childSide, ht, hc]
  | true =>
    have hc : e.right = some c := hc
    have hne : e.left ≠ some c := by
      rw [← hc, hleft, hright, ne_eq, Option.some.injEq, ofNat9_inj (by omega) (by omega)]
      omega
    simp [childSide, ht, hc, hne]

/-- A node of a READY tree has one parent, on one side. -/
theorem HoldsTree.unique_parent (h : Inv s) (hT : HoldsTree s T) {c : NodeIdx} (h0 : 0 < c.toNat)
    (hc : c.toNat < s.ncnt.toNat) : ∃! p : NodeIdx × Bit, ∃ e, storeRead s.nodes p.1.toNat = some e ∧
      e.tag = .internal ∧ (if p.2 then e.right else e.left) = some c := by
  have hle := hT.size_le
  have hn := hT.counts.ncnt
  have hcc : BitVec.ofNat 9 c.toNat = c := by simp
  have hlt := parentIn_lt (t := T) (base := 0) h0 (by omega)
  refine ⟨(BitVec.ofNat 9 (parentIn T 0 c.toNat).1, (parentIn T 0 c.toNat).2), ?_, ?_⟩
  · obtain ⟨e, he, hside⟩ := childSide_parentIn hT.holds (by omega) h0 (by omega)
    rw [hcc] at hside
    exact ⟨e, by rw [toNat_ofNat9 (by omega)]; exact he, side_of_childSide hside⟩
  · rintro ⟨p, x⟩ ⟨e, he, ht, hch⟩
    have hside := hT.childSide_eq h he ht hch
    rw [← hcc] at hside
    obtain ⟨-, -, hp⟩ := parentIn_unique hT.holds (by omega) (Nat.zero_le _) (hT.lt_of_read h he) he (by omega) hside
    simp [hp]

/-- A leaf entry of NODE is a leaf of the tree, and its symbol one of the tree's. -/
theorem HoldsTree.mem_leaves (h : Inv s) (hT : HoldsTree s T) {i : Nat} {e : Node}
    (he : storeRead s.nodes i = some e) (ht : e.tag = .leaf) : (i, e.sym) ∈ leavesIn T 0 :=
  (mem_leavesIn_iff hT.holds (Nat.zero_le _) (hT.lt_of_read h he) he e.sym).2 ⟨ht, rfl⟩

theorem mem_symbols_of_leaf {k : Nat} {b : Byte} (hk : (k, b) ∈ leavesIn T 0) : b ∈ treeSymbols T :=
  leavesIn_symbols T 0 ▸ List.mem_map_of_mem (f := Prod.snd) hk

/-- A present symbol has one leaf (R124). -/
theorem HoldsTree.unique_leaf (h : Inv s) (hT : HoldsTree s T) {b : Byte} (hb : isPresent s b = true) :
    ∃! i : NodeIdx, ∃ e, storeRead s.nodes i.toNat = some e ∧ e.tag = .leaf ∧ e.sym = b := by
  have hle := hT.size_le
  have hn := hT.counts.ncnt
  obtain ⟨k, hk⟩ := exists_leafIn ((hT.counts.present b).1 hb) 0
  have hkr := (leavesIn_range hk).2
  simp only at hkr
  have hkk : (BitVec.ofNat 9 k).toNat = k := toNat_ofNat9 (by omega)
  refine ⟨BitVec.ofNat 9 k, ?_, ?_⟩
  · have he := h.read (i := BitVec.ofNat 9 k) (by omega)
    have hek : storeRead s.nodes k = some (nodeRead s (BitVec.ofNat 9 k)) := by rw [← he, hkk]
    exact ⟨_, he, (mem_leavesIn_iff hT.holds (Nat.zero_le _) hkr hek b).1 hk⟩
  · rintro i ⟨e, he, ht, rfl⟩
    have hik := leafIn_index_unique hT.counts.distinct (hT.mem_leaves h he ht) hk
    rw [← hik]
    simp

end

/-- Settles O47, from the tree that NODE holds: its size, each internal node's children, each child's parent, and the
leaf of each symbol. -/
theorem readyTreeIsAFullBinaryTree : Obligations.ReadyTreeIsAFullBinaryTree := by
  intro s h ht
  obtain ⟨T, hT⟩ := h.exists_tree ht
  have hn := hT.counts.ncnt
  have hle := hT.size_le
  have hpos := treeSize_pos T
  have hsize := treeSize_succ T
  have hleaf := hT.counts.nleaf
  have htree := h.tree
  rw [treeOk, ht] at htree
  obtain ⟨-, hslots, hlsym, -⟩ := htree
  exact ⟨hslots, hlsym, by omega, by omega, by omega, fun i e => hT.children h, fun c => hT.unique_parent h,
    fun b => hT.unique_leaf h, fun i e he htag =>
      (hT.counts.present _).2 (mem_symbols_of_leaf (hT.mem_leaves h he htag))⟩

/-- Settles O48: the way down to a node is its one path, and the code of a leaf's symbol is the way down to it. -/
theorem codeTableHoldsTheLeafPaths : Obligations.CodeTableHoldsTheLeafPaths := by
  intro s h ht henc i e he
  obtain ⟨T, hT⟩ := h.exists_tree ht
  have hlt : i.toNat < treeSize T := by simpa using hT.lt_of_read h he
  have hpath : IsPath s i (pathIn T 0 i.toNat) := by simpa using isPath_pathIn hT i.toNat hlt
  refine ⟨⟨_, hpath, fun q hq => (isPath_eq hT hq).2⟩, fun htag => ?_⟩
  have hmem := hT.mem_leaves h he htag
  have hsym := mem_symbols_of_leaf hmem
  have hcode := hT.code henc _ hsym
  have hlen := codeIn_length_lt hT.counts.distinct hsym
  have h256 := length_le_of_nodup hT.counts.distinct
  refine ⟨_, hcode, fun q hq => ?_⟩
  rw [codeIn_eq hT.counts.distinct hmem, ← (isPath_eq hT hq).2] at hlen ⊢
  exact code_of_path (by omega)

end Sys2Proof.Machine
end

section
/-! Sequences of command words (spec/30_encoding.md R85, R86, spec/20_memory.md R72): words of commands run as the
commands do. -/

namespace Sys2Proof.Machine

/-- The word of a command of the build decodes to the command: its OP selects the command's row of the opcode map, and
its ARG is one that the row's format takes (R81 to R85). -/
theorem decode_encode {enc : Bool} {i : Instr} (h : i.wf enc = true) : decode enc (encode i) = some i := by
  cases i with
  | nop | reset | clrErr | treeStart | treeEnd | decStart | decEnd => simp [encode, decode, decodeN]
  | readReg | treeByte | decChar => simp [encode, decode, decodeB]
  | decBit t => cases t <;> simp [encode, decode, decodeT]
  | encSym b =>
    have henc : enc = true := h
    simp [encode, decode, decodeB, henc]

/-- The word of a command of the build runs the command. -/
theorem performWord_encode {i : Instr} {s : State} (h : i.wf s.hasEncoder = true) :
    performWord (encode i) s = exec i s :=
  performWord_of_decode (decode_encode h)

/-- Running one word and then the rest. -/
theorem runWords_cons {w : CmdWord} {ws : List CmdWord} {s t : State} (h : performWord w s = .next t) :
    runWords (w :: ws) s = runWords ws t := by
  simp only [runWords, h]

/-- Settles O10, by induction on the commands; each keeps the build option, so the rest are still of the build. -/
theorem wordsOfCommandsRunAsTheCommands : Obligations.WordsOfCommandsRunAsTheCommands := by
  intro is s hwf
  induction is generalizing s with
  | nil => rfl
  | cons i is ih =>
    obtain ⟨hi, his⟩ := List.forall_mem_cons.1 hwf
    obtain ⟨t, ht, he⟩ := exec_effect i s
    rw [List.map_cons, runWords_cons ((performWord_encode hi).trans ht), runInstrs_cons ht]
    exact ih t (effect_hasEncoder he ▸ his)

end Sys2Proof.Machine
end

section
/-! Memory of a READY tree (spec/20_memory.md R65, R76): ENC_SYM answers from the CODE entry, and no command that leaves
the tree READY writes it. -/

namespace Sys2Proof.Machine

/-! ### The code ENC_SYM answers -/

/-- Packing the bits of a CODE entry into a wider vector: the entry's bits, and 0 from its length on (R65). -/
theorem getLsbD_packBits_codeBits {n : Nat} {c : Code} (hn : c.clen.toNat ≤ n) (k : Nat) :
    (packBits n (codeBits c)).getLsbD k = (decide (k < c.clen.toNat) && c.cbits.getLsbD k) := by
  rw [getLsbD_packBits]
  by_cases hk : k < c.clen.toNat
  · simp [codeBits, unpackBits, hk, Nat.lt_of_lt_of_le hk hn]
  · simp [codeBits, unpackBits, hk]

theorem codeRead_of_storeRead {s : State} {b : Byte} {c : Code} (h : storeRead s.code b.toNat = some c) :
    codeRead s b = c := by
  rw [codeRead, h, Option.getD_some]

/-- On a tree that is not degenerate the answered bits are those of the CODE entry (R140). -/
theorem encBits_of_storeRead {s : State} {b : Byte} {c : Code} (hn : s.ncnt ≠ 1)
    (h : storeRead s.code b.toNat = some c) : encBits b s = codeBits c := by
  rw [encBits, degen_eq_false hn, codeRead_of_storeRead h]
  rfl

/-- Answering and counting the bits of a CODE entry, by its CLEN (R140). -/
theorem emitCode_codeBits (c : Code) (s : State) : emitCode (codeBits c) s = answered
    { s with encSymcnt := s.encSymcnt + 1, encBitcnt := s.encBitcnt + c.clen.setWidth 32 }
    { status := .ok, clen := c.clen, cbits := packBits 256 (codeBits c) } := by
  have hlen : (codeBits c).length = c.clen.toNat := length_unpackBits _ _
  rw [emitCode, hlen, BitVec.ofNat_toNat, BitVec.setWidth_eq, BitVec.ofNat_toNat]
  rfl

/-- Settles O27: the answered bits are the CODE entry's, packed into CBITS. -/
theorem encSymAnswersTheCodeEntry : Obligations.EncSymAnswersTheCodeEntry := by
  intro s b c henc ht hp hn hc
  refine ⟨packBits 256 (codeBits c), getLsbD_packBits_codeBits (by omega), ?_⟩
  rw [exec_of_effect (.encodes henc ht hp), encBits_of_storeRead hn hc, emitCode_codeBits]

/-! ### What leaves a READY tree READY leaves it alone -/

/-- Only a status of class Discard touches the tree, and it leaves none (R243). -/
theorem sameTree_raise {e : Status} {s : State} (ht : (raise e s).tstate = .ready) :
    SameTree s (raise e s) ∧ (raise e s).lsym = s.lsym := by
  cases hc : effectClass e with
  | none =>
    rw [raise_none s hc]
    exact ⟨⟨rfl, rfl, rfl, rfl, rfl, rfl, rfl⟩, rfl⟩
  | discard =>
    rw [raise_discard s hc] at ht
    exact nomatch ht
  | halt =>
    rw [raise_halt s hc]
    exact ⟨⟨rfl, rfl, rfl, rfl, rfl, rfl, rfl⟩, rfl⟩

/-- A command on a READY tree: the loader's cases do not arise, RESET and TREE_START leave READY, and every other case
raises a status or touches only the session, the counters, ERR and the responses (R76). -/
theorem effect_sameTree_of_ready {i : Instr} {s t : State} (h : Effect i s t) (hs : s.tstate = .ready)
    (ht : t.tstate = .ready) : SameTree s t ∧ t.lsym = s.lsym := by
  cases h
  case reset | treeStart => exact nomatch ht
  case leafMarker | allocInternal | allocLeaf | completes => exact nomatch hs.symm.trans ‹s.tstate = .loading›
  case nop | clrErr | readReg | endReady | start | degenZero | walkLeaf | walkInternal | ends | encodes =>
    exact ⟨⟨rfl, rfl, rfl, rfl, rfl, rfl, rfl⟩, rfl⟩
  all_goals exact sameTree_raise ht

/-- Settles O49, from the cases of a command on a READY tree. -/
theorem readyTreeIsImmutable : Obligations.ReadyTreeIsImmutable := by
  intro s t i hs hx ht
  obtain ⟨⟨-, hnodes, hncnt, hnleaf, hslots, hpresent, hcode⟩, hlsym⟩ :=
    effect_sameTree_of_ready (effect_of_exec hx) hs ht
  exact ⟨hnodes, hncnt, hnleaf, hpresent, hcode, hslots, hlsym⟩

end Sys2Proof.Machine
end

section
/-! The encodings (spec/30_encoding.md R80 to R92): command words and commands name each other, which words are reserved,
and where the fields of a packed response stand. -/

namespace Sys2Proof.Machine

/-! ### Words and commands (R85 to R87) -/

/-- Settles O1: the round trip `decode_encode`. -/
theorem decodeOfEncodedCommand : Obligations.DecodeOfEncodedCommand :=
  fun _ _ h => decode_encode h

/-- Without the encoder the word of ENC_SYM is reserved (R87). -/
theorem decode_encode_encSym_of_noEncoder (b : Byte) : decode false (encode (.encSym b)) = none := by
  simp [encode, decode]

/-- A word decodes only to a command of the build (R87): the word of ENC_SYM does not decode without the encoder. -/
theorem wf_of_decode {enc : Bool} {w : CmdWord} {i : Instr} (h : decode enc w = some i) : i.wf enc = true := by
  have hw := encode_of_decode h
  cases i
  case encSym b =>
    cases enc
    · rw [← hw, decode_encode_encSym_of_noEncoder] at h
      cases h
    · rfl
  all_goals rfl

/-- Settles O2: the word is the command's by `encode_of_decode`, and the build has the command by `wf_of_decode`. -/
theorem decodeReadsOnlyTheWordOfTheCommand : Obligations.DecodeReadsOnlyTheWordOfTheCommand :=
  fun _ _ _ h => ⟨encode_of_decode h, wf_of_decode h⟩

/-- Settles O4, word by word. -/
theorem opcodeMapWordsDecode : Obligations.OpcodeMapWordsDecode := by
  unfold Obligations.OpcodeMapWordsDecode
  decide

/-! ### Reserved words (R92) -/

/-- The opcodes of the opcode map, for the build (R85, R87). -/
def assignedOpcodes (enc : Bool) : List Byte :=
  [0x00, 0x01, 0x02, 0x03, 0x10, 0x11, 0x12, 0x20, 0x21, 0x22, 0x23] ++ (if enc then [0x30] else [])

/-- The opcodes of format N (R81). -/
def formatNOpcodes : List Byte := [0x00, 0x01, 0x02, 0x10, 0x12, 0x20, 0x23]

theorem decodeN_eq_none_iff {i : Instr} {arg : Byte} : decodeN i arg = none ↔ arg ≠ 0x00 := by
  simp [decodeN]

/-- ARG[7:1] is 0 exactly below 2. -/
theorem argHigh_eq_zero_iff : ∀ arg : Byte, arg.extractLsb' 1 7 = 0 ↔ arg.toNat < 2 := by decide

theorem decodeT_eq_none_iff {f : Bit → Instr} {arg : Byte} : decodeT f arg = none ↔ 2 ≤ arg.toNat := by
  rw [← Nat.not_lt, ← argHigh_eq_zero_iff]
  simp [decodeT]

theorem decodeB_ne_none {f : Byte → Instr} {arg : Byte} : decodeB f arg ≠ none := nofun

/-- An opcode outside the opcode map is no arm of the decoder (R92). -/
theorem decode_mkWord_of_unassigned {enc : Bool} {op : Byte} (h : op ∉ assignedOpcodes enc) (arg : Byte) :
    decode enc (mkWord op arg) = none := by
  cases enc <;> simp_all [assignedOpcodes, decode]

/-- An assigned opcode, arm by arm: only formats N and T restrict ARG (R81 to R84). -/
theorem decode_mkWord_eq_none_iff_of_assigned {enc : Bool} {op arg : Byte} (h : op ∈ assignedOpcodes enc) :
    decode enc (mkWord op arg) = none ↔ (op ∈ formatNOpcodes ∧ arg ≠ 0x00) ∨ (op = 0x21 ∧ 2 ≤ arg.toNat) := by
  rcases List.mem_append.1 h with h | h
  · simp only [List.mem_cons, List.not_mem_nil, or_false] at h
    rcases h with rfl | rfl | rfl | rfl | rfl | rfl | rfl | rfl | rfl | rfl | rfl <;>
      simp [decode, formatNOpcodes, decodeN_eq_none_iff, decodeT_eq_none_iff, decodeB_ne_none]
  · cases enc
    · cases h
    · obtain rfl := List.mem_singleton.1 h
      simp [decode, formatNOpcodes, decodeB_ne_none]

/-- The bytes outside a list without repetitions are the other ones of the 256. -/
theorem length_filter_not_mem {l : List Byte} (hl : l.Nodup) :
    ((List.range 256).filter fun n => BitVec.ofNat 8 n ∉ l).length = 256 - l.length := by
  have hmem : ((List.range 256).filter fun n => BitVec.ofNat 8 n ∈ l).Perm (l.map BitVec.toNat) := by
    refine (List.perm_ext_iff_of_nodup (List.nodup_range.filter _) (hl.map fun _ _ => BitVec.eq_of_toNat_eq)).2 ?_
    intro n
    simp only [List.mem_filter, List.mem_range, decide_eq_true_eq, List.mem_map]
    constructor
    · exact fun ⟨hn, hb⟩ => ⟨_, hb, (BitVec.toNat_ofNat n 8).trans (Nat.mod_eq_of_lt hn)⟩
    · rintro ⟨b, hb, rfl⟩
      exact ⟨b.isLt, by rwa [BitVec.ofNat_toNat, BitVec.setWidth_eq]⟩
  have hlen := hmem.length_eq
  have hsplit := List.length_eq_length_filter_add (l := List.range 256) fun n => decide (BitVec.ofNat 8 n ∈ l)
  simp only [List.length_map, List.length_range, ← decide_not] at hlen hsplit
  omega

theorem nodup_assignedOpcodes (enc : Bool) : (assignedOpcodes enc).Nodup := by
  cases enc <;> decide

/-- Settles O3, by whether the opcode is assigned; the unassigned opcodes are counted. -/
theorem undecodableWordsAreTheReservedOnes : Obligations.UndecodableWordsAreTheReservedOnes := by
  refine ⟨fun enc op arg => ?_, fun enc => ?_⟩
  · by_cases h : op ∈ assignedOpcodes enc
    · exact (decode_mkWord_eq_none_iff_of_assigned h).trans (or_iff_right (not_not_intro h)).symm
    · exact iff_of_true (decode_mkWord_of_unassigned h arg) (.inl h)
  · refine (length_filter_not_mem (nodup_assignedOpcodes enc)).trans ?_
    cases enc <;> rfl

/-! ### The packed response (R90) -/

/-- A field above `m` bits, below whatever stands above it. -/
theorem extractLsb'_append_field {n k m : Nat} (x : BitVec n) (f : BitVec k) (y : BitVec m) :
    (x ++ f ++ y).extractLsb' m k = f :=
  (extractLsb'_append_above _ y 0 k).trans (extract_append_low x f)

theorem getLsbD_append_ofBool {n : Nat} (x : BitVec n) (b : Bool) : (x ++ BitVec.ofBool b).getLsbD 0 = b := by
  rw [BitVec.getLsbD_append, if_pos Nat.one_pos]
  cases b <;> rfl

/-- Settles O5: each field stands above the fields below it, whose widths add up to its place. -/
theorem packedResponseLayout : Obligations.PackedResponseLayout := by
  intro r
  have above9 (k l : Nat) : (packResponse r).extractLsb' (8 + (1 + k)) l =
      (r.cbits ++ r.data ++ r.clen ++ r.sym ++ 0#7).extractLsb' k l :=
    (extractLsb'_append_above _ _ (1 + k) l).trans (extractLsb'_append_above _ _ k l)
  refine ⟨extract_append_low _ _, ?_, ?_, ?_, ?_, ?_, fun k hk => ?_⟩
  · exact (getLsbD_append_above _ _ 0).trans (getLsbD_append_ofBool _ _)
  · exact (above9 0 7).trans (extract_append_low _ _)
  · exact (above9 7 8).trans (extractLsb'_append_field _ _ _)
  · exact (above9 15 8).trans <| (extractLsb'_append_above _ _ 8 8).trans (extractLsb'_append_field _ _ _)
  · exact (above9 23 32).trans <| (extractLsb'_append_above _ _ 16 32).trans <|
      (extractLsb'_append_above _ _ 8 32).trans (extractLsb'_append_field _ _ _)
  · rw [show 64 + k = 8 + (1 + (7 + (8 + (8 + (32 + k))))) by omega, packResponse]
    simp only [getLsbD_append_above]

/-! ### Words and commands that change only ERR -/

/-- Settles O7: ILLEGAL_COMMAND is of class None. -/
theorem illegalWordChangesOnlyErr : Obligations.IllegalWordChangesOnlyErr := by
  intro s w rest hin hd
  rw [step_of_command hin, performWord_of_undecodable (s := { s with inputs := rest }) hd, raise_none _ rfl]

/-- Settles O29: the three refusing cases of ENC_SYM, each of class None. -/
theorem encSymErrorsInOrder : Obligations.EncSymErrorsInOrder := by
  refine fun s b => ⟨fun he => exec_encSym_of_noEncoder he b, fun he ht => ?_, fun he ht hp => ?_⟩
  · rw [exec_of_effect (.encNoTree he ht), raise_none s rfl]
  · rw [exec_of_effect (.unknownSymbol he ht hp), raise_none s rfl]

end Sys2Proof.Machine
end

section
/-! The tree loader (spec/41_tree_load.md R110 to R121): what TREE_START, TREE_BYTE and TREE_END answer and change, and
which streams of bytes make a tree READY. -/

namespace Sys2Proof.Machine

/-! ### Streams (R121) -/

/-- The states after a stream: READY only with a tree whose serialization the stream is. -/
theorem After.exists_tree {s : State} {bs : List Byte} (h : After s bs) (hready : s.tstate = .ready) :
    ∃ T, HoldsTree s T ∧ serialize T = bs := by
  cases h with
  | marker h _ => exact nomatch h.tstate.symm.trans hready
  | symbol s0 h hs _ => subst hs; exact nomatch h.tstate.symm.trans hready
  | ready _ _ hT hb => exact ⟨_, hT, hb.symm⟩

/-- After TREE_START and bytes all answered `ok`, those bytes are loaded, from every state but for ERR. -/
theorem after_load {s t : State} {bytes : List Byte}
    (hrun : runInstrs (.treeStart :: bytes.map .treeByte) s = .next t)
    (hok : ∀ r ∈ newResponses s t, r.status = .ok) : After (withErr 0x00 0x00 t) bytes := by
  obtain ⟨u, hu, hloads, -, -⟩ := loads_treeStart s
  rw [runInstrs_cons hu] at hrun
  obtain ⟨r, -, hnew⟩ := newResponses_cons hu hrun
  have htail : ∀ r ∈ newResponses u t, r.status = .ok := fun r' hr' => hok r' (hnew ▸ List.mem_cons_of_mem r hr')
  have hbytes : ∀ i ∈ bytes.map Instr.treeByte, NoErrCommand i := by
    intro i hi
    obtain ⟨b, -, rfl⟩ := List.mem_map.1 hi
    exact ⟨nofun, nofun, nofun⟩
  have hrun0 := run_withErr hbytes 0x00 0x00 hrun htail
  exact after_bytes (.marker (o := none) hloads rfl) hrun0 htail

/-- Settles O54: READY holds a tree whose serialization was fed, by what every `ok` byte loads; and feeding a
serialization makes READY, because the run is the one that `load_tree` gives. -/
theorem readyExactlyAtASerialization : Obligations.ReadyExactlyAtASerialization := by
  intro s t bytes hrun hok
  have hload : ∀ T, DistinctLeaves T → serialize T = bytes → t.tstate = .ready ∧ HoldsTree t T := by
    rintro T hd rfl
    obtain ⟨u, hu, -, hready, hT, -⟩ := load_tree s hd
    cases hu.symm.trans hrun
    exact ⟨hready, hT⟩
  refine ⟨⟨fun hready => ?_, fun ⟨T, hd, hb⟩ => (hload T hd hb).1⟩, fun T hd hb => (hload T hd hb).2⟩
  obtain ⟨T, hT, hb⟩ := (after_load hrun hok).exists_tree hready
  exact ⟨T, hT.counts.distinct, hb⟩

/-! ### Errors (R111, R114, R120) -/

/-- A command that raises a status of class None answers it and changes only ERR. -/
theorem exec_of_raise_none {i : Instr} {s : State} {e : Status} (h : Effect i s (raise e s))
    (he : effectClass e = .none) : exec i s = .next (reported e s) :=
  raise_none s he ▸ exec_of_effect h

/-- A command that raises a status of class Discard clears the tree and closes the session. -/
theorem exec_of_raise_discard {i : Instr} {s : State} {e : Status} (h : Effect i s (raise e s))
    (he : effectClass e = .discard) : ∃ t, exec i s = .next t ∧ t = reported e (discardedInto s t) := by
  rw [raise_discard s he] at h
  exact ⟨_, exec_of_effect h, rfl⟩

/-- Settles O21: each of the three errors is a case of TREE_BYTE, of class Discard. -/
theorem loaderErrorsRunDiscard : Obligations.LoaderErrorsRunDiscard := by
  intro s b ht
  refine ⟨fun hl h0 h1 => ?_, fun hl hp => ?_, fun hn hb => ?_⟩
  · exact exec_of_raise_discard (.badMarker ht hl h0 h1) rfl
  · exact exec_of_raise_discard (.dupSymbol ht hl hp) rfl
  · exact exec_of_raise_discard (.overflow ht hb hn) rfl

/-- Settles O19: BAD_STATE is of class None. -/
theorem treeByteOutsideLoadingIsBadState : Obligations.TreeByteOutsideLoadingIsBadState :=
  fun _ _ ht => exec_of_raise_none (.byteOutside ht) rfl

/-- Settles O25: TREE_END has one case for each TSTATE. -/
theorem treeEndByTreeState : Obligations.TreeEndByTreeState := by
  refine fun s => ⟨fun ht => ?_, fun ht => ?_, fun ht => ?_⟩
  · exact exec_of_raise_none (.endEmpty ht) rfl
  · exact exec_of_raise_discard (.endLoading ht) rfl
  · exact exec_of_effect (.endReady ht)

/-! ### TREE_START and the leaf marker (R110, R112) -/

/-- Settles O18: TREE_START has one case, whatever the state. -/
theorem treeStartClearsTreeSessionAndCounters : Obligations.TreeStartClearsTreeSessionAndCounters :=
  fun s => ⟨_, exec_of_effect (.treeStart s), rfl⟩

/-- Settles O20: in marker position 0x31 is the leaf marker. -/
theorem leafMarkerSetsLsym : Obligations.LeafMarkerSetsLsym :=
  fun _ ht hl => exec_of_effect (.leafMarker ht hl)

/-! ### Allocations (R113, R115, R118) -/

/-- Settles O22: an internal node always leaves slots pending, so the allocation is the whole effect. -/
theorem internalMarkerAllocatesAnInternalNode : Obligations.InternalMarkerAllocatesAnInternalNode := by
  intro s h ht hl hn
  refine ⟨_, exec_of_effect (.allocInternal ht hl hn), ?_, nodeAllocated h ht hn .internal 0x00⟩
  rw [allocNode_eq h ht .internal]
  rfl

/-- Settles O23: with a second slot pending SLOTS is not empty after the pop, so the tree is not complete yet. -/
theorem symbolByteAllocatesALeaf : Obligations.SymbolByteAllocatesALeaf := by
  intro s b h ht hl hp hn hlen
  obtain ⟨hnodes, hpresent, hslots⟩ := allocLeaf_spec (b := b) h ht hn
  have hpending : s.slots.tail ≠ [] := by
    rw [← List.length_pos_iff, List.length_tail]
    omega
  refine ⟨_, exec_of_effect (.allocLeaf ht hl hp hn (hslots ▸ hpending)), ?_, hpresent, hnodes⟩
  rw [allocNode_eq (inv_setLsym h ht false) ht .leaf b]
  rfl

/-- Settles O24: with at most one slot pending the pop empties SLOTS, so Complete runs; the READY state it leaves meets
the invariant, and there CODE holds the paths (`codeTableHoldsTheLeafPaths`). -/
theorem lastLeafCompletesTheTree : Obligations.LastLeafCompletesTheTree := by
  intro s b h ht hl hp hn hlen
  obtain ⟨hnodes, hpresent, hslots⟩ := allocLeaf_spec (b := b) h ht hn
  have hnone : s.slots.tail = [] := by
    rw [← List.length_eq_zero_iff, List.length_tail]
    omega
  have heff := Effect.completes ht hl hp hn (hslots.trans hnone)
  refine ⟨_, exec_of_effect heff, ?_, hpresent, hnodes, fun henc i e he htag => ?_⟩
  · rw [allocNode_eq (inv_setLsym h ht false) ht .leaf b, hnone]
    rfl
  · obtain ⟨⟨q, hq, -⟩, hcode⟩ := codeTableHoldsTheLeafPaths _ (inv_effect h heff) rfl henc i e he
    obtain ⟨c, hc, hbits⟩ := hcode htag
    exact ⟨q, c, hq, hc, hbits q hq⟩

end Sys2Proof.Machine
end

section
/-! The encoder (spec/42_encode.md R140 to R148): the codes that ENC_SYM answers have 1 to 255 bits, none begins the code of
another symbol, each decodes to its symbol, and the decoder's state has no part in them. -/

namespace Sys2Proof.Machine

/-! ### The codes of a READY tree (R145 to R148) -/

/-- Settles O32: both responses are codes of the one tree that NODE holds, and there no code begins the code of another
symbol. -/
theorem codesArePrefixFree : Obligations.CodesArePrefixFree := by
  intro s ta tb a b ra rb h hab hxa hra hoka hxb hrb hokb
  obtain ⟨T, -, -, hT, ha, -, -, -, hbitsa⟩ := encSym_ok h hxa hra hoka
  obtain ⟨T', -, -, hT', hb, -, -, -, hbitsb⟩ := encSym_ok h hxb hrb hokb
  obtain rfl := holdsAt_unique hT.holds hT'.holds
  have hfree : ¬ responseBits ra <+: responseBits rb := by
    rw [hbitsa, hbitsb]
    exact payloadCode_not_prefix hT.counts.distinct ha hb hab
  exact ⟨hfree, fun heq => hfree (heq ▸ List.prefix_rfl)⟩

/-- Settles O55: ENC_SYM keeps the tree and the session, so the code it answers is decoded on the same tree from the
root. -/
theorem decodingACodeEmitsItsSymbol : Obligations.DecodingACodeEmitsItsSymbol := by
  intro s u b r h ht hd hc hx hr hok
  obtain ⟨T, -, -, hT, hb, hu, -, -, hbits⟩ := encSym_ok h hx hr hok
  have hready : u.tstate = .ready := by rw [hu, emitCode_tstate, ht]
  have hrun : u.dstate = .run := by rw [hu, emitCode_dstate, hd]
  have hroot : u.cur = 0 := by rw [hu, emitCode_cur, hc]
  have hTu : HoldsTree u T := (effect_sameTree_of_ready (effect_of_exec hx) ht hready).1.holdsTree hT
  obtain ⟨t, hrunBits, hwalked, hcur, -, hrsps⟩ := decode_code hready hrun hroot hTu hb
  rw [hbits]
  exact ⟨t, hrunBits, hwalked.dstate, hcur, hrsps.trans (List.append_assoc ..).symm⟩

/-- Settles O31: CLEN is the length of a code, and CBITS the code packed. -/
theorem codeLengthsAreOneTo255 : Obligations.CodeLengthsAreOneTo255 := by
  intro s t b r h hx hr hok
  obtain ⟨T, -, -, hT, hb, -, hclen, hcbits, -⟩ := encSym_ok h hx hr hok
  obtain ⟨hmin, hmax⟩ := payloadCode_length hT.counts.distinct hb
  rw [hclen]
  refine ⟨hmin, hmax, fun k hk => ?_⟩
  rw [hcbits, getLsbD_packBits, List.getD_eq_default _ _ hk, Bool.and_false]

/-! ### The cases of ENC_SYM (R140, R142 to R144) -/

/-- What ENC_SYM can do, by the conditions in their order: three errors of class None, or a code. -/
theorem encSym_cases {s t : State} {b : Byte} (h : exec (.encSym b) s = .next t) :
    (s.hasEncoder = false ∧ t = reported .illegalCommand s) ∨
    (s.hasEncoder = true ∧ s.tstate ≠ .ready ∧ t = reported .noTree s) ∨
    (s.hasEncoder = true ∧ s.tstate = .ready ∧ isPresent s b = false ∧ t = reported .unknownSymbol s) ∨
    (s.hasEncoder = true ∧ s.tstate = .ready ∧ isPresent s b = true ∧ t = emitCode (encBits b s) s) := by
  obtain ⟨hillegal, hnoTree, hunknown⟩ := encSymErrorsInOrder s b
  cases he : s.hasEncoder with
  | false =>
    cases h.symm.trans (hillegal he)
    exact .inl ⟨rfl, rfl⟩
  | true =>
    by_cases ht : s.tstate = .ready
    · cases hp : isPresent s b with
      | false =>
        cases h.symm.trans (hunknown he ht hp)
        exact .inr (.inr (.inl ⟨rfl, ht, rfl, rfl⟩))
      | true =>
        cases h.symm.trans (exec_of_effect (.encodes he ht hp))
        exact .inr (.inr (.inr ⟨rfl, ht, rfl, rfl⟩))
    · cases h.symm.trans (hnoTree he ht)
      exact .inr (.inl ⟨rfl, ht, rfl⟩)

/-- Settles O30: neither the condition of a case of ENC_SYM nor its effect names an element of the decoder. -/
theorem encSymIgnoresTheDecoder : Obligations.EncSymIgnoresTheDecoder := by
  intro s t b d c x y hx
  obtain ⟨hillegal, hnoTree, hunknown⟩ :=
    encSymErrorsInOrder { s with dstate := d, cur := c, decBitcnt := x, decSymcnt := y } b
  rcases encSym_cases hx with ⟨he, rfl⟩ | ⟨he, ht, rfl⟩ | ⟨he, ht, hp, rfl⟩ | ⟨he, ht, hp, rfl⟩
  · exact ⟨hillegal he, rfl, rfl, rfl, rfl⟩
  · exact ⟨hnoTree he ht, rfl, rfl, rfl, rfl⟩
  · exact ⟨hunknown he ht hp, rfl, rfl, rfl, rfl⟩
  · exact ⟨exec_of_effect (.encodes he ht hp), rfl, rfl, rfl, rfl⟩

/-- On the single-leaf tree the answered bits are the one bit 0, whatever the CODE entry (R142). -/
theorem encBits_of_degen {s : State} (hg : degen s = true) (b : Byte) : encBits b s = [false] := if_pos hg

/-- Settles O28: one bit is answered and counted, and packed it is 0. -/
theorem encSymOnTheSingleLeafTree : Obligations.EncSymOnTheSingleLeafTree := by
  intro s b he ht hp hn
  rw [exec_of_effect (.encodes he ht hp), encBits_of_degen (degen_iff.2 ⟨ht, hn⟩)]
  rfl

end Sys2Proof.Machine
end

section
/-! The decoder (spec/43_decode.md R160 to R171): what DEC_START, DEC_BIT, DEC_CHAR and DEC_END answer and change, and
what any sequence of bits decodes to. -/

namespace Sys2Proof.Machine

/-! ### The state checks (R160, R244) -/

/-- Settles O33: DEC_START has two cases, by whether a tree is READY. -/
theorem decStartOpensASession : Obligations.DecStartOpensASession :=
  fun _ => ⟨fun ht => exec_of_effect (.start ht), fun ht => exec_of_raise_none (.startNoTree ht) rfl⟩

/-- Settles O34: the three state checks are cases of every command that needs a session, and all are of class None. -/
theorem decoderStateChecksComeFirst : Obligations.DecoderStateChecksComeFirst := by
  refine fun s i hi => ⟨fun ht => ?_, fun ht hd => ?_, fun ht hd => ?_⟩
  · exact exec_of_raise_none (.noTree hi ht) rfl
  · exact exec_of_raise_none (.halted hi ht hd) rfl
  · exact exec_of_raise_none (.idle hi ht hd) rfl

/-- A command that raises a status of class Halt answers it and halts the session. -/
theorem exec_of_raise_halt {i : Instr} {s : State} {e : Status} (h : Effect i s (raise e s))
    (he : effectClass e = .halt) : exec i s = .next (reported e { s with dstate := .halted }) :=
  raise_halt s he ▸ exec_of_effect h

/-! ### Bits and characters (R164, R171) -/

/-- The character of a bit feeds that bit. -/
theorem feeds_decChar (t : Bit) : Feeds (.decChar (if t then 0x31 else 0x30)) t :=
  .inr ⟨_, rfl, payloadBit_iff.2 rfl⟩

/-- A bit is fed by DEC_BIT, or by DEC_CHAR of its character. -/
theorem feeds_of_bit_or_char {i : Instr} {t : Bit} (hi : i = .decBit t ∨ i = .decChar (if t then 0x31 else 0x30)) :
    Feeds i t := by
  rcases hi with rfl | rfl
  · exact .inl rfl
  · exact feeds_decChar t

/-- DEC_CHAR of a payload bit's character is DEC_BIT of that bit, in every state. -/
theorem exec_decChar_of_payloadBit {c : Byte} {t : Bit} (hc : payloadBit c = some t) (s : State) :
    exec (.decChar c) s = exec (.decBit t) s := by
  have hact : payloadChar c = decodeBit t := by
    funext u
    simp only [payloadChar, hc]
  simp only [exec, execDecChar, execDecBit, hact]

/-- Settles O37: the characters of the two payload bits decode as the bits, and any other one is INVALID_BIT. -/
theorem decCharIsDecBitOrInvalid : Obligations.DecCharIsDecBitOrInvalid := by
  refine ⟨fun s => ⟨exec_decChar_of_payloadBit rfl s, exec_decChar_of_payloadBit rfl s⟩, fun s c ht hd h0 h1 => ?_⟩
  have hc : payloadBit c = none := by rw [payloadBit, if_neg h0, if_neg h1]
  exact exec_of_raise_halt (.invalidBit hc ht hd) rfl

/-! ### One bit (R161, R162) -/

/-- A specified entry is what NodeRead gives. -/
theorem nodeRead_of_storeRead {s : State} {i : NodeIdx} {e : Node} (he : storeRead s.nodes i.toNat = some e) :
    nodeRead s i = e := by
  rw [nodeRead, he, Option.getD_some]

/-- A specified child field is the child that a bit moves to. -/
theorem nodeChild_of_storeRead {s : State} {i c : NodeIdx} {e : Node} {t : Bit}
    (he : storeRead s.nodes i.toNat = some e) (hc : (if t then e.right else e.left) = some c) :
    nodeChild s i t = c := by
  simp only [nodeChild, nodeRead_of_storeRead he, hc, Option.getD_some]

section
variable {s : State} {t : Bit} {i : Instr} {e f : Node} {nxt : NodeIdx}

/-- A bit that leads to a leaf emits its symbol, and CUR is the root again (R161). -/
theorem exec_bit_to_leaf (hi : Feeds i t) (ht : s.tstate = .ready) (hd : s.dstate = .run) (hn : s.ncnt ≠ 1)
    (he : storeRead s.nodes s.cur.toNat = some e) (hc : (if t then e.right else e.left) = some nxt)
    (hf : storeRead s.nodes nxt.toNat = some f) (hleaf : f.tag = .leaf) :
    exec i s = .next (answered { s with cur := 0, decBitcnt := s.decBitcnt + 1, decSymcnt := s.decSymcnt + 1 }
      { status := .ok, sv := true, sym := f.sym }) := by
  have hnode : nodeRead s (nodeChild s s.cur t) = f := by
    rw [nodeChild_of_storeRead he hc, nodeRead_of_storeRead hf]
  have hx := exec_of_effect (.walkLeaf hi ht hd (degen_eq_false hn) (hnode.symm ▸ hleaf))
  rwa [hnode] at hx

/-- A bit that leads to an internal node moves CUR there (R161). -/
theorem exec_bit_to_internal (hi : Feeds i t) (ht : s.tstate = .ready) (hd : s.dstate = .run) (hn : s.ncnt ≠ 1)
    (he : storeRead s.nodes s.cur.toNat = some e) (hc : (if t then e.right else e.left) = some nxt)
    (hf : storeRead s.nodes nxt.toNat = some f) (hint : f.tag = .internal) :
    exec i s = .next (answered { s with cur := nxt, decBitcnt := s.decBitcnt + 1 } { status := .ok }) := by
  have hchild := nodeChild_of_storeRead he hc
  have htag : (nodeRead s (nodeChild s s.cur t)).tag = .internal := by
    rw [hchild, nodeRead_of_storeRead hf, hint]
  have hx := exec_of_effect (.walkInternal hi ht hd (degen_eq_false hn) htag)
  rwa [hchild] at hx

end

/-- Settles O35, by what the bit leads to. -/
theorem bitsWalkTheTree : Obligations.BitsWalkTheTree := by
  intro s t i e f nxt ht hd hn hi he hc hf
  have hfeeds := feeds_of_bit_or_char hi
  cases htag : f.tag with
  | leaf => exact exec_bit_to_leaf hfeeds ht hd hn he hc hf htag
  | internal => exact exec_bit_to_internal hfeeds ht hd hn he hc hf htag

/-- Settles O36: the degenerate tree has one case for each bit. -/
theorem bitsOnTheSingleLeafTree : Obligations.BitsOnTheSingleLeafTree := by
  intro s e ht hd hn he
  have hg := degen_iff.2 ⟨ht, hn⟩
  have hroot : nodeRead s 0 = e := nodeRead_of_storeRead he
  refine ⟨fun i hi => ?_, fun i hi => ?_⟩
  · have hx := exec_of_effect (.degenZero (feeds_of_bit_or_char (t := false) hi) ht hd hg)
    rwa [hroot] at hx
  · exact exec_of_raise_halt (.degenOne (feeds_of_bit_or_char (t := true) hi) ht hd hg) rfl

/-- Settles O39: CUR's children are nodes of the tree, so the bit leads to one of them, whatever its TAG. -/
theorem noWalkLeavesTheTree : Obligations.NoWalkLeavesTheTree := by
  intro s t h ht hd hn
  obtain ⟨hlt, htag, hclt, hcpos, hc⟩ := walk_child h ht hd (degen_eq_false hn) t
  have he := h.read hlt
  have hf := h.read hclt
  refine ⟨⟨_, _, _, he, htag, hc, hclt, hcpos, hf⟩, ?_⟩
  cases hnext : (nodeRead s (nodeChild s s.cur t)).tag with
  | leaf => exact ⟨_, _, exec_bit_to_leaf (.inl rfl) ht hd hn he hc hf hnext, rfl, rfl⟩
  | internal => exact ⟨_, _, exec_bit_to_internal (.inl rfl) ht hd hn he hc hf hnext, rfl, rfl⟩

/-! ### The end of a session (R165, R167) -/

/-- Settles O38: DEC_END has two cases in a running session, by whether CUR is the root. -/
theorem decEndClosesOrReportsATruncatedCode : Obligations.DecEndClosesOrReportsATruncatedCode :=
  fun _ ht hd => ⟨fun hc => exec_of_effect (.ends ht hd hc), fun hc => exec_of_raise_halt (.truncated ht hd hc) rfl⟩

/-- Settles O40, by the cases that a HALTED session on a READY tree leaves: answers, and statuses of class None. -/
theorem onlyRestartsLeaveHalted : Obligations.OnlyRestartsLeaveHalted := by
  intro s t i ht hd hx hstart htree hreset
  cases effect_of_exec hx with
  | nop | clrErr | readReg | badRegister | byteOutside | endReady | halted | noEncoder | unknownSymbol | encodes =>
    exact ⟨hd, rfl, rfl, rfl⟩
  | reset => exact absurd rfl hreset
  | treeStart => exact absurd rfl htree
  | start => exact absurd rfl hstart
  | startNoTree hne | noTree _ hne | encNoTree _ hne => exact absurd ht hne
  | leafMarker hl | badMarker hl | dupSymbol hl | overflow hl | allocInternal hl | allocLeaf hl | completes hl
      | endEmpty hl | endLoading hl =>
    exact nomatch ht.symm.trans hl
  | idle _ _ hr | degenZero _ _ hr | degenOne _ _ hr | walkLeaf _ _ hr | walkInternal _ _ hr | invalidBit _ _ hr
      | truncated _ hr | ends _ hr =>
    exact nomatch hd.symm.trans hr

/-! ### Sequences of bits (R169) -/

/-- A session just opened by DEC_START, with its answer (R160). -/
abbrev newSession (s : State) : State :=
  answered { s with dstate := .run, cur := 0, decBitcnt := 0, decSymcnt := 0 } { status := .ok }

theorem sameTree_newSession (s : State) : SameTree s (newSession s) := ⟨rfl, rfl, rfl, rfl, rfl, rfl, rfl⟩

/-- Settles O56: DEC_START opens the session at the root, the codes lead back there, and DEC_END answers the count. -/
theorem payloadDecodesToItsSymbols : Obligations.PayloadDecodesToItsSymbols := by
  intro s T x h ht hT hx
  have hopen : exec .decStart s = .next (newSession s) := (decStartOpensASession s).1 ht
  obtain ⟨u, hrun, hwalked, hroot, hcount, hrsps⟩ :=
    decode_codes (s := newSession s) x ht rfl rfl ((sameTree_newSession s).holdsTree hT) hx
  have hdata : u.decSymcnt = BitVec.ofNat 32 x.length := hcount.trans (BitVec.zero_add _)
  have hclose := (decEndClosesOrReportsATruncatedCode u hwalked.tstate hwalked.dstate).1 hroot
  refine ⟨answered { u with dstate := .idle } { status := .ok, data := u.decSymcnt }, ?_, rfl, ?_⟩
  · rw [decodeBitsCmds, runInstrs_cons hopen, runInstrs_append hrun, runInstrs_cons hclose]
    rfl
  · rw [← hdata]
    exact congrArg (· ++ _) hrsps

/-- What moves CUR, counts and answers is a stretch of walking (R161). -/
theorem walked_of_position {s : State} {c : NodeIdx} {x y : Word32} {rs : List Response} (ht : s.tstate = .ready)
    (hd : s.dstate = .run) : Walked s { s with cur := c, decBitcnt := x, decSymcnt := y, rsps := rs } :=
  ⟨⟨rfl, rfl, rfl, rfl, rfl, rfl, rfl⟩, ht, hd⟩

/-- From `s` the bits lead to `t`, all answered `ok` by the responses `rs`; the bits are the codes of the symbols
emitted and the path `q` to CUR (R169). -/
structure DecodedBits (s : State) (T : Tree) (bits : List Bit) (t : State) (rs : List Response) (q : List Bit) :
    Prop where
  run : runInstrs (bits.map .decBit) s = .next t
  inv : Inv t
  walked : Walked s t
  rsps : t.rsps = s.rsps ++ rs
  ok : ∀ r ∈ rs, r.status = .ok
  path : IsPath s t.cur q
  bits_eq : bits = (emitted rs).flatMap (codeIn T) ++ q

/-- A child's path is its parent's and the side (R119). -/
theorem IsPath.child {s : State} {p c : NodeIdx} {q : List Bit} {e : Node} {x : Bit} (hq : IsPath s p q)
    (hp : p.toNat < s.ncnt.toNat) (he : storeRead s.nodes p.toNat = some e) (ht : e.tag = .internal)
    (hpos : 0 < c.toNat) (hc : (if x then e.right else e.left) = some c) : IsPath s c (q ++ [x]) := by
  have hne : c ≠ 0 := by
    rintro rfl
    exact absurd hpos (by decide)
  cases x with
  | false => exact .left hp he ht hne hc hq
  | true => exact .right hp he ht hne hc hq

/-- The root is the one node with the empty path. -/
theorem HoldsTree.path_eq_nil_iff {s : State} {T : Tree} (hT : HoldsTree s T) {i : NodeIdx} {q : List Bit}
    (hq : IsPath s i q) : q = [] ↔ i = 0 := by
  constructor
  · intro hnil
    cases hq with
    | root => rfl
    | left | right => exact nomatch (List.append_eq_nil_iff.1 hnil).2
  · rintro rfl
    rw [(isPath_eq hT hq).2]
    exact pathIn_base T 0

/-- The path to a leaf is the code of its symbol (R141). -/
theorem HoldsTree.codeIn_eq_path {s : State} {T : Tree} (h : Inv s) (hT : HoldsTree s T) {i : NodeIdx} {f : Node}
    {q : List Bit} (hf : storeRead s.nodes i.toNat = some f) (hleaf : f.tag = .leaf) (hq : IsPath s i q) :
    codeIn T f.sym = q :=
  (codeIn_eq hT.counts.distinct (hT.mem_leaves h hf hleaf)).trans (isPath_eq hT hq).2.symm

theorem emitted_append (rs rs' : List Response) : emitted (rs ++ rs') = emitted rs ++ emitted rs' := by
  simp [emitted]

section
variable {s t : State} {T : Tree} {bits : List Bit} {rs : List Response} {q : List Bit}

/-- No bit from the root. -/
theorem DecodedBits.nil (h : Inv s) (ht : s.tstate = .ready) (hd : s.dstate = .run) (hc : s.cur = 0) :
    DecodedBits s T [] s [] [] where
  run := rfl
  inv := h
  walked := walked_of_position ht hd
  rsps := (List.append_nil _).symm
  ok := nofun
  path := hc ▸ .root
  bits_eq := rfl

/-- One more bit answered `ok`. -/
theorem DecodedBits.append {u : State} {r : Response} {q' : List Bit} {x : Bit} (h : DecodedBits s T bits t rs q)
    (hu : exec (.decBit x) t = .next u) (hwalked : Walked t u) (hr : u.rsps = t.rsps ++ [r]) (hok : r.status = .ok)
    (hpath : IsPath s u.cur q') (hbits : bits ++ [x] = (emitted (rs ++ [r])).flatMap (codeIn T) ++ q') :
    ∃ u rs' q', DecodedBits s T (bits ++ [x]) u rs' q' :=
  ⟨u, rs ++ [r], q', {
    run := by
      rw [List.map_append, runInstrs_append h.run]
      exact runInstrs_cons hu
    inv := inv_effect h.inv (effect_of_exec hu)
    walked := h.walked.trans hwalked
    rsps := by rw [hr, h.rsps, List.append_assoc]
    ok := List.forall_mem_append.2 ⟨h.ok, List.forall_mem_singleton.2 hok⟩
    path := hpath
    bits_eq := hbits }⟩

/-- One more bit: it completes the code of a leaf's symbol, or lengthens the path to CUR. -/
theorem DecodedBits.snoc (h : DecodedBits s T bits t rs q) (hs : Inv s) (hT : HoldsTree s T) (hn : s.ncnt ≠ 1)
    (x : Bit) : ∃ u rs' q', DecodedBits s T (bits ++ [x]) u rs' q' := by
  have hbits := h.bits_eq
  obtain ⟨hsame, ht, hd⟩ := h.walked
  have hn' : t.ncnt ≠ 1 := hsame.ncnt ▸ hn
  obtain ⟨⟨e, f, nxt, he, htag, hc, -, hpos, hf⟩, -⟩ := noWalkLeavesTheTree t x h.inv ht hd hn'
  have hnext : IsPath s nxt (q ++ [x]) := by
    have he' := hsame.nodes ▸ he
    exact h.path.child (hs.lt_of_read he') he' htag hpos hc
  cases hnode : f.tag with
  | leaf =>
    have hcode : codeIn T f.sym = q ++ [x] := hT.codeIn_eq_path hs (hsame.nodes ▸ hf) hnode hnext
    have hsplit : bits ++ [x] =
        (emitted (rs ++ [{ status := .ok, sv := true, sym := f.sym }])).flatMap (codeIn T) ++ [] := by
      rw [emitted_append, List.flatMap_append, hbits]
      simp [emitted, hcode]
    exact h.append (exec_bit_to_leaf (.inl rfl) ht hd hn' he hc hf hnode) (walked_of_position ht hd) rfl
      rfl .root hsplit
  | internal =>
    have hsplit : bits ++ [x] = (emitted (rs ++ [{ status := .ok }])).flatMap (codeIn T) ++ (q ++ [x]) := by
      rw [emitted_append, List.flatMap_append, hbits]
      simp [emitted]
    exact h.append (exec_bit_to_internal (.inl rfl) ht hd hn' he hc hf hnode) (walked_of_position ht hd) rfl
      rfl hnext hsplit

/-- Every sequence of bits from the root decodes, by induction from its last bit. -/
theorem exists_decodedBits (h : Inv s) (ht : s.tstate = .ready) (hd : s.dstate = .run) (hc : s.cur = 0)
    (hT : HoldsTree s T) (hn : s.ncnt ≠ 1) (bits : List Bit) : ∃ t rs q, DecodedBits s T bits t rs q := by
  induction bits using List.reverseRecOn with
  | nil => exact ⟨_, _, _, .nil h ht hd hc⟩
  | append_singleton bits x ih =>
    obtain ⟨t, rs, q, hbits⟩ := ih
    exact hbits.snoc h hT hn x

end

/-- In a running session DEC_END answers OK exactly at the root (R165). -/
theorem decEnd_ok_iff {s : State} (ht : s.tstate = .ready) (hd : s.dstate = .run) :
    ∃ u r, exec .decEnd s = .next u ∧ u.rsps = s.rsps ++ [r] ∧ (r.status = .ok ↔ s.cur = 0) := by
  obtain ⟨hroot, hmid⟩ := decEndClosesOrReportsATruncatedCode s ht hd
  by_cases hc : s.cur = 0
  · exact ⟨_, _, hroot hc, rfl, iff_of_true rfl hc⟩
  · exact ⟨_, _, hmid hc, rfl, iff_of_false nofun hc⟩

/-- Settles O57: each bit completes a code or lengthens the path to CUR, and only the root's path is empty. -/
theorem everyBitSequenceIsCodesAndATail : Obligations.EveryBitSequenceIsCodesAndATail := by
  intro s T bits h ht hT hn hd hc
  obtain ⟨t, rs, q, hrun, -, hwalked, hrsps, hok, hpath, hbits⟩ := exists_decodedBits h ht hd hc hT hn bits
  obtain ⟨u, r, hu, hr, hend⟩ := decEnd_ok_iff hwalked.tstate hwalked.dstate
  have hnew : newResponses s t = rs := by rw [newResponses, hrsps, List.drop_left]
  rw [← hnew] at hok hbits
  exact ⟨t, q, hrun, hok, hpath, hbits, u, r, hu, hr, hend.trans (hT.path_eq_nil_iff hpath).symm⟩

end Sys2Proof.Machine
end

section
/-! System commands (spec/44_system.md R190 to R194): NOP, CLR_ERR, and READ_REG of an unassigned index. -/

namespace Sys2Proof.Machine

/-- Settles O11: NOP has one case, whatever the state. -/
theorem nopChangesNothing : Obligations.NopChangesNothing :=
  fun s => exec_of_effect (.nop s)

/-- Settles O13: CLR_ERR has one case, whatever the state. -/
theorem clrErrClearsOnlyErr : Obligations.ClrErrClearsOnlyErr :=
  fun s => exec_of_effect (.clrErr s)

/-- No index from 0x0C on is a register's (R40): each assigned index is below it. -/
theorem regOf_eq_none {r : Byte} (hr : 0x0C ≤ r.toNat) : regOf r = none := by
  have hne : ∀ k : Byte, k.toNat < 0x0C → r ≠ k := by
    rintro k hk rfl
    exact absurd hk (Nat.not_lt.2 hr)
  simp [regOf, hne]

/-- Settles O16: an unassigned index names no register, and BAD_REGISTER is of class None. -/
theorem badRegisterChangesOnlyErr : Obligations.BadRegisterChangesOnlyErr :=
  fun s _ hr => exec_of_raise_none (.badRegister s (regOf_eq_none hr)) rfl

end Sys2Proof.Machine
end

section
/-! The host reference functions (spec/48_host_reference.md R210 to R220): what Freq counts, which leaves Build makes,
and the two round-trip laws through the block. -/

namespace Sys2Proof.Machine

/-! ### Frequencies (R211, R212) -/

/-- `ft` counts the occurrences in `x`: positive counts that sum to its length, one entry for each of its symbols. -/
structure CountsOccurrences (x : List Byte) (ft : List (Byte × Nat)) : Prop where
  pos : ∀ p ∈ ft, 1 ≤ p.2
  sum : (ft.map Prod.snd).sum = x.length
  nodup : (ft.map Prod.fst).Nodup
  mem_iff : ∀ b, b ∈ ft.map Prod.fst ↔ b ∈ x

theorem countSymbol_pos {ft : List (Byte × Nat)} {a : Byte} (h : ∀ p ∈ ft, 1 ≤ p.2) :
    ∀ p ∈ countSymbol ft a, 1 ≤ p.2 := by
  induction ft with
  | nil => simp [countSymbol]
  | cons e rest ih =>
    obtain ⟨he, hrest⟩ := List.forall_mem_cons.1 h
    rw [countSymbol]
    split
    · exact List.forall_mem_cons.2 ⟨Nat.le_add_left 1 _, hrest⟩
    · exact List.forall_mem_cons.2 ⟨he, ih hrest⟩

theorem sum_countSymbol (ft : List (Byte × Nat)) (a : Byte) :
    ((countSymbol ft a).map Prod.snd).sum = (ft.map Prod.snd).sum + 1 := by
  induction ft with
  | nil => rfl
  | cons e rest ih =>
    rw [countSymbol]
    split
    · simp only [List.map_cons, List.sum_cons]; omega
    · simp only [List.map_cons, List.sum_cons, ih]; omega

/-- A symbol that has an entry keeps its place, and a new one comes last (R211). -/
theorem symbols_countSymbol (ft : List (Byte × Nat)) (a : Byte) :
    (countSymbol ft a).map Prod.fst =
      if a ∈ ft.map Prod.fst then ft.map Prod.fst else ft.map Prod.fst ++ [a] := by
  induction ft with
  | nil => rfl
  | cons e rest ih =>
    rw [countSymbol]
    split
    · subst a; simp
    · rename_i hne
      simp only [List.map_cons, ih, List.mem_cons, Ne.symm hne, false_or]
      split <;> rfl

/-- Counting one more symbol at the end of the input (R211). -/
theorem CountsOccurrences.concat {x : List Byte} {ft : List (Byte × Nat)} (h : CountsOccurrences x ft) (a : Byte) :
    CountsOccurrences (x ++ [a]) (countSymbol ft a) := by
  have hpos := countSymbol_pos (a := a) h.pos
  have hsum : ((countSymbol ft a).map Prod.snd).sum = (x ++ [a]).length := by simp [sum_countSymbol, h.sum]
  have hsymbols := symbols_countSymbol ft a
  by_cases ha : a ∈ ft.map Prod.fst
  · rw [if_pos ha] at hsymbols
    refine ⟨hpos, hsum, hsymbols ▸ h.nodup, fun b => ?_⟩
    rw [hsymbols, h.mem_iff, List.mem_append, List.mem_singleton, iff_self_or]
    rintro rfl
    exact (h.mem_iff b).1 ha
  · rw [if_neg ha] at hsymbols
    refine ⟨hpos, hsum, hsymbols ▸ List.concat_eq_append ▸ h.nodup.concat ha, fun b => ?_⟩
    rw [hsymbols, List.mem_append, List.mem_append, h.mem_iff]

theorem freq_concat (x : List Byte) (a : Byte) : freq (x ++ [a]) = countSymbol (freq x) a := by
  simp [freq]

theorem freq_countsOccurrences (x : List Byte) : CountsOccurrences x (freq x) := by
  induction x using List.reverseRecOn with
  | nil => exact ⟨nofun, rfl, List.nodup_nil, fun _ => Iff.rfl⟩
  | append_singleton x a ih => exact freq_concat x a ▸ ih.concat a

theorem freq_eq_nil_iff {x : List Byte} : freq x = [] ↔ x = [] := by
  simp only [List.eq_nil_iff_forall_not_mem, ← (freq_countsOccurrences x).mem_iff]
  simp

/-- Settles O58: Freq counts the symbols of the input one after another. -/
theorem frequenciesAreConserved : Obligations.FrequenciesAreConserved := by
  intro x
  obtain ⟨hpos, hsum, hnodup, hmem⟩ := freq_countsOccurrences x
  exact ⟨hpos, hsum, hnodup, hmem⟩

/-! ### Build (R213, R214): the leaves of the queue's nodes are kept, in some order -/

/-- The leaf symbols of all nodes of a queue. -/
def queueSymbols (q : List QEntry) : List Byte := q.flatMap fun e => treeSymbols e.node

theorem queueSymbols_cons (e : QEntry) (q : List QEntry) :
    queueSymbols (e :: q) = treeSymbols e.node ++ queueSymbols q := rfl

theorem length_leafEntries (ft : List (Byte × Nat)) (seq : Nat) : (leafEntries ft seq).length = ft.length := by
  induction ft generalizing seq with
  | nil => rfl
  | cons p rest ih => simp [leafEntries, ih]

theorem queueSymbols_leafEntries (ft : List (Byte × Nat)) (seq : Nat) :
    queueSymbols (leafEntries ft seq) = ft.map Prod.fst := by
  induction ft generalizing seq with
  | nil => rfl
  | cons p rest ih => simp [leafEntries, queueSymbols_cons, treeSymbols, ih]

/-- Removing the least entry loses none. -/
theorem removeLeast_perm (e : QEntry) (q : List QEntry) :
    ((removeLeast e q).1 :: (removeLeast e q).2).Perm (e :: q) := by
  induction q generalizing e with
  | nil => exact .refl _
  | cons a rest ih =>
    rw [removeLeast]
    split
    · exact (List.Perm.swap _ _ _).trans ((ih a).cons e)
    · exact (List.Perm.swap _ _ _).trans (((ih e).cons a).trans (.swap _ _ _))

/-- The entry that combines two entries (R214). -/
def combinedEntry (sk : Int) (l r : QEntry) (seq : Nat) : QEntry :=
  ⟨.internal l.node r.node, l.freq + r.freq, sk, seq⟩

/-- One round takes two entries out of the queue and puts their combination in (R214). -/
theorem exists_combine_round (sk : Int) (fuel : Nat) (e f : QEntry) (rest : List QEntry) (seq : Nat) :
    ∃ l r q, (l :: r :: q).Perm (e :: f :: rest) ∧ combine sk (fuel + 1) (e :: f :: rest) seq =
      combine sk fuel (combinedEntry sk l r seq :: q) (seq + 1) := by
  have hfirst := removeLeast_perm e (f :: rest)
  rcases hremoved : removeLeast e (f :: rest) with ⟨l, _ | ⟨g, q⟩⟩ <;> rw [hremoved] at hfirst
  · exact absurd hfirst.length_eq (by simp)
  · exact ⟨l, _, _, ((removeLeast_perm g q).cons l).trans hfirst, by simp only [combine, hremoved, combinedEntry]⟩

/-- Combining two entries keeps their leaf symbols. -/
theorem queueSymbols_combinedEntry (sk : Int) (l r : QEntry) (seq : Nat) (q : List QEntry) :
    queueSymbols (combinedEntry sk l r seq :: q) = queueSymbols (l :: r :: q) := by
  simp [queueSymbols_cons, combinedEntry, treeSymbols]

/-- With rounds enough, a queue that is not empty is combined into one tree with all its leaves (R214; log 15). -/
theorem exists_combine (sk : Int) (fuel : Nat) (q : List QEntry) (seq : Nat) (hne : q ≠ [])
    (hfuel : q.length ≤ fuel + 1) :
    ∃ T, combine sk fuel q seq = some T ∧ (treeSymbols T).Perm (queueSymbols q) := by
  induction fuel generalizing q seq with
  | zero =>
    obtain ⟨e, rfl⟩ : ∃ e, q = [e] := List.length_eq_one_iff.1 (by have := List.length_pos_of_ne_nil hne; omega)
    exact ⟨e.node, rfl, by simp [queueSymbols]⟩
  | succ fuel ih =>
    match q with
    | [e] => exact ⟨e.node, by simp [combine], by simp [queueSymbols]⟩
    | e :: f :: rest =>
      obtain ⟨l, r, q, hperm, hround⟩ := exists_combine_round sk fuel e f rest seq
      have hlen := hperm.length_eq
      have hsymbols : (queueSymbols (combinedEntry sk l r seq :: q)).Perm (queueSymbols (e :: f :: rest)) :=
        queueSymbols_combinedEntry sk l r seq q ▸ hperm.flatMap_right _
      obtain ⟨T, hT, hleaves⟩ := ih (combinedEntry sk l r seq :: q) (seq + 1) (List.cons_ne_nil _ q)
        (by simp only [List.length_cons] at hlen hfuel ⊢; omega)
      exact ⟨T, hround.trans hT, hleaves.trans hsymbols⟩

/-- The leaves of the built tree are the table's entries (R213, R214). -/
theorem exists_build (sk : Int) {ft : List (Byte × Nat)} (hne : ft ≠ []) :
    ∃ T, build sk ft = some T ∧ (treeSymbols T).Perm (ft.map Prod.fst) := by
  have hlen := length_leafEntries ft 0
  obtain ⟨T, hT, hperm⟩ := exists_combine sk ft.length (leafEntries ft 0) ft.length
    (List.ne_nil_of_length_pos (hlen ▸ List.length_pos_of_ne_nil hne)) (hlen ▸ Nat.le_succ _)
  exact ⟨T, hT, queueSymbols_leafEntries ft 0 ▸ hperm⟩

theorem build_nil (sk : Int) : build sk [] = none := rfl

/-- An input that is not empty has a tree, whose leaves carry its symbols, each once (R213, R216). -/
theorem exists_build_freq (sk : Int) {x : List Byte} (hne : x ≠ []) :
    ∃ T, build sk (freq x) = some T ∧ DistinctLeaves T ∧ ∀ b, b ∈ treeSymbols T ↔ b ∈ x := by
  obtain ⟨T, hT, hperm⟩ := exists_build sk (mt freq_eq_nil_iff.1 hne)
  have hcounts := freq_countsOccurrences x
  exact ⟨T, hT, hperm.nodup_iff.2 hcounts.nodup, fun b => hperm.mem_iff.trans (hcounts.mem_iff b)⟩

/-- Settles O59: Build keeps the leaves of its queue, which begins with one for each entry of Freq. -/
theorem builtTreeHasTheSymbolsOfTheInput : Obligations.BuiltTreeHasTheSymbolsOfTheInput := by
  intro sk x
  by_cases hx : x = []
  · subst hx
    have hnone : build sk (freq []) = none := build_nil sk
    exact ⟨iff_of_true hnone rfl, fun T hT => nomatch hnone.symm.trans hT⟩
  · obtain ⟨T, hT, hlaws⟩ := exists_build_freq sk hx
    refine ⟨iff_of_false (by simp [hT]) hx, fun T' hT' => ?_⟩
    obtain rfl : T = T' := Option.some.inj (hT.symm.trans hT')
    exact hlaws

/-! ### Loading a serialized tree (R220) -/

/-- LOAD_TREE of a serialization is answered `ok` throughout and makes the tree READY, from every state but for ERR. -/
theorem exists_loadTree (s : State) {T : Tree} (hd : DistinctLeaves T) :
    ∃ t, runInstrs (loadTreeCmds (serialize T)) s = .next t ∧ Inv (withErr 0x00 0x00 t) ∧ t.tstate = .ready ∧
      HoldsTree t T ∧ t.rsps = s.rsps ++ List.replicate ((serialize T).length + 2) { status := .ok } := by
  obtain ⟨t, hrun, hinv, ht, hT, hrsps⟩ := load_tree s hd
  have hsame : SameTree t (respondOk t) := ⟨rfl, rfl, rfl, rfl, rfl, rfl, rfl⟩
  refine ⟨respondOk t, ?_, inv_respond _ hinv, ht, hsame.holdsTree hT, ?_⟩
  · rw [loadTreeCmds, ← List.cons_append, runInstrs_append hrun, runInstrs_cons (exec_of_effect (.endReady ht))]
    rfl
  · rw [respondOk_rsps, hrsps, List.append_assoc, List.replicate_succ' (n := _ + 1)]

/-- Settles O53: feeding a serialization makes READY with that tree, and TREE_END then answers `ok`. -/
theorem loadingASerializedTreeReproducesIt : Obligations.LoadingASerializedTreeReproducesIt := by
  intro s T hd
  obtain ⟨t, hrun, -, ht, hT, hrsps⟩ := exists_loadTree s hd
  exact ⟨t, hrun, ht, hT, hrsps⟩

/-! ### The round trip (R218, R219) -/

/-- The answers to DECODE_BITS of the payload of `x` on the tree `T` (R169). -/
abbrev payloadAnswers (T : Tree) (x : List Byte) : List Response :=
  [{ status := .ok }] ++ x.flatMap (fun b => codeAnswers (payloadCode T b).length b) ++
    [{ status := .ok, data := BitVec.ofNat 32 x.length }]

theorem payloadAnswers_ok {T : Tree} {x : List Byte} : ∀ r ∈ payloadAnswers T x, r.status = .ok := by
  intro r hr
  simp only [payloadAnswers, codeAnswers, List.mem_append, List.mem_flatMap, List.mem_replicate,
    List.mem_singleton] at hr
  obtain (rfl | ⟨_, _, ⟨_, rfl⟩ | rfl⟩) | rfl := hr <;> rfl

theorem emitted_replicate_ok (n : Nat) : emitted (List.replicate n { status := .ok }) = [] := by
  simp [emitted]

/-- Each code's answers emit its symbol. -/
theorem emitted_flatMap_codeAnswers (T : Tree) (x : List Byte) :
    emitted (x.flatMap fun b => codeAnswers (payloadCode T b).length b) = x := by
  induction x with
  | nil => rfl
  | cons b x ih =>
    rw [List.flatMap_cons, emitted_append, ih, codeAnswers, emitted_append, emitted_replicate_ok]
    rfl

theorem emitted_payloadAnswers (T : Tree) (x : List Byte) : emitted (payloadAnswers T x) = x := by
  rw [payloadAnswers, emitted_append, emitted_append, emitted_flatMap_codeAnswers]
  exact List.append_nil x

/-- DECODE_BITS has no command that reads or clears ERR. -/
theorem noErrCommand_of_mem_decodeBitsCmds {bits : List Bit} : ∀ i ∈ decodeBitsCmds bits, NoErrCommand i := by
  intro i hi
  simp only [decodeBitsCmds, List.mem_cons, List.mem_append, List.mem_map, List.not_mem_nil, or_false] at hi
  obtain rfl | ⟨_, _, rfl⟩ | rfl := hi <;> exact ⟨nofun, nofun, nofun⟩

/-- DECODE_BITS of a payload on its tree, whatever ERR holds: R169 on the state with ERR clear, which a run answered
`ok` throughout does not tell apart. -/
theorem exists_decodePayload {s : State} {T : Tree} {x : List Byte} (hinv : Inv (withErr 0x00 0x00 s))
    (ht : s.tstate = .ready) (hT : HoldsTree s T) (hx : ∀ b ∈ x, b ∈ treeSymbols T) :
    ∃ t, runInstrs (decodeBitsCmds (payload T x)) s = .next t ∧ t.rsps = s.rsps ++ payloadAnswers T x := by
  have hsame : SameTree s (withErr 0x00 0x00 s) := ⟨rfl, rfl, rfl, rfl, rfl, rfl, rfl⟩
  obtain ⟨t, hrun, -, hrsps⟩ := payloadDecodesToItsSymbols _ T x hinv ht (hsame.holdsTree hT) hx
  have hanswers : t.rsps = s.rsps ++ payloadAnswers T x := by
    rw [hrsps, payloadAnswers, ← List.append_assoc, ← List.append_assoc]
  have hok : ∀ r ∈ newResponses (withErr 0x00 0x00 s) t, r.status = .ok := by
    rw [newResponses, hanswers, List.drop_left]
    exact payloadAnswers_ok
  have hback := run_withErr noErrCommand_of_mem_decodeBitsCmds s.errFirst s.errLast hrun hok
  exact ⟨withErr s.errFirst s.errLast t, hback, hanswers⟩

/-- The host's whole exchange of R218, and its answers. -/
theorem exists_decompressRun (s : State) {T : Tree} {x : List Byte} (hd : DistinctLeaves T)
    (hx : ∀ b ∈ x, b ∈ treeSymbols T) :
    ∃ t, runInstrs (loadTreeCmds (serialize T) ++ decodeBitsCmds (payload T x)) s = .next t ∧
      t.rsps = s.rsps ++ (List.replicate ((serialize T).length + 2) { status := .ok } ++ payloadAnswers T x) := by
  obtain ⟨u, hload, hinv, hu, hT, hrspsU⟩ := exists_loadTree s hd
  obtain ⟨t, hdecode, hrsps⟩ := exists_decodePayload hinv hu hT hx
  exact ⟨t, (runInstrs_append hload).trans hdecode, by rw [hrsps, hrspsU, List.append_assoc]⟩

/-- The host reads the input off those answers (R218). -/
theorem hostResult_decompressRun (n : Nat) (T : Tree) (x : List Byte) :
    hostResult (List.replicate n { status := .ok } ++ payloadAnswers T x) = some x := by
  have hok : ∀ r ∈ List.replicate n ({ status := .ok } : Response) ++ payloadAnswers T x, r.status = .ok := by
    intro r hr
    obtain hr | hr := List.mem_append.1 hr
    · rw [List.eq_of_mem_replicate hr]
    · exact payloadAnswers_ok r hr
  rw [hostResult, if_pos (by simpa only [List.all_eq_true, decide_eq_true_eq] using hok), emitted_append,
    emitted_replicate_ok, emitted_payloadAnswers, List.nil_append]

/-- Settles O60: Build gives a tree with the input's symbols, the block loads it and decodes the payload, and every
answer is OK. -/
theorem roundTripLaw : Obligations.RoundTripLaw := by
  intro sk x s hne
  obtain ⟨T, hbuild, hd, hmem⟩ := exists_build_freq sk hne
  have hcompress : compress sk x = (payload T x, some T) := by rw [compress, hbuild]
  obtain ⟨t, hrun, hrsps⟩ := exists_decompressRun s hd fun b hb => (hmem b).2 hb
  rw [hcompress]
  refine ⟨?_, T, t, rfl, hrun, ?_⟩
  · simp only [decompress, hrun, hrsps, List.drop_left, hostResult_decompressRun]
  · rw [hrsps, payloadAnswers, ← List.append_assoc, ← List.append_assoc, List.getLast?_concat]

end Sys2Proof.Machine
end

section
/-! Exceptions and reset (spec/60_exceptions.md R241, R243, R256, spec/70_reset_and_hazards.md R271): what a status leaves
by its effect class, which statuses a command answers, and the reset input. -/

namespace Sys2Proof.Machine

/-! ### What a status leaves (R243) -/

/-- The statuses of class Discard: the loader's errors (R241). -/
theorem effectClass_eq_discard_iff {e : Status} : effectClass e = .discard ↔
    e ∈ [Status.treeTruncated, .treeBadMarker, .treeOverflow, .treeDupSymbol] := by
  cases e <;> decide

/-- The statuses of class Halt: the decoder's errors in a running session (R241). -/
theorem effectClass_eq_halt_iff {e : Status} : effectClass e = .halt ↔
    e ∈ [Status.invalidBit, .undecodableBit, .truncatedCode] := by
  cases e <;> decide

/-- The three effect classes, one for each form of what `raise` leaves. -/
theorem raise_eq_reported (e : Status) (s : State) : raise e s = reported e
    (if effectClass e = .discard then discardedInto s (raise e s)
     else if effectClass e = .halt then { s with dstate := .halted } else s) := by
  cases hc : effectClass e with
  | none => exact raise_none s hc
  | discard =>
    rw [if_pos rfl, raise_discard s hc]
    rfl
  | halt => exact raise_halt s hc

/-- Settles O43: a status other than OK was raised, so the effect of its class is all that it left. -/
theorem effectClassesOfErrors : Obligations.EffectClassesOfErrors := by
  intro s t w r hw hr hne
  rcases performWord_raises_or_answers hw with ⟨e, -, rfl⟩ | ⟨r', hok, hr', -⟩
  · obtain rfl := response_unique hr (raise_rsps e s)
    simpa only [effectClass_eq_discard_iff, effectClass_eq_halt_iff] using raise_eq_reported e s
  · obtain rfl := response_unique hr hr'
    exact absurd hok hne

/-! ### Which statuses a command answers (R241) -/

/-- The status of the one new response. -/
theorem status_of_rsps {s t : State} {r r' : Response} (hr : t.rsps = s.rsps ++ [r]) (h : t.rsps = s.rsps ++ [r']) :
    r.status = r'.status :=
  congrArg Response.status (response_unique hr h)

/-- Settles O44: each case of a command answers OK or raises one status, and the cases that several commands share are
those of a session (R163 to R165) and of a bit fed to it (R171). -/
theorem statusesEachCommandCanAnswer : Obligations.StatusesEachCommandCanAnswer := by
  refine ⟨fun e => by cases e <;> decide, fun s t i r hx hr => ?_⟩
  cases effect_of_exec hx with
  | nop | reset | clrErr | readReg | treeStart | leafMarker | endReady | start | ends | encodes =>
    simp [status_of_rsps hr rfl]
  | allocInternal | allocLeaf | completes =>
    have hok : r.status = .ok := status_of_rsps (r' := { status := .ok }) hr (by simp)
    simp [hok]
  | badRegister | byteOutside | badMarker | dupSymbol | overflow | endEmpty | endLoading | startNoTree | invalidBit
      | truncated | noEncoder | encNoTree | unknownSymbol =>
    simp [status_of_rsps hr (raise_rsps _ s)]
  | noTree hi | halted hi | idle hi =>
    rcases hi with ⟨x, rfl⟩ | ⟨c, rfl⟩ | rfl <;> simp [status_of_rsps hr (raise_rsps _ s)]
  | degenOne hi =>
    rcases hi with rfl | ⟨c, rfl, -⟩ <;> simp [status_of_rsps hr (raise_rsps _ s)]
  | degenZero hi | walkLeaf hi | walkInternal hi =>
    rcases hi with rfl | ⟨c, rfl, -⟩ <;> simp [status_of_rsps hr rfl]

/-! ### The reset input and the idle port (R256, R271) -/

/-- Settles O8: RST leaves what RESET leaves before its response, and the idle step leaves the state itself. -/
theorem resetInputAndIdlePort : Obligations.ResetInputAndIdlePort :=
  ⟨fun _ _ _ hin => ⟨_, step_of_rst hin, rfl, rfl, exec_of_effect (.reset _)⟩, fun _ => step_of_idle⟩

end Sys2Proof.Machine
end

section

/-! The reset command (spec/70_reset_and_hazards.md R270). -/

namespace Sys2Proof.Machine

/-- Settles O12: RESET has one case, whatever the state: the reset procedure, whose elements are laws of the state, and
then `ok`. -/
theorem resetSetsEveryElement : Obligations.ResetSetsEveryElement := by
  intro s
  refine ⟨respondOk (resetProcedure s), exec_of_effect (.reset s), ?_⟩
  simp

end Sys2Proof.Machine
end
